-- ==== Sys2Proof/Word.lean ====
section
/-! DEFINITION. The word types of BHF (spec/20_memory.md R64, R65; spec/30_encoding.md R80):
both streams are sequences of 32-bit words, a sample is one 32-bit word, and only a byte
transport ever cuts a word into bytes. -/

namespace Sys2Proof

/-- One word of the command or the response stream; one sample word (R80, R84). -/
abbrev Word := BitVec 32

/-- One byte of a byte transport (R64). Nothing inside BHF is byte-addressed. -/
abbrev Byte := BitVec 8

end Sys2Proof
end

