-- ==== Sys2Proof/Syntax.lean ====
section
/-! DEFINITION. The command set (spec/30_encoding.md R90, spec/opcode_table.json): one constructor
per row of the opcode table. A command is its header and its payload; the header's `arg` of a
payload command is the number of samples (of complex bins for FFTI) that the payload holds, so the
payload alone carries it (R83, R85). Reserved opcodes (R92) are no commands of the table: the
decoder names them and the step executes rule R92. -/

namespace Sys2Proof

/-- The twelve commands of BHF (R90). -/
inductive Instr where
  /-- `NOP`; `arg` is ignored (R191, R93) but kept, so that no bit of the header is lost. -/
  | nop (arg : BitVec 24)
  /-- `INIT n` (R192): `arg` is the new frame size. -/
  | init (arg : BitVec 24)
  /-- `WR reg, imm16` (R194). -/
  | wr (reg : BitVec 8) (imm16 : BitVec 16)
  /-- `RD reg` (R196); `imm16` is ignored (R93) but kept. -/
  | rd (reg : BitVec 8) (imm16 : BitVec 16)
  /-- `PUSH n: s` (R111). -/
  | push (samples : List Word)
  /-- `HPF n: s` (R122). -/
  | hpf (samples : List Word)
  /-- `VAD n: s` (R133). -/
  | vad (samples : List Word)
  /-- `SPEC n: s` (R153). -/
  | spec (samples : List Word)
  /-- `AGC n: s` (R172). -/
  | agc (samples : List Word)
  /-- `PREP n: s` (R182). -/
  | prep (samples : List Word)
  /-- `FFTF n: s` (R145). -/
  | fftf (samples : List Word)
  /-- `FFTI n: re X[0], im X[0], ...` (R146); a bin is the pair (real part, imaginary part). -/
  | ffti (bins : List (Word × Word))
deriving DecidableEq, Repr

end Sys2Proof
end

