-- ==== Sys2Proof/WellFormed.lean ====
section
/-! DEFINITION. Which commands have an encoding: a payload command's count is the 24-bit field
`arg` of its header (spec/30_encoding.md R81, R94). -/

namespace Sys2Proof

/-- The number of samples or bins that the header of a payload command counts in `arg` (R81). -/
def Instr.count : Instr → Nat
  | .nop _ => 0
  | .init _ => 0
  | .wr _ _ => 0
  | .rd _ _ => 0
  | .push xs => xs.length
  | .hpf xs => xs.length
  | .vad xs => xs.length
  | .spec xs => xs.length
  | .agc xs => xs.length
  | .prep xs => xs.length
  | .fftf xs => xs.length
  | .ffti bs => bs.length

/-- A command is well formed when its count fits the 24-bit `arg` (R94: `0 .. 2^24-1`). Whether the
count is the one the command wants (FRAME_SIZE, FFT_N) is no matter of form: it ends in E_SIZE. -/
def Instr.wellFormed (i : Instr) : Bool := decide (i.count < 2 ^ 24)

end Sys2Proof
end

