-- ==== Sys2Proof/Decode.lean ====
section
/-! DEFINITION. The command encoding (spec/30_encoding.md R80 to R94): the decoder, total on any
words and rejecting by name, then the encoder, then the reading of a number of the opcode table.
BHF is word-wide: the decoder reads words; `wordsOfBytes` and `bytesOfWords` are the byte order of a
transport that carries a word as four bytes (R64). -/

namespace Sys2Proof

/-- The twelve opcodes that are not reserved (R90). -/
inductive Opcode where
  | nop | init | wr | rd | push | hpf | vad | spec | agc | prep | fftf | ffti
deriving DecidableEq, Repr

/-- The `op` field of an opcode (R90). -/
def Opcode.bits : Opcode → BitVec 8
  | .nop => 0x00#8
  | .init => 0x01#8
  | .wr => 0x02#8
  | .rd => 0x03#8
  | .push => 0x20#8
  | .hpf => 0x21#8
  | .vad => 0x22#8
  | .spec => 0x23#8
  | .agc => 0x24#8
  | .prep => 0x25#8
  | .fftf => 0x26#8
  | .ffti => 0x40#8

/-- The opcode of an `op` field; `none` when the field is reserved (R92). -/
def Opcode.ofBits (op : BitVec 8) : Option Opcode :=
  if op = 0x00#8 then some .nop
  else if op = 0x01#8 then some .init
  else if op = 0x02#8 then some .wr
  else if op = 0x03#8 then some .rd
  else if op = 0x20#8 then some .push
  else if op = 0x21#8 then some .hpf
  else if op = 0x22#8 then some .vad
  else if op = 0x23#8 then some .spec
  else if op = 0x24#8 then some .agc
  else if op = 0x25#8 then some .prep
  else if op = 0x26#8 then some .fftf
  else if op = 0x40#8 then some .ffti
  else none

/-- The opcode of a command (R90). -/
def Instr.opcode : Instr → Opcode
  | .nop _ => .nop
  | .init _ => .init
  | .wr _ _ => .wr
  | .rd _ _ => .rd
  | .push _ => .push
  | .hpf _ => .hpf
  | .vad _ => .vad
  | .spec _ => .spec
  | .agc _ => .agc
  | .prep _ => .prep
  | .fftf _ => .fftf
  | .ffti _ => .ffti

/-- `op = header[31:24]` (R81). -/
def headerOp (h : Word) : BitVec 8 := h.extractLsb' 24 8
/-- `arg = header[23:0]` (R81). -/
def headerArg (h : Word) : BitVec 24 := h.extractLsb' 0 24
/-- `reg = header[23:16]` (R82). -/
def headerReg (h : Word) : BitVec 8 := h.extractLsb' 16 8
/-- `imm16 = header[15:0]` (R82). -/
def headerImm (h : Word) : BitVec 16 := h.extractLsb' 0 16

/-- `plen(op, arg)` (R83): how many payload words follow a header, implemented or reserved alike. -/
def plen (op : BitVec 8) (arg : BitVec 24) : Nat :=
  if op.getLsbD 7 then 0
  else if op.extractLsb' 5 2 = 0b01#2 then arg.toNat
  else if op.extractLsb' 5 2 = 0b10#2 then 2 * arg.toNat
  else 0

/-- The payload words of the command whose header is `h` (R83). -/
def headerPlen (h : Word) : Nat := plen (headerOp h) (headerArg h)

/-- A complex payload: real part, imaginary part, of bin 0, then of bin 1, ... (R85). -/
def pairWords : List Word → List (Word × Word)
  | a :: b :: rest => (a, b) :: pairWords rest
  | _ => []

/-- The words of a complex payload (R85). -/
def flattenPairs : List (Word × Word) → List Word
  | [] => []
  | (a, b) :: rest => a :: b :: flattenPairs rest

/-- The command with a given opcode, header and payload (R81, R82, R85). -/
def commandOf (o : Opcode) (h : Word) (payload : List Word) : Instr :=
  match o with
  | .nop => .nop (headerArg h)
  | .init => .init (headerArg h)
  | .wr => .wr (headerReg h) (headerImm h)
  | .rd => .rd (headerReg h) (headerImm h)
  | .push => .push payload
  | .hpf => .hpf payload
  | .vad => .vad payload
  | .spec => .spec payload
  | .agc => .agc payload
  | .prep => .prep payload
  | .fftf => .fftf payload
  | .ffti => .ffti (pairWords payload)

/-- Why the decoder answers no command. -/
inductive Reject where
  /-- The words end before the header, or before the header's payload is whole (R83). -/
  | incomplete
  /-- A whole command whose `op` is reserved (R92), and the words after its payload. -/
  | reservedOpcode (op : BitVec 8) (rest : List Word)
deriving DecidableEq, Repr

/-- Cuts the first command off a sequence of words: the command and the words after it (R80, R83,
R90, R92). -/
def decode : List Word → Except Reject (Instr × List Word)
  | [] => .error .incomplete
  | h :: t =>
    if t.length < headerPlen h then .error .incomplete
    else
      match Opcode.ofBits (headerOp h) with
      | some o => .ok (commandOf o h (t.take (headerPlen h)), t.drop (headerPlen h))
      | none => .error (.reservedOpcode (headerOp h) (t.drop (headerPlen h)))

/-! ### The encoder -/

/-- Format H: `op ++ arg` (R81). -/
def headerH (o : Opcode) (arg : BitVec 24) : Word := (o.bits ++ arg : BitVec (8 + 24))

/-- Format HR: `op ++ reg ++ imm16` (R82). -/
def headerHR (o : Opcode) (reg : BitVec 8) (imm16 : BitVec 16) : Word :=
  (o.bits ++ reg ++ imm16 : BitVec (8 + 8 + 16))

/-- The words of a command with one sample per payload word (R85). -/
def encodeSamples (o : Opcode) (xs : List Word) : List Word :=
  headerH o (BitVec.ofNat 24 xs.length) :: xs

/-- The words of a well-formed command: its header, then its payload (R81, R82, R85, R90). -/
def encode : Instr → List Word
  | .nop arg => [headerH .nop arg]
  | .init arg => [headerH .init arg]
  | .wr reg imm16 => [headerHR .wr reg imm16]
  | .rd reg imm16 => [headerHR .rd reg imm16]
  | .push xs => encodeSamples .push xs
  | .hpf xs => encodeSamples .hpf xs
  | .vad xs => encodeSamples .vad xs
  | .spec xs => encodeSamples .spec xs
  | .agc xs => encodeSamples .agc xs
  | .prep xs => encodeSamples .prep xs
  | .fftf xs => encodeSamples .fftf xs
  | .ffti bs => headerH .ffti (BitVec.ofNat 24 bs.length) :: flattenPairs bs

/-! ### Byte transport (R64) -/

/-- The four bytes of a word, bits 7:0 first (R64). -/
def bytesOfWord (w : Word) : List Byte :=
  [w.extractLsb' 0 8, w.extractLsb' 8 8, w.extractLsb' 16 8, w.extractLsb' 24 8]

/-- The bytes of a sequence of words (R64). -/
def bytesOfWords (ws : List Word) : List Byte := ws.flatMap bytesOfWord

/-- The words of a sequence of bytes, and the fewer than four bytes left over (R64). -/
def wordsOfBytes : List Byte → List Word × List Byte
  | b0 :: b1 :: b2 :: b3 :: rest =>
    let r := wordsOfBytes rest
    ((b3 ++ b2 ++ b1 ++ b0 : BitVec (8 + 8 + 8 + 8)) :: r.1, r.2)
  | rest => ([], rest)

/-! ### The opcode table's numbers -/

/-- The words of an instruction whose bits are the low `nbits` bits of `w`, the first word the least
significant; every bit above is 0, up to the end of the payload that the header announces. -/
def tableWords (nbits w : Nat) : List Word :=
  let v := w % 2 ^ nbits
  let h : Word := BitVec.ofNat 32 v
  h :: (List.range (headerPlen h)).map (fun k => BitVec.ofNat 32 (v >>> (32 * (k + 1))))

/-- The command that the decoder reads from the instruction whose bits are `w`, numbered as
spec/opcode_table.json numbers them. -/
def decodeTableWord (nbits w : Nat) : Option Instr :=
  match decode (tableWords nbits w) with
  | .ok (i, []) => some i
  | _ => none

end Sys2Proof
end

