-- ==== Sys2Proof/Machine/Memory.lean ====
section
/-! DEFINITION. The RAM arrays ACC, OVL, PROF (spec/20_memory.md R60): element-addressed, one access
width. An array is the list of its elements that differ from +0.0, the content the spec gives every
element at reset (spec/10_state.md R51), with strictly rising indices, so that equal arrays are
equal lists (log 12). -/

namespace Sys2Proof.Machine

/-- The listed elements of one array: (index, word). -/
abbrev Memory := List (Nat × Word)

/-- What an element that is not listed reads as: +0.0 (R51). -/
def Memory.unlisted : Word := 0x00000000#32

/-- `MemRead`: element `i` (R60). -/
def Memory.read : Memory → Nat → Word
  | [], _ => Memory.unlisted
  | (a, v) :: rest, i => if a = i then v else Memory.read rest i

/-- `MemWrite`: element `i` becomes `v`; the canonical form is kept (R60). -/
def Memory.write : Memory → Nat → Word → Memory
  | [], i, v => if v = Memory.unlisted then [] else [(i, v)]
  | (a, w) :: rest, i, v =>
    if i < a then if v = Memory.unlisted then (a, w) :: rest else (i, v) :: (a, w) :: rest
    else if i = a then if v = Memory.unlisted then rest else (i, v) :: rest
    else (a, w) :: Memory.write rest i v

/-- The array whose elements from index `base` on are the given words, all others +0.0. -/
def Memory.ofListFrom : Nat → List Word → Memory
  | _, [] => []
  | base, v :: vs =>
    if v = Memory.unlisted then Memory.ofListFrom (base + 1) vs
    else (base, v) :: Memory.ofListFrom (base + 1) vs

/-- The array whose elements `0, 1, ...` are the given words: every element is written. -/
def Memory.ofList (vs : List Word) : Memory := Memory.ofListFrom 0 vs

/-- Elements `0 .. n-1`, in order. -/
def Memory.toList (m : Memory) (n : Nat) : List Word := (List.range n).map (Memory.read m)

/-- The canonical form, every index at least `lo`. -/
def Memory.wfFrom : Nat → Memory → Bool
  | _, [] => true
  | lo, (a, v) :: rest => decide (lo ≤ a) && v != Memory.unlisted && Memory.wfFrom (a + 1) rest

/-- The canonical form: strictly rising indices, no entry equal to what an unlisted element reads as. -/
def Memory.wf (m : Memory) : Bool := Memory.wfFrom 0 m

/-- Every listed element lies in an array of `size` elements (R60). -/
def Memory.within (size : Nat) (m : Memory) : Bool := m.all (fun e => decide (e.1 < size))

end Sys2Proof.Machine
end

