-- ==== Sys2Proof/Config.lean ====
section
/-! DEFINITION. The configuration record `Cfg` of spec/00_scope.md R8 and the values the spec leaves
open. A constant of namespace Config has no body: nothing in Lean can evaluate it, so whatever is
proved of it holds for every value. Which values are legal is `Cfg.valid` (Machine/Params.lean). -/

namespace Sys2Proof

/-- The five coefficients of the biquad (R8, R120), over any carrier of numbers. -/
structure Coeffs (α : Type) where
  b0 : α
  b1 : α
  b2 : α
  a1 : α
  a2 : α
deriving DecidableEq, Repr, Inhabited

/-- The two VAD thresholds (R8, R130). -/
structure VadParams where
  eth : Word
  zth : Word
deriving DecidableEq, Repr, Inhabited

/-- The constants of the gain control (R8, R170). -/
structure AgcParams where
  target : Word
  eps : Word
  min : Word
  max : Word
  mu : Word
deriving DecidableEq, Repr, Inhabited

/-- The constants of the fade-out (R8, R180): FADE_THRESH and FADE_LEN. -/
structure FadeParams where
  thresh : Nat
  len : Nat
deriving DecidableEq, Repr, Inhabited

/-- How the subtracted spectrum is rebuilt (R151, U7): with `cos` and `sin` of the phase, or by
scaling each analysed bin by `M2/MAG`. The two are equal in exact arithmetic (log 5). -/
inductive SpectrumForm where
  | polar
  | scaling
deriving DecidableEq, Repr, Inhabited

/-- The functions of a numerics record (D8), on words: each answers for its operands alone (log 3). -/
structure NumOps where
  add : Word → Word → Word
  sub : Word → Word → Word
  mul : Word → Word → Word
  div : Word → Word → Word
  sqrt : Word → Word
  cos : Word → Word
  sin : Word → Word
  atan2 : Word → Word → Word
  fromNat : Nat → Word
deriving Inhabited

/-- The parameter `Num` of R8, by name, so that a configuration is plain data: the default (D8), or
the numerics record number `k` of `Config.numOps` (log 3). -/
inductive Numerics where
  | binary32
  | other (k : Nat)
deriving DecidableEq, Repr, Inhabited

/-- The build-time configuration of one instance (R8). No command changes it. `qdepth` belongs to the
environment (`none`: unbounded). -/
structure Cfg where
  /-- Num; `Cfg.num` (Machine/Num.lean) is the record that it names. -/
  numerics : Numerics
  /-- FS, in Hz; no rule reads it (R3). -/
  fs : Nat
  /-- FFT_N, the transform size (R8, D11). -/
  fftN : Nat
  /-- B0, B1, B2, A1, A2. -/
  biquad : Coeffs Word
  /-- VAD_ETH, VAD_ZTH. -/
  vad : VadParams
  /-- SIL_MIN (R149). -/
  silMin : Nat
  /-- ALPHA (R149). -/
  alpha : Word
  /-- UPD_MAX (R148, R149). -/
  updMax : Nat
  /-- A_OS, the over-subtraction factor (R151). -/
  aOs : Word
  /-- BETA, the spectral floor fraction (R151). -/
  beta : Word
  /-- AGC_TARGET, AGC_EPS, AGC_MIN, AGC_MAX, AGC_MU. -/
  agc : AgcParams
  /-- FADE_THRESH, FADE_LEN. -/
  fade : FadeParams
  /-- QDEPTH, environment only (R212, D41). -/
  qdepth : Option Nat
  /-- The reconstruction form this instance computes (R151, U7). -/
  spectrum : SpectrumForm
deriving DecidableEq, Repr, Inhabited

/-- B0..A2: R8 gives no default (D39: the informative default is no claim). -/
opaque Config.biquad : Coeffs Word
/-- VAD_ETH, VAD_ZTH: R8 gives no default. -/
opaque Config.vad : VadParams
/-- SIL_MIN: R8 gives no default. -/
opaque Config.silMin : Nat
/-- AGC_TARGET .. AGC_MU: R8 gives no default. -/
opaque Config.agc : AgcParams
/-- FADE_THRESH, FADE_LEN: R8 gives no default. -/
opaque Config.fade : FadeParams
/-- Which of the two forms of R151 the instance computes: the spec allows both (U7). -/
opaque Config.spectrum : SpectrumForm
/-- The numerics records other than the default: any (R8, D8; log 3). -/
opaque Config.numOps : Nat → NumOps
/-- `cos` of the default Num, an uninterpreted function of its operand (D8, U7). -/
opaque Config.cos32 : Word → Word
/-- `sin` of the default Num, an uninterpreted function of its operand (D8, U7). -/
opaque Config.sin32 : Word → Word
/-- `atan2` of the default Num, an uninterpreted function of its operands (D8, U7). -/
opaque Config.atan232 : Word → Word → Word

end Sys2Proof
end

