-- ==== Sys2Proof/Machine/Num.lean ====
section
/-! DEFINITION. The numerics of BHF (spec/00_scope.md R12; spec/48_arithmetic_and_classes.md R303
to R305; decisions D7, D8): IEEE 754 binary32 words, round to nearest, ties to even, one rounding
per primitive. `none` is "not a finite value": such a result is outside the contract (R305(a), U1)
and the command that meets it is refused. A finite word stands for an integer number of units of
2^-149, so sums, products, comparisons and rounding are computed exactly on integers and rounded
once. -/

namespace Sys2Proof

/-- A finite sample word: exponent field not 0xFF (R65). -/
def F32.isFinite (w : Word) : Bool := w.extractLsb' 23 8 != 0xFF#8

/-- The sign bit (R65). -/
def F32.sign (w : Word) : Bool := w.msb

/-- `|f32(w)|` in units of 2^-149 (R65: bias 127, 23 fraction bits; subnormals have no hidden bit). -/
def F32.mag (w : Word) : Nat :=
  let e := (w.extractLsb' 23 8).toNat
  let f := (w.extractLsb' 0 23).toNat
  if e = 0 then f else (2 ^ 23 + f) * 2 ^ (e - 1)

/-- `f32(w)` in units of 2^-149. `+0.0` and `-0.0` both give 0 (R12). -/
def F32.toInt (w : Word) : Int := if F32.sign w then -(F32.mag w : Int) else (F32.mag w : Int)

/-- `a < b` on the stored values, exactly (R12). -/
def F32.lt (a b : Word) : Bool := decide (F32.toInt a < F32.toInt b)

/-- `a <= b` on the stored values, exactly (R12). -/
def F32.le (a b : Word) : Bool := decide (F32.toInt a ≤ F32.toInt b)

/-- `a = b` on the stored values: the two zeros are equal (R12). -/
def F32.eq (a b : Word) : Bool := decide (F32.toInt a = F32.toInt b)

/-- `max`, an exact selection of one operand (R305(f)); of equal operands the first (log 17). -/
def F32.max (a b : Word) : Word := if F32.lt a b then b else a

/-- `min`, an exact selection of one operand (R305(f)); of equal operands the first (log 17). -/
def F32.min (a b : Word) : Word := if F32.lt b a then b else a

def F32.posZero : Word := 0x00000000#32
def F32.negZero : Word := 0x80000000#32
def F32.one : Word := 0x3F800000#32
def F32.negOne : Word := 0xBF800000#32

/-- `num / den` to the nearest integer, ties to even. -/
def F32.nearestEven (num den : Nat) : Nat :=
  let q := num / den
  let r := num % den
  if 2 * r < den then q else if den < 2 * r then q + 1 else q + q % 2

/-- The 31 low bits of the binary32 word nearest `num / den` units of 2^-149 (`den > 0`), ties to
even; `none` when the rounded value is beyond the largest finite one (R304, R305). -/
def F32.roundMag (num den : Nat) : Option Nat :=
  let k := Nat.log2 (num / den) - 23
  let bits := k * 2 ^ 23 + F32.nearestEven num (den * 2 ^ k)
  if bits < 0x7F800000 then some bits else none

/-- The word with the given sign and 31 low bits. -/
def F32.pack (neg : Bool) (bits : Nat) : Word :=
  (if neg then F32.negZero else F32.posZero) ||| BitVec.ofNat 32 bits

/-- One rounding: the signed value `num / den` units of 2^-149 as a stored word. -/
def F32.round (neg : Bool) (num den : Nat) : Option Word :=
  (F32.roundMag num den).map (F32.pack neg)

/-- Sign change: it flips the sign bit and rounds nothing (log 17). -/
def F32.neg (a : Word) : Word := a ^^^ F32.negZero

/-- `a + b` (R304). An exact zero sum is +0.0 unless both operands carry the minus sign. -/
def F32.add (a b : Word) : Option Word :=
  if F32.isFinite a && F32.isFinite b then
    let z := F32.toInt a + F32.toInt b
    if z = 0 then some (if F32.sign a && F32.sign b then F32.negZero else F32.posZero)
    else F32.round (decide (z < 0)) z.natAbs 1
  else none

/-- `a - b` (R304). -/
def F32.sub (a b : Word) : Option Word := F32.add a (F32.neg b)

/-- `a * b` (R304). -/
def F32.mul (a b : Word) : Option Word :=
  if F32.isFinite a && F32.isFinite b then
    F32.round (F32.sign a != F32.sign b) (F32.mag a * F32.mag b) (2 ^ 149)
  else none

/-- `a / b` (R304). A zero divisor has no finite quotient; no rule divides by zero (R305(d)). -/
def F32.div (a b : Word) : Option Word :=
  if F32.isFinite a && F32.isFinite b && F32.mag b != 0 then
    F32.round (F32.sign a != F32.sign b) (F32.mag a * 2 ^ 149) (F32.mag b)
  else none

/-- Integer square root, one bit of the root per unit of fuel, from the top down: the largest
`r + j` with `j < 2^fuel` whose square is at most `n`. -/
def F32.isqrtFrom (n : Nat) : Nat → Nat → Nat
  | 0, r => r
  | fuel + 1, r =>
    if (r + 2 ^ fuel) * (r + 2 ^ fuel) ≤ n then F32.isqrtFrom n fuel (r + 2 ^ fuel)
    else F32.isqrtFrom n fuel r

/-- The integer square root of `n`. -/
def F32.isqrt (n : Nat) : Nat := F32.isqrtFrom n (Nat.log2 n / 2 + 1) 0

/-- `sqrt`, correctly rounded (R304). The root of a positive value is far above the last place, so
every midpoint is an integer number of units and half a unit stands for "not a perfect square". -/
def F32.sqrt (a : Word) : Option Word :=
  if F32.isFinite a then
    if F32.mag a = 0 then some a
    else if F32.sign a then none
    else
      let n := F32.mag a * 2 ^ 149
      let r := F32.isqrt n
      F32.round false (2 * r + if r * r = n then 0 else 1) 2
  else none

/-- `Num.fromNat`: the nearest word, exact up to 2^24 (R302). -/
def F32.fromNat (n : Nat) : Option Word := F32.round false (n * 2 ^ 149) 1

/-- A value that the numerics computes: a word that is not finite is outside the contract (R12,
R305(a), U1). -/
def F32.checked (w : Word) : Option Word := if F32.isFinite w then some w else none

/-- The field operations of a numerics record, over any carrier (D8). -/
structure Arith (α : Type) where
  zero : α
  neg : α → α
  add : α → α → Option α
  sub : α → α → Option α
  mul : α → α → Option α
  div : α → α → Option α

/-- The numerics record of D8 over stored binary32 words. -/
structure Num extends Arith Word where
  sqrt : Word → Option Word
  cos : Word → Option Word
  sin : Word → Option Word
  atan2 : Word → Word → Option Word
  fromNat : Nat → Option Word

/-- The default numerics of D8: binary32, round to nearest even; `cos`, `sin`, `atan2`
uninterpreted. -/
def Num.binary32 : Num where
  zero := F32.posZero
  neg := F32.neg
  add := F32.add
  sub := F32.sub
  mul := F32.mul
  div := F32.div
  sqrt := F32.sqrt
  cos x := F32.checked (Config.cos32 x)
  sin x := F32.checked (Config.sin32 x)
  atan2 y x := F32.checked (Config.atan232 y x)
  fromNat := F32.fromNat

/-- A numerics record given by its functions (D8). D8 lists no zero and no sign change: a sum starts
from +0.0 (R12), and a sign change flips the sign bit in every record (log 17). -/
def Num.ofOps (o : NumOps) : Num where
  zero := F32.posZero
  neg := F32.neg
  add a b := F32.checked (o.add a b)
  sub a b := F32.checked (o.sub a b)
  mul a b := F32.checked (o.mul a b)
  div a b := F32.checked (o.div a b)
  sqrt a := F32.checked (o.sqrt a)
  cos x := F32.checked (o.cos x)
  sin x := F32.checked (o.sin x)
  atan2 y x := F32.checked (o.atan2 y x)
  fromNat n := F32.checked (o.fromNat n)

/-- The numerics that an instance computes with (R8). -/
def Cfg.num (c : Cfg) : Num :=
  match c.numerics with
  | .binary32 => Num.binary32
  | .other k => Num.ofOps (Config.numOps k)

/-- Exact arithmetic in a field: the numerics the rules are written over (R12, D8). -/
def Arith.exact (K : Type) [Field K] : Arith K where
  zero := 0
  neg x := -x
  add x y := some (x + y)
  sub x y := some (x - y)
  mul x y := some (x * y)
  div x y := some (x / y)

end Sys2Proof
end

