-- ==== Sys2Proof/Machine/Params.lean ====
section
/-! DEFINITION. Which configurations are legal (the constraints of spec/00_scope.md R8, with U4 of
spec/93_implementation_defined.md), the test fixtures T and T2 (R10), and the configuration that
State.reset carries: the defaults of R8 where it gives one, an opaque constant of Config where it
gives none. -/

namespace Sys2Proof

/-- R8: the coefficients are finite. -/
def Coeffs.valid (c : Coeffs Word) : Bool :=
  F32.isFinite c.b0 && F32.isFinite c.b1 && F32.isFinite c.b2 && F32.isFinite c.a1
    && F32.isFinite c.a2

/-- R8: both thresholds are sample values `>= 0`. -/
def VadParams.valid (v : VadParams) : Bool :=
  F32.isFinite v.eth && F32.le F32.posZero v.eth && F32.isFinite v.zth
    && F32.le F32.posZero v.zth

/-- R8, D32: `AGC_TARGET > 0`, `AGC_EPS > 0`, `0 < AGC_MIN <= 1 <= AGC_MAX`, `0 < AGC_MU <= 1`. -/
def AgcParams.valid (a : AgcParams) : Bool :=
  F32.isFinite a.target && F32.lt F32.posZero a.target
    && F32.isFinite a.eps && F32.lt F32.posZero a.eps
    && F32.isFinite a.min && F32.lt F32.posZero a.min && F32.le a.min F32.one
    && F32.isFinite a.max && F32.le F32.one a.max
    && F32.isFinite a.mu && F32.lt F32.posZero a.mu && F32.le a.mu F32.one

/-- R8, U4: `FADE_LEN >= 1` and `FADE_LEN * FFT_N <= 2^24`. -/
def FadeParams.valid (n : Nat) (f : FadeParams) : Bool :=
  decide (1 ≤ f.len) && decide (f.len * n ≤ 2 ^ 24)

/-- R8: FFT_N is a power of two, `4 <= FFT_N <= 65536`. -/
def Cfg.validSize (n : Nat) : Bool :=
  decide (2 ^ Nat.log2 n = n) && decide (4 ≤ n) && decide (n ≤ 65536)

/-- All constraints of R8. -/
def Cfg.valid (c : Cfg) : Bool :=
  decide (0 < c.fs) && Cfg.validSize c.fftN && c.biquad.valid && c.vad.valid
    && (F32.isFinite c.alpha && F32.lt F32.posZero c.alpha && F32.le c.alpha F32.one)
    && decide (1 ≤ c.updMax) && decide (c.updMax < 2 ^ 32)
    && (F32.isFinite c.aOs && F32.lt F32.one c.aOs)
    && (F32.isFinite c.beta && F32.le F32.posZero c.beta && F32.le c.beta F32.one)
    && c.agc.valid && c.fade.valid c.fftN && c.qdepth.all (fun d => decide (1 ≤ d))

/-- Configuration T of R10. Its vectors are exact in the scaling form (spec/95_test_vectors.md P4). -/
def Cfg.configT : Cfg where
  numerics := .binary32
  fs := 48000
  fftN := 4
  biquad := ⟨0x3F800000#32, 0xC0000000#32, 0x3F800000#32, 0xBF000000#32, 0x3E800000#32⟩
  vad := ⟨0x3E000000#32, 0x3E800000#32⟩
  silMin := 1
  alpha := 0x3F000000#32
  updMax := 2
  aOs := 0x40000000#32
  beta := 0x3E000000#32
  agc := ⟨0x3E800000#32, 0x3A800000#32, 0x3E800000#32, 0x40800000#32, 0x3F000000#32⟩
  fade := ⟨2, 2⟩
  qdepth := none
  spectrum := .scaling

/-- Configuration T2 of R10: T with `B0=1, B1=-1, B2=0, A1=0, A2=0` and `FADE_THRESH=3`. -/
def Cfg.configT2 : Cfg :=
  { Cfg.configT with
    biquad := ⟨0x3F800000#32, 0xBF800000#32, 0x00000000#32, 0x00000000#32, 0x00000000#32⟩
    fade := ⟨3, 2⟩ }

/-- The configuration of State.reset (log 1). Num, FS, FFT_N, ALPHA, UPD_MAX, A_OS, BETA, QDEPTH are the
defaults of R8 (ALPHA and BETA are 0.1, as a word 0x3DCCCCCD). The others have no default: each
group is the opaque constant of Config where that meets the constraints of R8, and a legal stand-in
where it does not, so that the group ranges over exactly the legal values. -/
def Cfg.build : Cfg where
  numerics := .binary32
  fs := 48000
  fftN := 512
  biquad := if Config.biquad.valid then Config.biquad else Cfg.configT.biquad
  vad := if Config.vad.valid then Config.vad else Cfg.configT.vad
  silMin := Config.silMin
  alpha := 0x3DCCCCCD#32
  updMax := 100
  aOs := 0x40000000#32
  beta := 0x3DCCCCCD#32
  agc := if Config.agc.valid then Config.agc else Cfg.configT.agc
  fade := if Config.fade.valid 512 then Config.fade else Cfg.configT.fade
  qdepth := none
  spectrum := Config.spectrum

end Sys2Proof
end

