-- ==== Sys2Proof/Machine/State.lean ====
section
/-! DEFINITION. The state of BHF (spec/10_state.md R20 to R51), as plain data, and the state after
the hardware reset event (R51). The sub-blocks' states are records of their own, as the spec groups
them (R280: filter, VAD, tracker and overlap, AGC). -/

namespace Sys2Proof.Machine

/-- The FilterState: the biquad's four scalars (R30), over any carrier of numbers. -/
structure FilterState (α : Type) where
  x1 : α
  x2 : α
  y1 : α
  y2 : α
deriving DecidableEq, Repr

/-- The spectral engine's state: UPD_CNT (R28), PROF (R42), OVL (R41). -/
structure SpectralState where
  updCnt : BitVec 32
  prof : Memory
  ovl : Memory
deriving DecidableEq, Repr

/-- The state of the DSP chain: the filter (R30), SIL_RUN (R27), the spectral engine, GAIN (R29). -/
structure ChainState where
  filter : FilterState Word
  silRun : BitVec 32
  spectral : SpectralState
  gain : Word
deriving DecidableEq, Repr

/-- What the host puts before BHF, in the order of time: a word of the command stream (R80) or the
hardware reset event (R270(a)). -/
inductive HostEvent where
  | word (w : Word)
  | reset
deriving DecidableEq, Repr

/-- The state of the machine. `cfg`, `input` and `output` are the model's own fields, not the spec's
state (R20): the build parameters, which no step changes (log 2), the host events not yet consumed
and the response words produced (log 8). -/
structure State where
  /-- The build parameters of this instance (R8). -/
  cfg : Cfg
  /-- CTRL, index 0x00 (R23): bit 0 SUB_EN, bit 1 CHAIN_EN, 15:2 always 0. -/
  ctrl : BitVec 16
  /-- The stored part of STATUS, index 0x01 (R24): the sticky bits 3:0; SPEC_STATE is not storage. -/
  status : BitVec 16
  /-- FRAME_SIZE, index 0x02 (R25). -/
  frameSize : BitVec 24
  /-- CURSOR, index 0x03 (R26). -/
  cursor : BitVec 24
  /-- ACC (R40). -/
  acc : Memory
  /-- SIL_RUN, UPD_CNT, GAIN, X1, X2, Y1, Y2 (indices 0x04 to 0x0A), PROF and OVL. -/
  chain : ChainState
  /-- The command stream not yet consumed. -/
  input : List HostEvent
  /-- The response stream so far, oldest word first. -/
  output : List Word
deriving DecidableEq, Repr

/-- BHF raises no fault: no command sequence stops it (spec/60_exceptions.md R245). -/
inductive Fault where
  /-- An access to an element of ACC that does not exist (spec/20_memory.md R60 gives the range).
  Raised by `State.writeAcc` and `State.readAcc`, that is by PUSH, only in states that break the
  invariant of Safety.lean and that no run reaches (log 13). Safe: the model stops where the spec
  says that no access is made. -/
  | noSuchElement (index : Nat)
deriving DecidableEq, Repr

/-- Where the model has no step. -/
inductive Refusal where
  /-- The instruction has no meaning in the model. Raised by no arm: every command has its meaning. -/
  | notModelled (mnemonic : String)
  /-- The command stream ends (or pauses) before the command is whole: BHF waits, "the model has no
  step for it" (R83, U2, R290). Raised by the step. Safe: nothing is claimed. -/
  | incompleteCommand
  /-- A payload sample is a NaN or an infinity: outside the contract, "a model refuses" (R305(a),
  U1, D9). Raised by the commands that use their payload. Safe: nothing is claimed. -/
  | nonFiniteSample
  /-- A computed value is not finite: outside the contract, "a model refuses" (R305(a), U1, D9).
  Raised by the commands that compute. Safe: nothing is claimed. -/
  | nonFiniteResult
deriving DecidableEq, Repr

/-- The filter state of zero history (R51, D17). -/
def FilterState.reset : FilterState Word := ⟨0x00000000#32, 0x00000000#32, 0x00000000#32, 0x00000000#32⟩

/-- The spectral engine without a profile (R51). -/
def SpectralState.reset : SpectralState := ⟨0#32, [], []⟩

/-- The stream state of the chain after RESET and after a valid INIT (R50, R51): `GAIN = 1.0`. -/
def ChainState.reset : ChainState :=
  ⟨FilterState.reset, 0#32, SpectralState.reset, 0x3F800000#32⟩

/-- The state after the hardware reset event of an instance with configuration `c` (R51):
`FRAME_SIZE = min(480, FFT_N)`, `SUB_EN = 0`, `CHAIN_EN = 1`. -/
def State.resetFor (c : Cfg) : State where
  cfg := c
  ctrl := 0x0002#16
  status := 0x0000#16
  frameSize := BitVec.ofNat 24 (min 480 c.fftN)
  cursor := 0#24
  acc := []
  chain := ChainState.reset
  input := []
  output := []

/-- The machine right after reset (R51), with the configuration of log 1 and both streams empty. -/
def State.reset : State := State.resetFor Cfg.build

end Sys2Proof.Machine
end

