-- ==== Sys2Proof/Machine/Flags.lean ====
section
/-! DEFINITION. What plays the role of flags (spec/10_state.md R32): the sticky error bits and the
derived SPEC_STATE of STATUS (R24), and the CTRL bits (R23). -/

namespace Sys2Proof.Machine

/-- The four errors that BHF reports (spec/60_exceptions.md R240). -/
inductive ErrCode where
  | op
  | cfg
  | size
  | reg
deriving DecidableEq, Repr

/-- The status code of the DONE word (spec/30_encoding.md R87). -/
def ErrCode.code : ErrCode → BitVec 4
  | .op => 1#4
  | .cfg => 2#4
  | .size => 3#4
  | .reg => 4#4

/-- The sticky bit in STATUS: bit `code - 1` (R24, R240). -/
def ErrCode.sticky : ErrCode → BitVec 16
  | .op => 0x0001#16
  | .cfg => 0x0002#16
  | .size => 0x0004#16
  | .reg => 0x0008#16

/-- `CTRL.SUB_EN`, bit 0 (R23). -/
def State.subEn (s : State) : Bool := s.ctrl.getLsbD 0

/-- `CTRL.CHAIN_EN`, bit 1 (R23). -/
def State.chainEn (s : State) : Bool := s.ctrl.getLsbD 1

/-- What a write of CTRL keeps of the written value: bits 1:0 (R23, R93, R194). -/
def ctrlWritten (imm16 : BitVec 16) : BitVec 16 := imm16 &&& 0x0003#16

/-- The sticky bits after a write-1-to-clear; bits 15:4 of the value are ignored (R24, R194). -/
def statusCleared (status imm16 : BitVec 16) : BitVec 16 := status &&& ~~~(imm16 &&& 0x000F#16)

/-- The states of the spectral engine (spec/43_spectral.md R148). -/
inductive EngineState where
  | noProfile
  | estimating
  | active
deriving DecidableEq, Repr

/-- R148: the state is a function of UPD_CNT. A count above UPD_MAX, which no run reaches (R28),
reads as `active` (log 16). -/
def engineState (updMax : Nat) (updCnt : BitVec 32) : EngineState :=
  if updCnt.toNat = 0 then .noProfile
  else if updCnt.toNat < updMax then .estimating
  else .active

/-- The code of the state in STATUS[9:8] (R24). -/
def EngineState.code : EngineState → BitVec 16
  | .noProfile => 0#16
  | .estimating => 1#16
  | .active => 2#16

/-- The register STATUS as it reads: the sticky bits and SPEC_STATE computed now (R24, R196). -/
def State.statusReg (s : State) : BitVec 16 :=
  s.status ||| ((engineState s.cfg.updMax s.chain.spectral.updCnt).code <<< 8)

end Sys2Proof.Machine
end

