-- ==== Sys2Proof/Machine/Rom.lean ====
section
/-! DEFINITION. The read-only tables WIN and TW (spec/10_state.md R43; spec/43_spectral.md R141,
R142): each entry is the binary32 word nearest the exact real value of its formula. An angle is a
fraction of a turn, folded into the first octant by exact integer arithmetic (so that the exact
values 0, 1 and -1 come out exactly), and the cosine or sine there is summed from its series in
fixed point with 160 fraction bits (log 18). -/

namespace Sys2Proof.Machine

/-- One in the fixed point of the tables. -/
def Rom.unit : Nat := 2 ^ 160

/-- `floor(pi * 2^160)`. -/
def Rom.pi : Nat := 4591442807048218921384805199743311128454155024418

/-- `cos x` for `0 <= x <= 1`, in units of `Rom.unit`: 25 terms of the series, innermost first. -/
def Rom.cosSeries (x : Nat) : Nat :=
  (List.range 25).foldr
    (fun i c => Rom.unit - x * x * c / (Rom.unit * Rom.unit * ((2 * i + 1) * (2 * i + 2)))) Rom.unit

/-- `sin x` for `0 <= x <= 1`, in units of `Rom.unit`: 25 terms of the series, innermost first. -/
def Rom.sinSeries (x : Nat) : Nat :=
  x * (List.range 25).foldr
    (fun i c => Rom.unit - x * x * c / (Rom.unit * Rom.unit * ((2 * i + 2) * (2 * i + 3)))) Rom.unit
    / Rom.unit

/-- The cosine of `a / (8*b)` of a turn, `a < 8*b`, as (is negative, magnitude). -/
def Rom.cosTurn (a b : Nat) : Bool × Nat :=
  let a1 := min a (8 * b - a)
  let neg := decide (2 * b < a1)
  let a2 := if neg then 4 * b - a1 else a1
  (neg, if a2 ≤ b then Rom.cosSeries (Rom.pi * a2 / (4 * b))
    else Rom.sinSeries (Rom.pi * (2 * b - a2) / (4 * b)))

/-- The word nearest `num / den` (a value in units of 1), with the given sign. The tables hold no
value near the largest finite one, so there is always such a word. -/
def Rom.nearest (neg : Bool) (num den : Nat) : Word :=
  (F32.round neg (num * 2 ^ 149) den).getD F32.posZero

/-- `WIN[i] = 0.5 * (1 - cos(2*pi*i/(n-1)))` for a transform of size `n` (R141). -/
def Rom.win (n i : Nat) : Word :=
  let c := Rom.cosTurn (8 * i) (n - 1)
  Rom.nearest false (if c.1 then Rom.unit + c.2 else Rom.unit - c.2) (2 * Rom.unit)

/-- The real part `cos(2*pi*t/n)` of `TW[t]` (R142). -/
def Rom.twRe (n t : Nat) : Word :=
  let c := Rom.cosTurn (8 * t) n
  Rom.nearest c.1 c.2 Rom.unit

/-- The imaginary part `-sin(2*pi*t/n)` of `TW[t]` (R142), by `sin x = cos(x - pi/2)`; +0.0 at `t = 0`. -/
def Rom.twIm (n t : Nat) : Word :=
  let c := Rom.cosTurn ((8 * t + 6 * n) % (8 * n)) n
  Rom.nearest (!c.1 && c.2 != 0) c.2 Rom.unit

/-- `TW[t] = (cos(2*pi*t/n), -sin(2*pi*t/n))` (R142). -/
def Rom.tw (n t : Nat) : Word × Word := (Rom.twRe n t, Rom.twIm n t)

end Sys2Proof.Machine
end

