-- ==== Sys2Proof/Machine/Ops.lean ====
section
/-! DEFINITION. The named operations over arrays, registers and the response stream, and the ONE
error mechanism of BHF (spec/60_exceptions.md R241). BHF has no trap: nothing is saved, no mode
changes, control goes nowhere, and "return" from an error is the next header (R241, R245). -/

namespace Sys2Proof.Machine

/-- Why a meaning stops before a next state. -/
inductive Stop where
  | fault (f : Fault)
  | refused (r : Refusal)
deriving DecidableEq, Repr

/-- A computation inside a meaning, as the outcome of the step. -/
def finish : Except Stop State → Host.Outcome State Fault Refusal
  | .ok s => .next s
  | .error (.fault f) => .fault f
  | .error (.refused r) => .refused r

/-- A numeric result: one that is not finite is outside the contract (R305(a), U1). -/
def numeric {α : Type} : Option α → Except Stop α
  | some a => .ok a
  | none => .error (.refused .nonFiniteResult)

/-! ### Response stream (spec/30_encoding.md R86) -/

/-- Format DH: `0xD`, four zero bits, `len`. -/
def dataHeader (len : Nat) : Word := (0xD#4 ++ 0x0#4 ++ BitVec.ofNat 24 len : BitVec (4 + 4 + 24))

/-- Format DN: `0xE`, `st`, the echo of `op`, sixteen zero bits. -/
def doneWord (st : BitVec 4) (op : BitVec 8) : Word := (0xE#4 ++ st ++ op ++ 0x0000#16 : BitVec (4 + 4 + 8 + 16))

/-- One DATA packet. -/
def dataPacket (ws : List Word) : List Word := dataHeader ws.length :: ws

/-- Appends words to the response stream. -/
def State.emit (s : State) (ws : List Word) : State := { s with output := s.output ++ ws }

/-- `emit DATA(ws)` (R13). -/
def State.emitData (s : State) (ws : List Word) : State := s.emit (dataPacket ws)

/-- `done(OK)` (R13, R86). -/
def State.done (s : State) (o : Opcode) : State := s.emit [doneWord 0#4 o.bits]

/-- `raise E_x` (R241): the payload has been consumed with the command, no state changes but the
sticky bit, no DATA packet, the DONE word carries the code and the echo of `op`. -/
def State.raise (s : State) (e : ErrCode) (op : BitVec 8) : State :=
  { s with status := s.status ||| e.sticky }.emit [doneWord e.code op]

/-! ### ACC element by element (spec/20_memory.md R60)

ACC has the elements `0 .. FFT_N-1`. The engine reads OVL and PROF by `Memory.read` and writes them
whole, with the sizes that R60 gives (`synthesise`, `newProfile`). -/

/-- `MemWrite(ACC, i, v)` (R13, R60). ACC is the one array written element by element. -/
def State.writeAcc (s : State) (i : Nat) (v : Word) : Except Stop State :=
  if i < s.cfg.fftN then .ok { s with acc := s.acc.write i v }
  else .error (.fault (.noSuchElement i))

/-- `ACC[0 .. n-1]`, oldest sample first (R40, R60). -/
def State.readAcc (s : State) (n : Nat) : Except Stop (List Word) :=
  if n ≤ s.cfg.fftN then .ok (s.acc.toList n)
  else .error (.fault (.noSuchElement (n - 1)))

/-! ### Registers (spec/10_state.md R22) -/

/-- The register with index `reg` as `RD` returns it; `none` for an index that is not in the table
(R22, R196). -/
def State.readReg (s : State) (reg : BitVec 8) : Option Word :=
  if reg = 0x00#8 then some (s.ctrl.zeroExtend 32)
  else if reg = 0x01#8 then some (s.statusReg.zeroExtend 32)
  else if reg = 0x02#8 then some (s.frameSize.zeroExtend 32)
  else if reg = 0x03#8 then some (s.cursor.zeroExtend 32)
  else if reg = 0x04#8 then some s.chain.silRun
  else if reg = 0x05#8 then some s.chain.spectral.updCnt
  else if reg = 0x06#8 then some s.chain.gain
  else if reg = 0x07#8 then some s.chain.filter.x1
  else if reg = 0x08#8 then some s.chain.filter.x2
  else if reg = 0x09#8 then some s.chain.filter.y1
  else if reg = 0x0A#8 then some s.chain.filter.y2
  else if reg = 0x0B#8 then some (BitVec.ofNat 32 s.cfg.fftN)
  else none

/-- `WR reg, imm16`; `none` for a register that is read-only or not in the table (R22, R194). -/
def State.writeReg (s : State) (reg : BitVec 8) (imm16 : BitVec 16) : Option State :=
  if reg = 0x00#8 then some { s with ctrl := ctrlWritten imm16 }
  else if reg = 0x01#8 then some { s with status := statusCleared s.status imm16 }
  else none

/-- The stream re-initialisation of a valid INIT (R50, R192): FRAME_SIZE is set and all stream state
returns to its reset value; CTRL and STATUS stay. -/
def State.reinit (s : State) (n : BitVec 24) : State :=
  { s with frameSize := n, cursor := 0#24, acc := [], chain := ChainState.reset }

/-- The hardware reset event (R51, R270(a)): every piece of state takes its reset value. The words
already given to the host stay given; the host events after the event stay to come (log 10). -/
def State.hardReset (s : State) (rest : List HostEvent) : State :=
  { State.resetFor s.cfg with input := rest, output := s.output }

end Sys2Proof.Machine
end

