-- ==== Sys2Proof/Machine/Operands.lean ====
section
/-! DEFINITION. The operand forms of the commands (spec/30_encoding.md R84, R85, R94): a payload of
samples, a payload of complex bins, and the length that a frame or transform command wants. -/

namespace Sys2Proof.Machine

/-- Every sample of a payload is a finite value (R12, R65, U1). -/
def allFinite (xs : List Word) : Bool := xs.all F32.isFinite

/-- The payload of a command that uses it; a sample that is not finite is refused (R305(a), U1). -/
def requireFinite (xs : List Word) : Except Stop Unit :=
  if allFinite xs then .ok () else .error (.refused .nonFiniteSample)

/-- A command whose `arg` must be `want` (FRAME_SIZE or FFT_N, R94): otherwise E_SIZE, decided on
the header alone, so that the payload is not looked at (R241, D16; log 7). -/
def sized (n want : Nat) (o : Opcode) (s : State) (body : Except Stop State) :
    Host.Outcome State Fault Refusal :=
  if n = want then finish body else .next (s.raise .size o.bits)

end Sys2Proof.Machine
end

