-- ==== Sys2Proof/Machine/Control.lean ====
section
/-! DEFINITION. The four control commands NOP, INIT, WR, RD (spec/46_control.md R191 to R196) and the
execution of a reserved opcode (spec/30_encoding.md R92). -/

namespace Sys2Proof.Machine

/-- `NOP` (R191): nothing but the DONE word; `arg` is ignored (R93). -/
def execNop (_arg : BitVec 24) (s : State) : Host.Outcome State Fault Refusal :=
  .next (s.done .nop)

/-- `INIT n` (R192): a valid size re-initialises the stream, an invalid one changes nothing. -/
def execInit (arg : BitVec 24) (s : State) : Host.Outcome State Fault Refusal :=
  if arg.toNat = 0 ∨ s.cfg.fftN < arg.toNat then .next (s.raise .cfg Opcode.init.bits)
  else .next ((s.reinit arg).done .init)

/-- `WR reg, imm16` (R194). -/
def execWr (reg : BitVec 8) (imm16 : BitVec 16) (s : State) : Host.Outcome State Fault Refusal :=
  match s.writeReg reg imm16 with
  | some s' => .next (s'.done .wr)
  | none => .next (s.raise .reg Opcode.wr.bits)

/-- `RD reg` (R196); `imm16` is ignored (R93). -/
def execRd (reg : BitVec 8) (_imm16 : BitVec 16) (s : State) : Host.Outcome State Fault Refusal :=
  match s.readReg reg with
  | some v => .next ((s.emitData [v]).done .rd)
  | none => .next (s.raise .reg Opcode.rd.bits)

/-- A header with a reserved `op` (R92): E_OP; its payload has been consumed with it. -/
def execReserved (op : BitVec 8) (s : State) : Host.Outcome State Fault Refusal :=
  .next (s.raise .op op)

end Sys2Proof.Machine
end

