-- ==== Sys2Proof/Machine/Vad.lean ====
section
/-! DEFINITION. The voice activity detector and the command VAD (spec/42_vad.md R130 to R133). -/

namespace Sys2Proof.Machine

/-- `sum f[i]*f[i]`, from `i = 0` upward starting from +0.0 (R12, R131). -/
def sumSquares (num : Num) (f : List Word) : Option Word :=
  f.foldlM (fun acc x => do num.add acc (← num.mul x x)) num.zero

/-- `rms(f)` (R131): sum of squares, one division by `n`, one root. -/
def rms (num : Num) (f : List Word) : Option Word := do
  let sum ← sumSquares num f
  let n ← num.fromNat f.length
  let mean ← num.div sum n
  num.sqrt mean

/-- `neg(v)` (R131): false for both zeros. -/
def negative (v : Word) : Bool := F32.lt v F32.posZero

/-- `zc(f)` (R131): the number of sign changes between neighbours. -/
def crossings : List Word → Nat
  | a :: b :: rest => (if negative a != negative b then 1 else 0) + crossings (b :: rest)
  | _ => 0

/-- `zcr(f) = zc(f) / n` (R131), one division under Num (R302; log 15). -/
def crossingRate (num : Num) (f : List Word) : Option Word := do
  let zc ← num.fromNat (crossings f)
  let n ← num.fromNat f.length
  num.div zc n

/-- `min(v + 1, 2^32 - 1)`: the silence run counter saturates (R27, R132). -/
def saturatingSucc (v : BitVec 32) : BitVec 32 := if v = 0xFFFFFFFF#32 then v else v + 1#32

/-- `vad_frame(f)` (R132): the decision, and SIL_RUN after it. -/
def vadFrame (num : Num) (p : VadParams) (silRun : BitVec 32) (f : List Word) :
    Option (Bool × BitVec 32) := do
  let r ← rms num f
  let z ← crossingRate num f
  let speech := F32.lt p.eth r && F32.lt p.zth z
  some (speech, if speech then 0#32 else saturatingSucc silRun)

/-- The state with another SIL_RUN. -/
def State.setSilRun (s : State) (v : BitVec 32) : State :=
  { s with chain := { s.chain with silRun := v } }

/-- `VAD n: s` (R133): two unsigned words, the decision and SIL_RUN after the update. -/
def execVad (xs : List Word) (s : State) : Host.Outcome State Fault Refusal :=
  sized xs.length s.frameSize.toNat .vad s do
    requireFinite xs
    let (speech, run) ← numeric (vadFrame s.cfg.num s.cfg.vad s.chain.silRun xs)
    return ((s.setSilRun run).emitData [if speech then 1#32 else 0#32, run]).done .vad

end Sys2Proof.Machine
end

