-- ==== Sys2Proof/Machine/Agc.lean ====
section
/-! DEFINITION. The automatic gain control and the command AGC (spec/44_agc.md R170 to R172). -/

namespace Sys2Proof.Machine

/-- `cg`: the target gain clamped to `[AGC_MIN, AGC_MAX]` (R171). -/
def clampedGain (num : Num) (p : AgcParams) (f : List Word) : Option Word := do
  let r ← rms num f
  let tg ← num.div p.target (F32.max r p.eps)
  some (F32.min (F32.max tg p.min) p.max)

/-- The hard clip to `[-1, 1]` (R171). -/
def clip (v : Word) : Word := F32.min (F32.max v F32.negOne) F32.one

/-- `agc_frame(f)` (R171): the new GAIN scales this frame. The output frame and GAIN after it. -/
def agcFrame (num : Num) (p : AgcParams) (gain : Word) (f : List Word) :
    Option (List Word × Word) := do
  let cg ← clampedGain num p f
  let gain' ← num.add gain (← num.mul p.mu (← num.sub cg gain))
  let o ← f.mapM (fun x => do some (clip (← num.mul gain' x)))
  some (o, gain')

/-- The state with another GAIN. -/
def State.setGain (s : State) (g : Word) : State :=
  { s with chain := { s.chain with gain := g } }

/-- `AGC n: s` (R172). -/
def execAgc (xs : List Word) (s : State) : Host.Outcome State Fault Refusal :=
  sized xs.length s.frameSize.toNat .agc s do
    requireFinite xs
    let (o, g) ← numeric (agcFrame s.cfg.num s.cfg.agc s.chain.gain xs)
    return ((s.setGain g).emitData o).done .agc

end Sys2Proof.Machine
end

