-- ==== Sys2Proof/Machine/Biquad.lean ====
section
/-! DEFINITION. The biquad high-pass filter and the command HPF (spec/41_biquad.md R120 to R122). -/

namespace Sys2Proof.Machine

/-- `hpf_step(x)` (R121): the five products, then their combination left to right as written; the
output and the filter state after it. -/
def hpfStep {α : Type} (ar : Arith α) (c : Coeffs α) (h : FilterState α) (x : α) :
    Option (α × FilterState α) := do
  let p0 ← ar.mul c.b0 x
  let p1 ← ar.mul c.b1 h.x1
  let p2 ← ar.mul c.b2 h.x2
  let q1 ← ar.mul c.a1 h.y1
  let q2 ← ar.mul c.a2 h.y2
  let t1 ← ar.add p0 p1
  let t2 ← ar.add t1 p2
  let t3 ← ar.sub t2 q1
  let y ← ar.sub t3 q2
  some (y, { x1 := x, x2 := h.x1, y1 := y, y2 := h.y1 })

/-- `hpf_frame(f)` (R121): `hpf_step` on each sample in order. -/
def hpfFrame {α : Type} (ar : Arith α) (c : Coeffs α) (h : FilterState α) :
    List α → Option (List α × FilterState α)
  | [] => some ([], h)
  | x :: xs => do
    let (y, h1) ← hpfStep ar c h x
    let (ys, h2) ← hpfFrame ar c h1 xs
    some (y :: ys, h2)

/-- The state with another filter state. -/
def State.setFilter (s : State) (h : FilterState Word) : State :=
  { s with chain := { s.chain with filter := h } }

/-- `HPF n: s` (R122): any `n`; for `n = 0` no DATA packet. -/
def execHpf (xs : List Word) (s : State) : Host.Outcome State Fault Refusal :=
  finish do
    requireFinite xs
    let (ys, h) ← numeric (hpfFrame s.cfg.num.toArith s.cfg.biquad s.chain.filter xs)
    let s' := s.setFilter h
    return if ys.isEmpty then s'.done .hpf else (s'.emitData ys).done .hpf

end Sys2Proof.Machine
end

