-- ==== Sys2Proof/Machine/Transform.lean ====
section
/-! DEFINITION. The radix-2 transform and the commands FFTF and FFTI (spec/43_spectral.md R142 to
R146). A complex value is the pair (real part, imaginary part). The schedule is over any carrier of
numbers, so that the machine runs it in binary32 and a statement can be made of it in exact
arithmetic (R143, D8). -/

namespace Sys2Proof.Machine

/-- `bitrev(i, p)`: reverses the low `p` bits of `i` (R144). -/
def bitrev : Nat → Nat → Nat
  | 0, _ => 0
  | p + 1, i => (i % 2) * 2 ^ p + bitrev p (i / 2)

/-- Step 1 of `fft_inplace`: the bit-reversal permutation (R144 swaps each pair once). -/
def bitReverse {α : Type} (zero : α) (p : Nat) (x : List (α × α)) : List (α × α) :=
  (List.range (2 ^ p)).map (fun i => x.getD (bitrev p i) (zero, zero))

/-- One butterfly (R144) on elements `a` and `b` of `x` with the twiddle factor `w`. -/
def butterfly {α : Type} (ar : Arith α) (w : α × α) (a b : Nat) (x : List (α × α)) :
    Option (List (α × α)) := do
  let xa := x.getD a (ar.zero, ar.zero)
  let xb := x.getD b (ar.zero, ar.zero)
  let tr ← ar.sub (← ar.mul w.1 xb.1) (← ar.mul w.2 xb.2)
  let ti ← ar.add (← ar.mul w.1 xb.2) (← ar.mul w.2 xb.1)
  let br ← ar.sub xa.1 tr
  let bi ← ar.sub xa.2 ti
  let ra ← ar.add xa.1 tr
  let ia ← ar.add xa.2 ti
  some ((x.set b (br, bi)).set a (ra, ia))

/-- Butterfly stage `s` of a transform of size `2^p` (R144): `m = 2^s`, `half = m/2`, `step = N/m`;
block `k = q*m`, element `j` of its lower half. -/
def fftStage {α : Type} (ar : Arith α) (tw : Nat → α × α) (p s : Nat) (x : List (α × α)) :
    Option (List (α × α)) :=
  let m := 2 ^ s
  let half := m / 2
  let step := 2 ^ p / m
  (List.range step).foldlM (fun x q =>
    (List.range half).foldlM (fun x j =>
      butterfly ar (tw (j * step)) (q * m + j) (q * m + j + half) x) x) x

/-- `fft_inplace` (R144) of size `N = 2^p`: bit reversal, then stages `1 .. p`. -/
def fftInPlace {α : Type} (ar : Arith α) (tw : Nat → α × α) (p : Nat) (x : List (α × α)) :
    Option (List (α × α)) :=
  (List.range p).foldlM (fun x s => fftStage ar tw p (s + 1) x) (bitReverse ar.zero p x)

/-- `ifft_inplace` (R144): conjugate, transform, divide by `N` and conjugate; `n` is the value of
`N` in the carrier. -/
def ifftInPlace {α : Type} (ar : Arith α) (tw : Nat → α × α) (p : Nat) (n : α)
    (x : List (α × α)) : Option (List (α × α)) := do
  let y ← fftInPlace ar tw p (x.map (fun e => (e.1, ar.neg e.2)))
  y.mapM (fun e => do
    let re ← ar.div e.1 n
    let im ← ar.div e.2 n
    some (re, ar.neg im))

/-- The forward transform of this instance: size FFT_N, the ROM twiddles (R142, R144). -/
def forward (num : Num) (c : Cfg) (x : List (Word × Word)) : Option (List (Word × Word)) :=
  fftInPlace num.toArith (Rom.tw c.fftN) (Nat.log2 c.fftN) x

/-- The inverse transform of this instance (R144); `N` enters by `fromNat` (R302). -/
def inverse (num : Num) (c : Cfg) (x : List (Word × Word)) : Option (List (Word × Word)) := do
  let n ← num.fromNat c.fftN
  ifftInPlace num.toArith (Rom.tw c.fftN) (Nat.log2 c.fftN) n x

/-- A real signal as a complex sequence: the imaginary parts are +0.0 (R145). -/
def ofReal (xs : List Word) : List (Word × Word) := xs.map (fun x => (x, F32.posZero))

/-- `FFTF n: s` (R145): all `N` bins, no window, no state. -/
def execFftf (xs : List Word) (s : State) : Host.Outcome State Fault Refusal :=
  sized xs.length s.cfg.fftN .fftf s do
    requireFinite xs
    let y ← numeric (forward s.cfg.num s.cfg (ofReal xs))
    return (s.emitData (flattenPairs y)).done .fftf

/-- `FFTI n: X` (R146): the real part of the inverse, no state. -/
def execFfti (bins : List (Word × Word)) (s : State) : Host.Outcome State Fault Refusal :=
  sized bins.length s.cfg.fftN .ffti s do
    requireFinite (flattenPairs bins)
    let y ← numeric (inverse s.cfg.num s.cfg bins)
    return (s.emitData (y.map Prod.fst)).done .ffti

end Sys2Proof.Machine
end

