-- ==== Sys2Proof/Machine/Spectral.lean ====
section
/-! DEFINITION. The spectral engine and the command SPEC (spec/43_spectral.md R147 to R153): window,
analysis, noise-profile tracking, subtraction, synthesis with overlap-add. `N = FFT_N`, `H = N/2`. -/

namespace Sys2Proof.Machine

/-- The windowed, zero-padded frame as a complex sequence (R147). -/
def windowed (num : Num) (c : Cfg) (f : List Word) : Option (List (Word × Word)) :=
  (List.range c.fftN).mapM (fun i => do
    some (← num.mul (Rom.win c.fftN i) (f.getD i F32.posZero), F32.posZero))

/-- `sqrt((re*re) + (im*im))`, the magnitude of one bin (R147). -/
def magnitude (num : Num) (e : Word × Word) : Option Word := do
  let a ← num.mul e.1 e.1
  let b ← num.mul e.2 e.2
  num.sqrt (← num.add a b)

/-- `analyse(f)` (R147): the spectrum and `MAG[0 .. H]`. `PH` is a function of the spectrum and is
formed where it is read, in `rebuildBin` (R147: any value where MAG is zero; log 14). -/
def analyse (num : Num) (c : Cfg) (f : List Word) : Option (List (Word × Word) × List Word) := do
  let x ← forward num c (← windowed num c f)
  let mag ← (List.range (c.fftN / 2 + 1)).mapM (fun k => magnitude num (x.getD k (F32.posZero, F32.posZero)))
  some (x, mag)

/-- The gate of R149: the count is below UPD_MAX and the silence run exceeds SIL_MIN. -/
def updates (c : Cfg) (silRun updCnt : BitVec 32) : Bool :=
  decide (updCnt.toNat < c.updMax) && decide (c.silMin < silRun.toNat)

/-- The gate of R150: the engine is Active and SUB_EN is 1. -/
def subtracts (c : Cfg) (subEn : Bool) (updCnt : BitVec 32) : Bool :=
  decide (updCnt.toNat = c.updMax) && subEn

/-- The new profile of an update (R149): the first copies `MAG`, a later one smooths each bin against
its own previous value (conflict C2). `1 - ALPHA` is a ROM constant, the nearest binary32 word (R149, U7)
whatever the numerics (log 18). -/
def newProfile (num : Num) (c : Cfg) (updCnt : BitVec 32) (prof : Memory) (mag : List Word) :
    Option (List Word) :=
  if updCnt = 0#32 then some mag
  else do
    let oneMinus ← F32.sub F32.one c.alpha
    (List.range (c.fftN / 2 + 1)).mapM (fun k => do
      let a ← num.mul c.alpha (mag.getD k F32.posZero)
      let b ← num.mul oneMinus (prof.read k)
      num.add a b)

/-- `track(MAG)` (R149). -/
def track (num : Num) (c : Cfg) (silRun : BitVec 32) (mag : List Word) (e : SpectralState) :
    Option SpectralState :=
  if updates c silRun e.updCnt then do
    let prof ← newProfile num c e.updCnt e.prof mag
    some { e with updCnt := e.updCnt + 1#32, prof := Memory.ofList prof }
  else some e

/-- `M2 = max(MAG - (A_OS*PROF), BETA*MAG)` (R151). -/
def suppressed (num : Num) (c : Cfg) (mag prof : Word) : Option Word := do
  let diff ← num.sub mag (← num.mul c.aOs prof)
  let least ← num.mul c.beta mag
  some (F32.max diff least)

/-- One bin of the rebuilt spectrum (R151): +0.0 for a zero magnitude; else the polar form, or the
scaling form `X * (M2/MAG)` in an instance that computes that one (U7; log 5). -/
def rebuildBin (num : Num) (c : Cfg) (e : Word × Word) (mag prof : Word) : Option (Word × Word) := do
  let m2 ← suppressed num c mag prof
  if F32.eq mag F32.posZero then some (F32.posZero, F32.posZero)
  else
    match c.spectrum with
    | .polar => do
      let ph ← num.atan2 e.2 e.1
      let re ← num.mul m2 (← num.cos ph)
      let im ← num.mul m2 (← num.sin ph)
      some (re, im)
    | .scaling => do
      let g ← num.div m2 mag
      let re ← num.mul e.1 g
      let im ← num.mul e.2 g
      some (re, im)

/-- `subtract(MAG, PH)` (R151): bins `0 .. H`, then the mirror `X[k] = conj X[N-k]`. -/
def subtractSpectrum (num : Num) (c : Cfg) (x : List (Word × Word)) (mag : List Word) (prof : Memory) :
    Option (List (Word × Word)) := do
  let low ← (List.range (c.fftN / 2 + 1)).mapM (fun k =>
    rebuildBin num c (x.getD k (F32.posZero, F32.posZero)) (mag.getD k F32.posZero) (prof.read k))
  some ((List.range c.fftN).map (fun k =>
    if k ≤ c.fftN / 2 then low.getD k (F32.posZero, F32.posZero)
    else
      let e := low.getD (c.fftN - k) (F32.posZero, F32.posZero)
      (e.1, num.neg e.2)))

/-- `synthesise` (R152): the `N` output samples and the new OVL. The first half is summed with the
stored overlap; the second half is emitted and stored. -/
def synthesise (num : Num) (c : Cfg) (x : List (Word × Word)) (ovl : Memory) :
    Option (List Word × Memory) := do
  let y ← inverse num c x
  let rec_ ← (List.range c.fftN).mapM (fun i =>
    num.mul (Rom.win c.fftN i) (y.getD i (F32.posZero, F32.posZero)).1)
  let out ← (List.range c.fftN).mapM (fun i =>
    if i < c.fftN / 2 then num.add (rec_.getD i F32.posZero) (ovl.read i)
    else some (rec_.getD i F32.posZero))
  some (out, Memory.ofList (rec_.drop (c.fftN / 2)))

/-- `spec_frame(f)` (R153): track, then subtract where R150 says so, after the update. Where neither
will happen the analysis is skipped, which R153 allows (log 14). The frame delivered has the length
of `f` (conflict C5). -/
def specFrame (num : Num) (c : Cfg) (subEn : Bool) (silRun : BitVec 32) (e : SpectralState)
    (f : List Word) : Option (List Word × SpectralState) :=
  if updates c silRun e.updCnt || subtracts c subEn e.updCnt then do
    let (x, mag) ← analyse num c f
    let e1 ← track num c silRun mag e
    if subtracts c subEn e1.updCnt then do
      let x2 ← subtractSpectrum num c x mag e1.prof
      let (out, ovl) ← synthesise num c x2 e1.ovl
      some (out.take f.length, { e1 with ovl := ovl })
    else some (f, e1)
  else some (f, e)

/-- The state with another spectral engine state. -/
def State.setSpectral (s : State) (e : SpectralState) : State :=
  { s with chain := { s.chain with spectral := e } }

/-- `SPEC n: s` (R153). -/
def execSpec (xs : List Word) (s : State) : Host.Outcome State Fault Refusal :=
  sized xs.length s.frameSize.toNat .spec s do
    requireFinite xs
    let (g, e) ← numeric
      (specFrame s.cfg.num s.cfg s.subEn s.chain.silRun s.chain.spectral xs)
    return ((s.setSpectral e).emitData g).done .spec

end Sys2Proof.Machine
end

