-- ==== Sys2Proof/Machine/Chain.lean ====
section
/-! DEFINITION. The fade-out, the DSP chain and the command PREP (spec/45_chain.md R180 to R183). -/

namespace Sys2Proof.Machine

/-- The weight of sample `i` of a frame of `len` samples in ramp frame `q` (R180):
`1 - ((q*L + i) / (FADE_LEN*L))`. -/
def fadeWeight (num : Num) (p : FadeParams) (q len i : Nat) : Option Word := do
  let a ← num.fromNat (q * len + i)
  let b ← num.fromNat (p.len * len)
  num.sub F32.one (← num.div a b)

/-- `fade(h)` (R180), a function of the frame and of SIL_RUN. -/
def fade (num : Num) (p : FadeParams) (silRun : BitVec 32) (h : List Word) : Option (List Word) :=
  if silRun.toNat ≤ p.thresh then some h
  else
    let q := silRun.toNat - p.thresh - 1
    if p.len ≤ q then some (h.map (fun _ => F32.posZero))
    else
      (List.range h.length).mapM (fun i => do
        num.mul (← fadeWeight num p q h.length i) (h.getD i F32.posZero))

/-- `preprocess(f)` (R181): filter, VAD on the filtered frame, fade, spectral stage, gain control,
each on the whole output of the one before (R183: each exactly once). -/
def preprocess (num : Num) (c : Cfg) (subEn : Bool) (ch : ChainState) (f : List Word) :
    Option (List Word × ChainState) := do
  let (h, filter) ← hpfFrame num.toArith c.biquad ch.filter f
  let (_, silRun) ← vadFrame num c.vad ch.silRun h
  let g ← fade num c.fade silRun h
  let (d, spectral) ← specFrame num c subEn silRun ch.spectral g
  let (o, gain) ← agcFrame num c.agc ch.gain d
  some (o, { filter, silRun, spectral, gain })

/-- The state with another chain state. -/
def State.setChain (s : State) (ch : ChainState) : State := { s with chain := ch }

/-- `PREP n: s` (R182): the chain on one frame, whatever CHAIN_EN is. -/
def execPrep (xs : List Word) (s : State) : Host.Outcome State Fault Refusal :=
  sized xs.length s.frameSize.toNat .prep s do
    requireFinite xs
    let (o, ch) ← numeric (preprocess s.cfg.num s.cfg s.subEn s.chain xs)
    return ((s.setChain ch).emitData o).done .prep

end Sys2Proof.Machine
end

