-- ==== Sys2Proof/Machine/FrameAssembler.lean ====
section
/-! DEFINITION. The frame assembler and the command PUSH (spec/40_frame_assembler.md R110 to R115). -/

namespace Sys2Proof.Machine

/-- What PUSH does with a completed frame (R111): with CHAIN_EN = 1 the frame goes through the chain,
then it is emitted as one DATA packet. -/
def completeFrame (s : State) (f : List Word) : Except Stop State :=
  if s.chainEn then do
    let (g, ch) ← numeric (preprocess s.cfg.num s.cfg s.subEn s.chain f)
    return (s.setChain ch).emitData g
  else .ok (s.emitData f)

/-- One sample of PUSH (R111): store it at CURSOR, advance; when CURSOR reaches FRAME_SIZE, take the
frame out of ACC, return CURSOR to 0 and complete the frame. -/
def pushSample (s : State) (x : Word) : Except Stop State := do
  let s1 ← s.writeAcc s.cursor.toNat x
  let c := s.cursor + 1#24
  if c = s.frameSize then
    let f ← s1.readAcc s.frameSize.toNat
    completeFrame { s1 with cursor := 0#24 } f
  else return { s1 with cursor := c }

/-- The samples of a PUSH, strictly in payload order (R111). -/
def pushSamples (s : State) (xs : List Word) : Except Stop State := xs.foldlM pushSample s

/-- `PUSH n: s` (R111): every `n` is legal, zero or more frames are emitted. -/
def execPush (xs : List Word) (s : State) : Host.Outcome State Fault Refusal :=
  finish do
    requireFinite xs
    let s' ← pushSamples s xs
    return s'.done .push

end Sys2Proof.Machine
end

