-- ==== Sys2Proof/Machine/Dispatch.lean ====
section
/-! DEFINITION. One command: each constructor of Instr and its meaning. -/

namespace Sys2Proof.Machine

def exec (i : Instr) (s : State) : Host.Outcome State Fault Refusal :=
  match i with
  | .nop arg => Sys2Proof.Machine.execNop arg s
  | .init arg => Sys2Proof.Machine.execInit arg s
  | .wr reg imm => Sys2Proof.Machine.execWr reg imm s
  | .rd reg imm => Sys2Proof.Machine.execRd reg imm s
  | .push xs => Sys2Proof.Machine.execPush xs s
  | .hpf xs => Sys2Proof.Machine.execHpf xs s
  | .vad xs => Sys2Proof.Machine.execVad xs s
  | .spec xs => Sys2Proof.Machine.execSpec xs s
  | .agc xs => Sys2Proof.Machine.execAgc xs s
  | .prep xs => Sys2Proof.Machine.execPrep xs s
  | .fftf xs => Sys2Proof.Machine.execFftf xs s
  | .ffti bins => Sys2Proof.Machine.execFfti bins s

end Sys2Proof.Machine
end

