-- ==== Sys2Proof/Machine/Fetch.lean ====
section
/-! DEFINITION. How the step finds the next command on the command stream (spec/10_state.md R21,
spec/30_encoding.md R83) and where a RESET event lands (spec/70_reset_and_hazards.md R270, R272). -/

namespace Sys2Proof.Machine

/-- The words that arrive before the next RESET event. -/
def leadingWords : List HostEvent → List Word
  | .word w :: rest => w :: leadingWords rest
  | _ => []

/-- The host events after the first RESET event, if there is one. -/
def afterReset : List HostEvent → Option (List HostEvent)
  | [] => none
  | .reset :: rest => some rest
  | .word _ :: rest => afterReset rest

/-- The host events that are left when the decoder has left the words `rest` of those before the
next RESET event: a command is consumed with its payload (R83). -/
def eventsLeft (input : List HostEvent) (rest : List Word) : List HostEvent :=
  input.drop ((leadingWords input).length - rest.length)

/-- The state when a whole command has been taken off the stream. -/
def State.consume (s : State) (rest : List Word) : State :=
  { s with input := eventsLeft s.input rest }

/-- The host sends words ahead of everything it has sent before. -/
def State.feedFirst (s : State) (ws : List Word) : State :=
  { s with input := ws.map HostEvent.word ++ s.input }

end Sys2Proof.Machine
end

