-- ==== Sys2Proof/Machine/Step.lean ====
section
/-! DEFINITION. One step: the next whole command of the command stream, or a RESET event. -/

namespace Sys2Proof.Machine

/-- One step (R21, R66). A whole command before the next RESET event is executed; a whole command
with a reserved opcode takes E_OP (R92). Where the words run out first, a RESET event abandons what
there is of the command (R272), and without one there is no step (R83, R290). -/
def step (s : State) : Host.Outcome State Fault Refusal :=
  match decode (leadingWords s.input) with
  | .ok (i, rest) => exec i (s.consume rest)
  | .error (.reservedOpcode op rest) => execReserved op (s.consume rest)
  | .error .incomplete =>
    match afterReset s.input with
    | some rest => .next (s.hardReset rest)
    | none => .refused .incompleteCommand

/-- `s` with the instruction of the opcode table's number `w` next on the command stream. -/
def State.withFetchWord (s : State) (nbits w : Nat) : State := s.feedFirst (tableWords nbits w)

end Sys2Proof.Machine
end

