-- ==== Sys2Proof/Machine/Assembler.lean ====
section
/-! DEFINITION. The assembler syntax for command streams (spec/30_encoding.md R100, R101): one
command per line, `mnemonic [operands] [":" samples] [";" comment]`. It is the host's notation and
no part of the machine. -/

namespace Sys2Proof.Machine

/-- The binary32 word of an exact rational; `none` when it is not representable (R100). -/
def Asm.ofRatio (neg : Bool) (num den : Nat) : Option Word := do
  if den = 0 then none
  else
    let w ← F32.round neg (num * 2 ^ 149) den
    if F32.mag w * den = num * 2 ^ 149 then some w else none

/-- The value of a digit in base 10 or 16. -/
def Asm.digit (base : Nat) (c : Char) : Option Nat :=
  let n := c.toNat
  let d :=
    if 48 ≤ n ∧ n ≤ 57 then n - 48
    else if 97 ≤ n ∧ n ≤ 102 then n - 87
    else if 65 ≤ n ∧ n ≤ 70 then n - 55
    else 16
  if d < base then some d else none

/-- One or more digits. -/
def Asm.digits (base : Nat) (cs : List Char) : Option Nat :=
  if cs.isEmpty then none
  else cs.foldlM (fun acc c => do some (acc * base + (← Asm.digit base c))) 0

/-- `number ::= decimal natural | "0x" hex` (R100). -/
def Asm.number : List Char → Option Nat
  | '0' :: 'x' :: cs => Asm.digits 16 cs
  | cs => Asm.digits 10 cs

/-- The characters before and after the first `c`; `none` after where there is no `c`. -/
def Asm.cut (c : Char) : List Char → List Char × Option (List Char)
  | [] => ([], none)
  | d :: ds =>
    if d = c then ([], some ds)
    else
      let r := Asm.cut c ds
      (d :: r.1, r.2)

/-- The pieces between the separators `c`. -/
def Asm.splitAt (c : Char) : List Char → List (List Char)
  | [] => [[]]
  | d :: ds =>
    if d = c then [] :: Asm.splitAt c ds
    else
      match Asm.splitAt c ds with
      | [] => [[d]]
      | p :: ps => (d :: p) :: ps

/-- Without spaces and tabs at either end. -/
def Asm.trim (cs : List Char) : List Char :=
  let blank := fun c => decide (c = ' ') || decide (c = '\t')
  ((cs.dropWhile blank).reverse.dropWhile blank).reverse

/-- An unsigned `p`, `p/q` or `p.ddd` as a ratio. -/
def Asm.ratio (cs : List Char) : Option (Nat × Nat) :=
  match Asm.cut '/' cs with
  | (p, some q) => do some (← Asm.digits 10 p, ← Asm.digits 10 q)
  | (_, none) =>
    match Asm.cut '.' cs with
    | (p, some q) => do
      let whole ← Asm.digits 10 p
      let frac ← Asm.digits 10 q
      some (whole * 10 ^ q.length + frac, 10 ^ q.length)
    | (p, none) => do some (← Asm.digits 10 p, 1)

/-- `sample ::= decimal real | "0x" 8 hex digits` (R100). -/
def Asm.sample : List Char → Option Word
  | '0' :: 'x' :: cs => if cs.length = 8 then (Asm.digits 16 cs).map (BitVec.ofNat 32) else none
  | '-' :: cs => do
    let (n, d) ← Asm.ratio cs
    Asm.ofRatio true n d
  | cs => do
    let (n, d) ← Asm.ratio cs
    Asm.ofRatio false n d

/-- One item of a sample list: a sample, or `k x v` for `k` repetitions of `v` (R100). -/
def Asm.item (cs : List Char) : Option (List Word) :=
  let cs := Asm.trim cs
  match (Asm.splitAt ' ' cs).filter (fun p => !p.isEmpty) with
  | [k, ['x'], v] => do some (List.replicate (← Asm.number k) (← Asm.sample v))
  | [v] => (Asm.sample v).map (fun w => [w])
  | _ => none

/-- `samples ::= sample ("," sample)*`; nothing at all is the empty payload. -/
def Asm.samples (cs : List Char) : Option (List Word) :=
  if (Asm.trim cs).isEmpty then some []
  else do some (← (Asm.splitAt ',' cs).mapM Asm.item).flatten

/-- `regname` (R100): a name of the register table (spec/10_state.md R22) or a number. -/
def Asm.register (cs : List Char) : Option (BitVec 8) :=
  if cs = "CTRL".toList then some 0x00#8
  else if cs = "STATUS".toList then some 0x01#8
  else if cs = "FRAME_SIZE".toList then some 0x02#8
  else if cs = "CURSOR".toList then some 0x03#8
  else if cs = "SIL_RUN".toList then some 0x04#8
  else if cs = "UPD_CNT".toList then some 0x05#8
  else if cs = "GAIN".toList then some 0x06#8
  else if cs = "X1".toList then some 0x07#8
  else if cs = "X2".toList then some 0x08#8
  else if cs = "Y1".toList then some 0x09#8
  else if cs = "Y2".toList then some 0x0A#8
  else if cs = "FFT_N".toList then some 0x0B#8
  else do
    let n ← Asm.number cs
    if n < 2 ^ 8 then some (BitVec.ofNat 8 n) else none

/-- A number that fits `w` bits. -/
def Asm.field (w : Nat) (cs : List Char) : Option (BitVec w) := do
  let n ← Asm.number cs
  if n < 2 ^ w then some (BitVec.ofNat w n) else none

/-- A payload command: the count may be left out when the samples are there, and must agree with
them when it is not (R100). -/
def Asm.payload (operands : List (List Char)) (samples : Option (List Word)) : Option (List Word) :=
  match operands, samples with
  | [], some xs => if xs.length < 2 ^ 24 then some xs else none
  | [n], some xs => do
    if (← Asm.number n) = xs.length ∧ xs.length < 2 ^ 24 then some xs else none
  | [n], none => do if (← Asm.number n) = 0 then some [] else none
  | _, _ => none

/-- The bit of an operand `key=0` or `key=1` of the pseudo-command CFG (R101). -/
def Asm.keyBit (key cs : List Char) : Option (BitVec 16) :=
  if cs = key ++ "=0".toList then some 0#16
  else if cs = key ++ "=1".toList then some 1#16
  else none

/-- `APPLY s` (R101): one sample through the filter. -/
def Asm.apply (x : Word) : Instr := .hpf [x]

/-- `CFG sub=a, chain=b` (R101): `WR CTRL, (b << 1) + a`. -/
def Asm.cfg (a b : BitVec 16) : Instr := .wr 0x00#8 ((b <<< 1) + a)

/-- `CLRERR` (R101): `WR STATUS, 0x000F`. -/
def Asm.clrerr : Instr := .wr 0x01#8 0x000F#16

/-- `FRAME: s` (R101): a push of the given samples. -/
def Asm.frame (xs : List Word) : Instr := .push xs

/-- The command of a mnemonic, its operands and its samples (R100, R101). -/
def Asm.command (name : List Char) (ops : List (List Char)) (xs : Option (List Word)) : Option Instr :=
  if name = "NOP".toList then (if ops = [] ∧ xs = none then some (.nop 0#24) else none)
  else if name = "INIT".toList then
    match ops, xs with
    | [n], none => (Asm.field 24 n).map Instr.init
    | _, _ => none
  else if name = "WR".toList then
    match ops, xs with
    | [r, v], none => do some (.wr (← Asm.register r) (← Asm.field 16 v))
    | _, _ => none
  else if name = "RD".toList then
    match ops, xs with
    | [r], none => do some (.rd (← Asm.register r) 0#16)
    | _, _ => none
  else if name = "PUSH".toList then (Asm.payload ops xs).map Instr.push
  else if name = "HPF".toList then (Asm.payload ops xs).map Instr.hpf
  else if name = "VAD".toList then (Asm.payload ops xs).map Instr.vad
  else if name = "SPEC".toList then (Asm.payload ops xs).map Instr.spec
  else if name = "AGC".toList then (Asm.payload ops xs).map Instr.agc
  else if name = "PREP".toList then (Asm.payload ops xs).map Instr.prep
  else if name = "FFTF".toList then (Asm.payload ops xs).map Instr.fftf
  else if name = "FFTI".toList then do
    let ws := xs.getD []
    if ws.length % 2 = 0 then
      let bins := pairWords ws
      match ops with
      | [] => if xs.isSome ∧ bins.length < 2 ^ 24 then some (.ffti bins) else none
      | [n] => if (← Asm.number n) = bins.length ∧ bins.length < 2 ^ 24 then some (.ffti bins) else none
      | _ => none
    else none
  else if name = "APPLY".toList then
    match ops, xs with
    | [v], none => (Asm.sample v).map Asm.apply
    | _, _ => none
  else if name = "CFG".toList then
    match ops, xs with
    | [a, b], none => do
      some (Asm.cfg (← Asm.keyBit "sub".toList a) (← Asm.keyBit "chain".toList b))
    | _, _ => none
  else if name = "CLRERR".toList then (if ops = [] ∧ xs = none then some Asm.clrerr else none)
  else if name = "FRAME".toList then (if ops = [] then xs.map Asm.frame else none)
  else none

/-- One line of the notation (R100): the command it stands for. -/
def Asm.parseLine (line : List Char) : Option Instr := do
  let (code, _) := Asm.cut ';' line
  let (head, tail) := Asm.cut ':' code
  let xs ← match tail with
    | none => some none
    | some cs => (Asm.samples cs).map some
  let (name, rest) := Asm.cut ' ' (Asm.trim head)
  let ops := match rest with
    | none => []
    | some cs => (Asm.splitAt ',' cs).map Asm.trim
  Asm.command name ops xs

/-- The words of one line: its header, then the bits of each sample (R100). -/
def Asm.assemble (line : String) : Option (List Word) := (Asm.parseLine line.toList).map encode

end Sys2Proof.Machine
end

