-- ==== Sys2Proof/Machine/Environment.lean ====
section
/-! DEFINITION. The environment of BHF: Cross-Stage Exchange, Playback Drain, external engine and
host (spec/47_environment.md R210 to R225), and the world of BHF and its environment, in which the
two agents of R210 interleave (log 23). It is co-simulated software, not hardware (spec/00_scope.md R6): it is
no part of State, and no step of the machine reads it. -/

namespace Sys2Proof.Machine

/-- What the external engine reports when it fails, a code of its own (R215, R217). -/
abbrev EngineError := Nat

/-- The external engine as its interface shows it (R217): the frame length it asks for. What
`processFrame` answers is unknown, so each answer is given by the event that brings it. `create` and
the two setters have no specified behaviour (R7, R217). -/
structure Engine where
  /-- `frameLength(engineHandle)`. -/
  frameLength : Nat
deriving DecidableEq, Repr

/-- Whether `r` is an answer that `processFrame` can give for `frame` (R217): it may always fail, and it
maps frames of length `frameLength` to frames of the same length. -/
def Engine.answers (eng : Engine) (frame : List Word) : Except EngineError (List Word) → Bool
  | .ok out => decide (frame.length = eng.frameLength) && decide (out.length = frame.length)
  | .error _ => true

/-- The environment's state (R212) and the two channels between its contexts (R210): the frames
handed to the processing context and the results on their way back. -/
structure Env where
  /-- PendingFrameQueue: (handle, frame), oldest first. -/
  pfq : List (Nat × List Word)
  /-- The next handle to issue. -/
  nextH : Nat
  /-- OutputFrameQueue, oldest first. -/
  ofq : List (List Word)
  /-- The read cursor of the head of `ofq`; 0 when it is empty. -/
  rcur : Nat
  /-- How often an output block had to be filled with silence. -/
  underruns : Nat
  /-- The observability channel for engine failures. -/
  failLog : List (Nat × EngineError)
  /-- Channel to the processing context: submitted, not yet processed. -/
  inbox : List (Nat × List Word)
  /-- Channel to the real-time context: `engineResult` messages, not yet taken. -/
  results : List (List Word)
deriving DecidableEq, Repr

/-- The environment before anything has happened. -/
def Env.start : Env := ⟨[], 0, [], 0, 0, [], [], []⟩

/-- Whether a queue with `n` entries takes one more: QDEPTH bounds it, `none` does not (D41). -/
def queueHasRoom (qdepth : Option Nat) (n : Nat) : Bool :=
  match qdepth with
  | none => true
  | some d => decide (n < d)

/-- `submit(frame)` (R213): the handle, and the environment after it. `none`: a bounded queue is
full, which the spec leaves undefined (U5). -/
def Env.submit (qdepth : Option Nat) (e : Env) (frame : List Word) : Option (Nat × Env) :=
  if queueHasRoom qdepth e.pfq.length then
    some (e.nextH, { e with
      nextH := e.nextH + 1
      pfq := e.pfq ++ [(e.nextH, frame)]
      inbox := e.inbox ++ [(e.nextH, frame)] })
  else none

/-- `onResult(output)` (R214): pairs the result with the oldest pending frame. `none`: no frame is
pending or the result has not that frame's length, violations of the engine contract (U6), or a
bounded output queue is full (U5) (log 19). -/
def Env.onResult (qdepth : Option Nat) (e : Env) (output : List Word) : Option Env :=
  match e.pfq with
  | [] => none
  | (_, frame) :: rest =>
    if queueHasRoom qdepth e.ofq.length && decide (output.length = frame.length) then
      some { e with pfq := rest, ofq := e.ofq ++ [output] }
    else none

/-- Configuration S (R222): a frame of BHF is appended to the output queue. `none`: a bounded queue is
full. R222 leaves that open and U5 names only `submit` and `onResult`: the model's choice (log 19). -/
def Env.append (qdepth : Option Nat) (e : Env) (frame : List Word) : Option Env :=
  if queueHasRoom qdepth e.ofq.length then some { e with ofq := e.ofq ++ [frame] } else none

/-- A full-length silent frame (R215). -/
def silentFrame (n : Nat) : List Word := List.replicate n F32.posZero

/-- `process_one` (R215): the processing context's step on the head of its inbox, where the engine
answered `r` for that frame. A failure is logged and a silent frame is sent in its place. `none`:
the inbox is empty, or the engine cannot have answered `r` (R217, log 19). -/
def Env.processOne (eng : Engine) (e : Env) (r : Except EngineError (List Word)) : Option Env :=
  match e.inbox with
  | [] => none
  | (h, frame) :: rest =>
    if eng.answers frame r then
      match r with
      | .ok out => some { e with inbox := rest, results := e.results ++ [out] }
      | .error err => some { e with
          inbox := rest
          failLog := e.failLog ++ [(h, err)]
          results := e.results ++ [silentFrame frame.length] }
    else none

/-- The real-time context takes the next `engineResult` message (R214). -/
def Env.deliver (qdepth : Option Nat) (e : Env) : Option Env :=
  match e.results with
  | [] => none
  | out :: rest => { e with results := rest }.onResult qdepth out

/-- The loop of `fill` (R220) on the frames of the output queue, the read cursor and the samples
still wanted: the samples copied, the frames left, the read cursor. -/
def drain : List (List Word) → Nat → Nat → List Word × List (List Word) × Nat
  | [], rcur, _ => ([], [], rcur)
  | f :: fs, rcur, want =>
    if want = 0 then ([], f :: fs, rcur)
    else
      let c := min want (f.length - rcur)
      let part := (f.drop rcur).take c
      if rcur + c = f.length then
        let r := drain fs 0 (want - c)
        (part ++ r.1, r.2)
      else (part, f :: fs, rcur + c)

/-- `fill(out[0 .. m-1])` (R220): always `m` samples, silence where the queue runs out. -/
def Env.fill (e : Env) (m : Nat) : List Word × Env :=
  let r := drain e.ofq e.rcur m
  (r.1 ++ silentFrame (m - r.1.length),
    { e with
      ofq := r.2.1
      rcur := r.2.2
      underruns := if r.1.length < m then e.underruns + 1 else e.underruns })

/-- The environment's half of a valid INIT (R216; `World.send` has both halves): the queues are emptied
and frames in flight are dropped. R216 leaves open whether NEXT_H restarts: it counts on, the model's
choice (log 24). -/
def Env.resetQueues (e : Env) : Env := { e with pfq := [], ofq := [], rcur := 0, inbox := [], results := [] }

/-- The samples that `fill` has still to deliver, in order (R221). -/
def Env.pending (e : Env) : List Word := e.ofq.flatten.drop e.rcur

/-- The read cursor lies inside the head frame; no frame is empty (R212). -/
def Env.wellFormed (e : Env) : Bool :=
  e.ofq.all (fun f => !f.isEmpty) && decide (e.rcur ≤ (e.ofq.headD []).length)
    && (e.ofq.isEmpty || decide (e.rcur < (e.ofq.headD []).length))

/-- What can happen in the environment, in any interleaving of its two contexts (R210): `process` is a
step of the processing context, the others are steps of the real-time context. -/
inductive EnvEvent where
  | submit (frame : List Word)
  | append (frame : List Word)
  | process (r : Except EngineError (List Word))
  | deliver
  | fill (m : Nat)
  | reset
deriving Repr

/-- One event: the samples it plays and the environment after it. -/
def Env.event (qdepth : Option Nat) (eng : Engine) (e : Env) : EnvEvent → Option (List Word × Env)
  | .submit f => (e.submit qdepth f).map (fun r => ([], r.2))
  | .append f => (e.append qdepth f).map (fun e' => ([], e'))
  | .process r => (e.processOne eng r).map (fun e' => ([], e'))
  | .deliver => (e.deliver qdepth).map (fun e' => ([], e'))
  | .fill m => some (e.fill m)
  | .reset => some ([], e.resetQueues)

/-- A run of events: all samples played and the environment after it. -/
def Env.run (qdepth : Option Nat) (eng : Engine) (e : Env) : List EnvEvent → Option (List Word × Env)
  | [] => some ([], e)
  | ev :: evs => do
    let (out, e1) ← e.event qdepth eng ev
    let (outs, e2) ← Env.run qdepth eng e1 evs
    some (out ++ outs, e2)

/-! ### The host's side of the word streams -/

/-- Cuts the response of one command off the response stream (spec/30_encoding.md R86): the DATA
packets, the DONE word, the words after it. `fuel` bounds the number of packets. -/
def parseResponse : Nat → List Word → Option (List (List Word) × Word × List Word)
  | 0, _ => none
  | _ + 1, [] => none
  | fuel + 1, h :: rest =>
    if h.extractLsb' 28 4 = 0xE#4 then some ([], h, rest)
    else if h.extractLsb' 28 4 = 0xD#4 then
      let len := (h.extractLsb' 0 24).toNat
      if rest.length < len then none
      else do
        let (packets, done, after) ← parseResponse fuel (rest.drop len)
        some (rest.take len :: packets, done, after)
    else none

/-- The host sends one command ahead of what it has sent before and reads the response (R224): the DATA
packets, the DONE word, the machine after it. `none`: the command cannot be encoded, or BHF has no
step for it. -/
def hostCommand (s : State) (i : Instr) : Option (List (List Word) × Word × State) :=
  if i.wellFormed then
    match step (s.feedFirst (encode i)) with
    | .next t => do
      let answer := t.output.drop s.output.length
      let (packets, done, _) ← parseResponse (answer.length + 1) answer
      some (packets, done, t)
    | .fault _ => none
    | .refused _ => none
  else none

/-- `st` of a DONE word (R86). -/
def doneStatus (w : Word) : BitVec 4 := w.extractLsb' 24 4

/-- The most samples that one PUSH holds (R94). -/
def pushLimit : Nat := 2 ^ 24 - 1

/-- A block in pieces that one PUSH can hold, in order; a block of at most `2^24 - 1` samples is one
piece. `fuel` bounds the number of pieces (log 22). -/
def pieces : Nat → List Word → List (List Word)
  | 0, _ => []
  | _ + 1, [] => []
  | fuel + 1, x :: xs => (x :: xs).take pushLimit :: pieces fuel ((x :: xs).drop pushLimit)

/-- One PUSH after the other: all frames that BHF answers, in order, and the machine after them. -/
def pushAll (s : State) : List (List Word) → Option (List (List Word) × State)
  | [] => some ([], s)
  | p :: ps => do
    let (frames, _, s1) ← hostCommand s (.push p)
    let (more, s2) ← pushAll s1 ps
    some (frames ++ more, s2)

/-! ### BHF in its environment -/

/-- The two wirings of R222: E submits each frame to the engine, S plays it directly. -/
inductive Wiring where
  | engine
  | standalone
deriving DecidableEq, Repr

/-- What the host does with one frame that BHF emitted (R222). -/
def Wiring.accept : Wiring → List Word → EnvEvent
  | .engine, f => .submit f
  | .standalone, f => .append f

/-- BHF and its environment. -/
structure World where
  machine : State
  env : Env
deriving DecidableEq, Repr

/-- The host sends a command and reads its response; with a valid INIT it empties the queues in the same
logical operation, with a rejected one it leaves them (R216). -/
def World.send (x : World) (i : Instr) : Option World := do
  let (_, done, s) ← hostCommand x.machine i
  some ⟨s, if i.opcode = .init ∧ doneStatus done = 0#4 then x.env.resetQueues else x.env⟩

/-- The host opens the engine: it sends `INIT frameLength(engineHandle)` (R217). A length above FFT_N is
rejected by BHF; one that `arg` cannot hold is above every FFT_N and cannot be sent: `none`. -/
def World.openEngine (eng : Engine) (x : World) : Option World :=
  if eng.frameLength < 2 ^ 24 then x.send (.init (BitVec.ofNat 24 eng.frameLength)) else none

/-- One real-time callback (R222) with the input block `block`: send PUSH, hand on the frames that BHF
answers, fill an output block of the same length. The samples played and the world after it. `none`:
the block is empty (R222: any positive size), configuration S without CHAIN_EN = 1 (R222), or BHF or
the environment refuses. The callback is one event: no result is taken between its submits and its
`fill`, which R210, R214 and R222 leave open (the model's choice, log 23; `Env.run` has those
interleavings too). -/
def World.callback (w : Wiring) (eng : Engine) (x : World) (block : List Word) :
    Option (List Word × World) :=
  if block.isEmpty || (w == .standalone && !x.machine.chainEn) then none
  else do
    let (frames, s) ← pushAll x.machine (pieces block.length block)
    let (out, e) ← Env.run x.machine.cfg.qdepth eng x.env (frames.map w.accept ++ [.fill block.length])
    some (out, ⟨s, e⟩)

/-- The steps of the two agents (R210): `process` is the processing agent's, the others are the
real-time agent's, which alone drives BHF. A callback is one step (log 23). There is no hardware RESET
(R270(a)) among them: R216 says what an INIT does to the queues, and no rule what a RESET does (the
model's choice, log 25). -/
inductive WorldEvent where
  /-- A command other than PUSH: INIT, the flags, reads and the rest. -/
  | command (i : Instr)
  | openEngine
  | callback (block : List Word)
  | deliver
  | process (r : Except EngineError (List Word))
deriving Repr

/-- One step of one agent: the samples played and the world after it. Samples come in by callbacks, so
that no frame of a PUSH is lost: a PUSH sent as a plain command is `none`. -/
def World.event (w : Wiring) (eng : Engine) (x : World) : WorldEvent → Option (List Word × World)
  | .command i => if i.opcode = .push then none else (x.send i).map (fun y => ([], y))
  | .openEngine => (x.openEngine eng).map (fun y => ([], y))
  | .callback block => x.callback w eng block
  | .deliver => (x.env.event x.machine.cfg.qdepth eng .deliver).map (fun r => (r.1, ⟨x.machine, r.2⟩))
  | .process r => (x.env.event x.machine.cfg.qdepth eng (.process r)).map (fun q => (q.1, ⟨x.machine, q.2⟩))

/-- A run of the two agents, in any interleaving of their events (R210; a callback is one event, log 23;
no hardware RESET, log 25): all samples played and the world after it. -/
def World.run (w : Wiring) (eng : Engine) (x : World) : List WorldEvent → Option (List Word × World)
  | [] => some ([], x)
  | ev :: evs => do
    let (out, x1) ← x.event w eng ev
    let (outs, x2) ← World.run w eng x1 evs
    some (out ++ outs, x2)

end Sys2Proof.Machine
end

