-- ==== Sys2Proof/Safety.lean ====
section
/-! DEFINITION. What counts as a legal state and a safe step of BHF, in the terms that statements
use: the invariants of spec/10_state.md (R22 to R28, R40 to R42), the canonical form of the arrays,
and sample values that are finite (R12). -/

namespace Sys2Proof.Machine

/-- The four scalars of the filter are sample values (R12, R30). -/
def FilterState.finite (h : FilterState Word) : Bool :=
  F32.isFinite h.x1 && F32.isFinite h.x2 && F32.isFinite h.y1 && F32.isFinite h.y2

/-- An array of `size` elements: canonical, no element outside, every element a sample value. -/
def Memory.legal (size : Nat) (m : Memory) : Bool :=
  m.wf && m.within size && m.all (fun e => F32.isFinite e.2)

/-- The invariants of the spectral engine (R28, R41, R42). -/
def SpectralState.legal (c : Cfg) (e : SpectralState) : Bool :=
  decide (e.updCnt.toNat ≤ c.updMax) && e.prof.legal (c.fftN / 2 + 1) && e.ovl.legal (c.fftN / 2)

/-- The invariants of the chain's state. -/
def ChainState.legal (c : Cfg) (ch : ChainState) : Bool :=
  ch.filter.finite && ch.spectral.legal c && F32.isFinite ch.gain

/-- The invariant of the machine: a legal configuration, reserved bits of CTRL and STATUS zero (R23,
R24), `1 <= FRAME_SIZE <= FFT_N` (R25), `CURSOR < FRAME_SIZE` (R26), legal arrays and chain state. -/
structure Legal (s : State) : Prop where
  cfg : s.cfg.valid = true
  ctrl : s.ctrl &&& 0xFFFC#16 = 0#16
  status : s.status &&& 0xFFF0#16 = 0#16
  framePos : 1 ≤ s.frameSize.toNat
  frameLe : s.frameSize.toNat ≤ s.cfg.fftN
  cursor : s.cursor.toNat < s.frameSize.toNat
  acc : s.acc.legal s.cfg.fftN = true
  chain : s.chain.legal s.cfg = true

/-- The machine does not stop with a fault (R245: no command sequence makes BHF stop). -/
def neverFaults (s : State) : Prop := ∀ f : Fault, step s ≠ .fault f

/-- Two states that differ at most in the host events and in the response stream. -/
def sameMachine (s t : State) : Prop :=
  t.cfg = s.cfg ∧ t.ctrl = s.ctrl ∧ t.status = s.status ∧ t.frameSize = s.frameSize
    ∧ t.cursor = s.cursor ∧ t.acc = s.acc ∧ t.chain = s.chain

/-- The error that a command ends with (the table of R240); `none`: it ends with `OK`. -/
def errorOf (s : State) : Instr → Option ErrCode
  | .nop _ => none
  | .init n => if n.toNat = 0 ∨ s.cfg.fftN < n.toNat then some .cfg else none
  | .wr reg _ => if 2 ≤ reg.toNat then some .reg else none
  | .rd reg _ => if 12 ≤ reg.toNat then some .reg else none
  | .push _ => none
  | .hpf _ => none
  | .vad xs => if xs.length = s.frameSize.toNat then none else some .size
  | .spec xs => if xs.length = s.frameSize.toNat then none else some .size
  | .agc xs => if xs.length = s.frameSize.toNat then none else some .size
  | .prep xs => if xs.length = s.frameSize.toNat then none else some .size
  | .fftf xs => if xs.length = s.cfg.fftN then none else some .size
  | .ffti bins => if bins.length = s.cfg.fftN then none else some .size

/-- The status code of a command's DONE word (R87): 0 is `OK`. -/
def doneCode (e : Option ErrCode) : BitVec 4 :=
  match e with
  | none => 0#4
  | some e => e.code

/-- The chain on frames in order: the outputs, and the chain's state after the last (R111, R181). -/
def chainFrames (c : Cfg) (subEn : Bool) : ChainState → List (List Word) →
    Option (List (List Word) × ChainState)
  | ch, [] => some ([], ch)
  | ch, f :: fs => do
    let (o, ch1) ← preprocess c.num c subEn ch f
    let (os, ch2) ← chainFrames c subEn ch1 fs
    some (o :: os, ch2)

/-- The DATA packet of a command that answers as many samples as it got, none for none (R122). -/
def packetIfAny (ys : List Word) : List Word := if ys.isEmpty then [] else dataPacket ys

/-- The next thing on the stream is one of the two re-initialisations (R270): a valid INIT or RESET. -/
def reinitialises (s : State) : Prop :=
  (∃ n rest, decode (leadingWords s.input) = .ok (.init n, rest) ∧ 1 ≤ n.toNat ∧ n.toNat ≤ s.cfg.fftN) ∨
  (decode (leadingWords s.input) = .error .incomplete ∧ (afterReset s.input).isSome = true)

/-- Where a stretch of the stream ends: nothing more, or a RESET event. -/
def streamEnd (tail : List HostEvent) : Prop := tail = [] ∨ ∃ rest, tail = .reset :: rest

/-- A sample that is a zero of either sign (R65). -/
def isZero (w : Word) : Bool := F32.mag w == 0

/-- The frames submitted in a run of the environment, in order (R213). -/
def submittedFrames (evs : List EnvEvent) : List (List Word) :=
  evs.filterMap (fun ev => match ev with | .submit f => some f | _ => none)

/-- The engine's replies in a run of the environment, in order (R215). -/
def engineReplies (evs : List EnvEvent) : List (Except EngineError (List Word)) :=
  evs.filterMap (fun ev => match ev with | .process r => some r | _ => none)

/-- What the exchange queues for a frame and the engine's reply to it (R215). -/
def answerTo (frame : List Word) (r : Except EngineError (List Word)) : List Word :=
  match r with
  | .ok out => out
  | .error _ => silentFrame frame.length

/-- The samples that the playback callbacks of a run ask for (R220). -/
def samplesAsked (evs : List EnvEvent) : Nat :=
  (evs.map (fun ev => match ev with | .fill m => m | _ => 0)).sum

/-- The samples that the host's callbacks of a run ask for (R222). -/
def callbackSamples (evs : List WorldEvent) : Nat :=
  (evs.map (fun ev => match ev with | .callback block => block.length | _ => 0)).sum

/-- Frames with their handles, the first one's being `first` (R213). -/
def numbered (first : Nat) (frames : List (List Word)) : List (Nat × List Word) :=
  (List.range' first frames.length).zip frames

/-- The exchange in order (R212 to R215, R218): of the frames submitted since the queues were last
emptied, in order, with handles from `first` on, as many as there are replies have been processed;
their answers, in order, are the frames wholly played, then OFQ, then the results on their way; the
frames not processed and the frames without a delivered result are the last ones submitted. -/
structure Exchanged (submitted : List (List Word)) (replies : List (Except EngineError (List Word)))
    (first played : Nat) (e : Env) : Prop where
  processed : replies.length ≤ submitted.length
  playedLe : played ≤ replies.length
  answers : e.ofq ++ e.results = (List.zipWith answerTo submitted replies).drop played
  lengths : ∀ i, i < replies.length →
    ((List.zipWith answerTo submitted replies).getD i []).length = (submitted.getD i []).length
  inbox : e.inbox = (numbered first submitted).drop replies.length
  pending : e.pfq = (numbered first submitted).drop (replies.length - e.results.length)
  handles : e.nextH = first + submitted.length

end Sys2Proof.Machine
end

