-- ==== Sys2Proof/Certificates/Slice0/Obligations.lean ====
section
/-! DEFINITION. The statements for the provers. The rule or the section of spec/ that each one
formalises is named in its docstring; a statement that rests on a choice of the model names the log
entry (notes/assumptions). `dataPacket` and the DONE words are those of R86, which
`Obligations.EveryResponseIsWellFormed` states. -/

open Sys2Proof Sys2Proof.Machine

/-! ### Encoding and decoding (spec/30_encoding.md) -/

/-- R81, R82, R85, R90: decoding the words of a well-formed command gives that command back, whatever
follows it on the stream. -/
def Obligations.EncodeThenDecode : Prop :=
  ∀ (i : Instr) (rest : List Word), i.wellFormed = true →
    decode (encode i ++ rest) = .ok (i, rest)

/-- R81 to R85: what the decoder reads as a command is well formed, and its words are exactly the
words that the decoder took: no bit of header or payload is lost. -/
def Obligations.DecodeThenEncode : Prop :=
  ∀ (ws : List Word) (i : Instr) (rest : List Word), decode ws = .ok (i, rest) →
    i.wellFormed = true ∧ encode i ++ rest = ws

/-- R83: the number of payload words is a function of the header's number alone, by `op[7]` and
`op[6:5]`, for implemented and reserved opcodes alike; the words after them are left; with fewer
words the command is incomplete and there is no step. -/
def Obligations.PayloadLengthByHeader : Prop :=
  ∀ (h : Word) (t : List Word),
    let plen :=
      if 2 ^ 31 ≤ h.toNat then 0
      else if h.toNat / 2 ^ 29 % 4 = 1 then h.toNat % 2 ^ 24
      else if h.toNat / 2 ^ 29 % 4 = 2 then 2 * (h.toNat % 2 ^ 24)
      else 0
    if t.length < plen then
      decode (h :: t) = .error .incomplete ∧
      ∀ s : State, s.input = (h :: t).map HostEvent.word → step s = .refused .incompleteCommand
    else (∃ i, decode (h :: t) = .ok (i, t.drop plen)) ∨
      decode (h :: t) = .error (.reservedOpcode (h.extractLsb' 24 8) (t.drop plen))

/-- Words written out from the encodings of the spec decode to the commands they stand for: the
examples of R191, R192, R194, R196 and one word per payload family. -/
def Obligations.ExampleWordsDecode : Prop :=
  decode [0x00ABCDEF#32] = .ok (.nop 0xABCDEF#24, []) ∧
  decode [0x010001E0#32] = .ok (.init 480#24, []) ∧
  decode [0x02000003#32] = .ok (.wr 0x00#8 3#16, []) ∧
  decode [0x03060000#32] = .ok (.rd 0x06#8 0#16, []) ∧
  decode [0x20000002#32, 0x3F800000#32, 0xBF800000#32, 0x03060000#32]
    = .ok (.push [0x3F800000#32, 0xBF800000#32], [0x03060000#32]) ∧
  decode [0x26000001#32, 0x3F000000#32] = .ok (.fftf [0x3F000000#32], []) ∧
  decode [0x40000001#32, 0x3F000000#32, 0xBF000000#32] = .ok (.ffti [(0x3F000000#32, 0xBF000000#32)], [])

/-- R64: a transport that carries words as bytes, bits 7:0 first, loses nothing. -/
def Obligations.ByteTransportRoundTrip : Prop :=
  (∀ ws : List Word, wordsOfBytes (bytesOfWords ws) = (ws, [])) ∧
  ∀ (bs : List Byte), bs.length % 4 = 0 → bytesOfWords (wordsOfBytes bs).1 = bs ∧ (wordsOfBytes bs).2 = []

/-! ### The step (spec/10_state.md R21, spec/60_exceptions.md, spec/70_reset_and_hazards.md) -/

/-- A step runs the command that the words of the stream decode to: exactly its words are gone from
the stream, and nothing else is added to what `exec` does. -/
def Obligations.StepRunsTheDecodedCommand : Prop :=
  ∀ (s : State) (ws rest : List Word) (tail : List HostEvent) (i : Instr), streamEnd tail →
    s.input = ws.map HostEvent.word ++ tail → decode ws = .ok (i, rest) →
    step s = exec i { s with input := rest.map HostEvent.word ++ tail }

/-- The words of a well-formed command, sent ahead of everything else, run that command on the state
as it was. -/
def Obligations.StepRunsTheEncodedCommand : Prop :=
  ∀ (s : State) (i : Instr), i.wellFormed = true → step (s.feedFirst (encode i)) = exec i s

/-- R92: the reserved opcodes are 0x04 to 0x1F, 0x27 to 0x3F and 0x41 to 0xFF; a header with one takes
its payload with it, changes nothing but `STATUS.ERR_OP`, and is answered with the DONE word `E_OP`
that echoes `op`; an all-zero word is a NOP. -/
def Obligations.ReservedOpcodeRaisesErrOp : Prop :=
  (∀ op : BitVec 8, Opcode.ofBits op = none ↔
    (0x04 ≤ op.toNat ∧ op.toNat ≤ 0x1F) ∨ (0x27 ≤ op.toNat ∧ op.toNat ≤ 0x3F) ∨ 0x41 ≤ op.toNat) ∧
  (∀ (s : State) (h : Word) (payload : List Word) (more : List HostEvent),
    Opcode.ofBits (h.extractLsb' 24 8) = none → payload.length = headerPlen h →
    s.input = (h :: payload).map HostEvent.word ++ more →
    step s = .next { s with
      input := more
      status := s.status ||| 0x0001#16
      output := s.output ++ [0xE1000000#32 ||| ((h.extractLsb' 24 8).zeroExtend 32 <<< 16)] }) ∧
  ∀ t : List Word, decode (0x00000000#32 :: t) = .ok (.nop 0#24, t)

/-- R241 with the table of R240: a command in error, or with a reserved opcode, consumes its payload,
sets the sticky bit of its error and nothing else, emits no DATA packet, and the next word is the next
header. `errorOf` decides on the header's fields alone. -/
def Obligations.RaisedErrorChangesOneStickyBit : Prop :=
  ∀ (s : State) (ws rest : List Word) (tail : List HostEvent) (op : BitVec 8) (e : ErrCode), streamEnd tail →
    s.input = ws.map HostEvent.word ++ tail →
    ((∃ i, decode ws = .ok (i, rest) ∧ errorOf s i = some e ∧ op = i.opcode.bits) ∨
      (decode ws = .error (.reservedOpcode op rest) ∧ e = .op)) →
    step s = .next { s with
      input := rest.map HostEvent.word ++ tail
      status := s.status ||| (0x0001#16 <<< (e.code.toNat - 1))
      output := s.output ++ [0xE0000000#32 + (e.code.zeroExtend 32 <<< 24) + (op.zeroExtend 32 <<< 16)] }

/-- R24, R240: the sticky bits are set only by the error mechanism and cleared only by `WR STATUS`;
a command without an error leaves them, and no command touches the other bits of STATUS. -/
def Obligations.StickyBitsOnlyByErrors : Prop :=
  ∀ (s t : State) (i : Instr), exec i s = .next t →
    t.status =
      match errorOf s i with
      | some e => s.status ||| (0x0001#16 <<< (e.code.toNat - 1))
      | none =>
        match i with
        | .wr 0x01#8 imm => s.status &&& ~~~(imm &&& 0x000F#16)
        | _ => s.status

/-- R51 (and R270(a)): after `RESET` every register and every element of every array holds the value
that R51 states; the machine of State.reset is such a state. The RESET event stands on the host's
stream (log 8); words that do not make a whole command before it are dropped with it (log 10). -/
def Obligations.ResetSetsEveryValue : Prop :=
  let atReset := fun (t : State) =>
    t.ctrl = 0x0002#16 ∧ t.status = 0x0000#16 ∧ t.frameSize.toNat = min 480 t.cfg.fftN ∧
    t.cursor = 0#24 ∧ t.chain.silRun = 0#32 ∧ t.chain.spectral.updCnt = 0#32 ∧
    t.chain.gain = 0x3F800000#32 ∧ t.chain.filter.x1 = 0#32 ∧ t.chain.filter.x2 = 0#32 ∧
    t.chain.filter.y1 = 0#32 ∧ t.chain.filter.y2 = 0#32 ∧
    ∀ i : Nat, t.acc.read i = 0#32 ∧ t.chain.spectral.ovl.read i = 0#32 ∧ t.chain.spectral.prof.read i = 0#32
  atReset State.reset ∧
  ∀ (s : State) (ws : List Word) (rest : List HostEvent), decode ws = .error .incomplete →
    s.input = ws.map HostEvent.word ++ .reset :: rest →
    ∃ t, step s = .next t ∧ atReset t ∧ t.cfg = s.cfg ∧ t.input = rest ∧ t.output = s.output

/-! ### Control commands (spec/46_control.md) -/

/-- R191: NOP, whatever its `arg`, does nothing but answer its DONE word. -/
def Obligations.NopOnlyAnswersDone : Prop :=
  ∀ (arg : BitVec 24) (s : State), exec (.nop arg) s = .next { s with output := s.output ++ [0xE0000000#32] }

/-- R192: a valid INIT sets FRAME_SIZE and returns all stream state to its reset values, keeping CTRL
and STATUS; an invalid one only sets ERR_CFG. -/
def Obligations.InitReinitialisesTheStream : Prop :=
  ∀ (n : BitVec 24) (s : State),
    if n.toNat = 0 ∨ s.cfg.fftN < n.toNat then
      exec (.init n) s = .next { s with
        status := s.status ||| 0x0002#16
        output := s.output ++ [0xE2010000#32] }
    else
      ∃ t, exec (.init n) s = .next t ∧ t.frameSize = n ∧ t.cursor = 0#24 ∧ t.chain.silRun = 0#32 ∧
        t.chain.spectral.updCnt = 0#32 ∧ t.chain.gain = 0x3F800000#32 ∧ t.chain.filter.x1 = 0#32 ∧
        t.chain.filter.x2 = 0#32 ∧ t.chain.filter.y1 = 0#32 ∧ t.chain.filter.y2 = 0#32 ∧
        (∀ i : Nat, t.acc.read i = 0#32 ∧ t.chain.spectral.ovl.read i = 0#32 ∧
          t.chain.spectral.prof.read i = 0#32) ∧
        t.cfg = s.cfg ∧ t.ctrl = s.ctrl ∧ t.status = s.status ∧ t.input = s.input ∧
        t.output = s.output ++ [0xE0010000#32]

/-- R194: `WR` writes bits 1:0 of CTRL, clears the STATUS bits 3:0 written with 1, and raises E_REG
for every other register. -/
def Obligations.WrWritesCtrlAndClearsStatus : Prop :=
  ∀ (reg : BitVec 8) (imm16 : BitVec 16) (s : State),
    if reg = 0x00#8 then
      exec (.wr reg imm16) s = .next { s with
        ctrl := imm16 &&& 0x0003#16, output := s.output ++ [0xE0020000#32] }
    else if reg = 0x01#8 then
      exec (.wr reg imm16) s = .next { s with
        status := s.status &&& ~~~(imm16 &&& 0x000F#16), output := s.output ++ [0xE0020000#32] }
    else
      exec (.wr reg imm16) s = .next { s with
        status := s.status ||| 0x0008#16, output := s.output ++ [0xE4020000#32] }

/-- R196 with R22, R24, R148: `RD` answers the register zero-extended, STATUS with SPEC_STATE computed
now, and changes nothing; an index above 0x0B raises E_REG. -/
def Obligations.RdAnswersTheRegister : Prop :=
  ∀ (imm16 : BitVec 16) (s : State),
    let specState : BitVec 16 :=
      if s.chain.spectral.updCnt.toNat = 0 then 0#16
      else if s.chain.spectral.updCnt.toNat < s.cfg.updMax then 1#16 else 2#16
    (∀ (reg : BitVec 8) (v : Word),
      (reg, v) ∈ [(0x00#8, s.ctrl.zeroExtend 32), (0x01#8, (s.status ||| (specState <<< 8)).zeroExtend 32),
        (0x02#8, s.frameSize.zeroExtend 32), (0x03#8, s.cursor.zeroExtend 32), (0x04#8, s.chain.silRun),
        (0x05#8, s.chain.spectral.updCnt), (0x06#8, s.chain.gain), (0x07#8, s.chain.filter.x1),
        (0x08#8, s.chain.filter.x2), (0x09#8, s.chain.filter.y1), (0x0A#8, s.chain.filter.y2),
        (0x0B#8, BitVec.ofNat 32 s.cfg.fftN)] →
      exec (.rd reg imm16) s = .next { s with output := s.output ++ [0xD0000001#32, v, 0xE0030000#32] }) ∧
    ∀ reg : BitVec 8, 0x0B < reg.toNat →
      exec (.rd reg imm16) s = .next { s with
        status := s.status ||| 0x0008#16, output := s.output ++ [0xE4030000#32] }

/-! ### Frame assembler (spec/40_frame_assembler.md) -/

/-- R111, R114 with CHAIN_EN = 0: PUSH emits exactly `(c + n) / L` frames, every sample is in exactly
one of them or still in ACC, in order; CURSOR becomes `(c + n) mod L`; an element of ACC that no
sample was stored to is unchanged; nothing else changes. -/
def Obligations.PushRawLosesNoSample : Prop :=
  ∀ (s : State) (xs : List Word), Legal s → s.chainEn = false → allFinite xs = true →
    ∃ (t : State) (frames : List (List Word)), exec (.push xs) s = .next t ∧
      (∀ f ∈ frames, f.length = s.frameSize.toNat) ∧
      frames.length = (s.cursor.toNat + xs.length) / s.frameSize.toNat ∧
      t.cursor.toNat = (s.cursor.toNat + xs.length) % s.frameSize.toNat ∧
      frames.flatten ++ t.acc.toList t.cursor.toNat = s.acc.toList s.cursor.toNat ++ xs ∧
      (∀ i : Nat, (∀ j, j < xs.length → (s.cursor.toNat + j) % s.frameSize.toNat ≠ i) →
        t.acc.read i = s.acc.read i) ∧
      t = { s with
        cursor := t.cursor
        acc := t.acc
        output := s.output ++ frames.flatMap dataPacket ++ [0xE0200000#32] }

/-- R111, R181 with CHAIN_EN = 1: the completed frames go through the chain one after the other, each
on the state that the one before left, and its outputs are emitted in order. `chainFrames` is the
chain on a list of frames; the premise on it says that no operation overflows (U1). -/
def Obligations.PushRunsTheChainPerFrame : Prop :=
  ∀ (s : State) (xs tail : List Word) (frames outs : List (List Word)) (ch : ChainState), Legal s →
    s.chainEn = true → allFinite xs = true →
    frames.flatten ++ tail = s.acc.toList s.cursor.toNat ++ xs →
    (∀ f ∈ frames, f.length = s.frameSize.toNat) → tail.length < s.frameSize.toNat →
    chainFrames s.cfg s.subEn s.chain frames = some (outs, ch) →
    ∃ t, exec (.push xs) s = .next t ∧ t.cursor.toNat = tail.length ∧ t.acc.toList tail.length = tail ∧
      (∀ i : Nat, (∀ j, j < xs.length → (s.cursor.toNat + j) % s.frameSize.toNat ≠ i) →
        t.acc.read i = s.acc.read i) ∧
      t = { s with
        cursor := t.cursor
        acc := t.acc
        chain := ch
        output := s.output ++ outs.flatMap dataPacket ++ [0xE0200000#32] }

/-- R110, R111: pushing a chunk in two parts has the effect of pushing it whole: the same frames, the
same end state; only the DONE words differ. -/
def Obligations.PushIsIndependentOfTheChunking : Prop :=
  ∀ (s t u : State) (xs ys : List Word), exec (.push xs) s = .next t → exec (.push ys) t = .next u →
    ∃ p q : List Word, t.output = s.output ++ p ++ [0xE0200000#32] ∧
      u.output = t.output ++ q ++ [0xE0200000#32] ∧
      exec (.push (xs ++ ys)) s = .next { u with output := s.output ++ p ++ q ++ [0xE0200000#32] }

/-! ### Biquad (spec/41_biquad.md) -/

/-- R121 on one sample: the five products first, combined left to right as parenthesised, and the
history shifted; each hypothesis names one operation's rounded result. -/
def Obligations.HpfFiltersOneSample : Prop :=
  ∀ (s : State) (x p0 p1 p2 q1 q2 t1 t2 t3 y : Word), F32.isFinite x = true →
    s.cfg.num.mul s.cfg.biquad.b0 x = some p0 → s.cfg.num.mul s.cfg.biquad.b1 s.chain.filter.x1 = some p1 →
    s.cfg.num.mul s.cfg.biquad.b2 s.chain.filter.x2 = some p2 →
    s.cfg.num.mul s.cfg.biquad.a1 s.chain.filter.y1 = some q1 →
    s.cfg.num.mul s.cfg.biquad.a2 s.chain.filter.y2 = some q2 →
    s.cfg.num.add p0 p1 = some t1 → s.cfg.num.add t1 p2 = some t2 → s.cfg.num.sub t2 q1 = some t3 →
    s.cfg.num.sub t3 q2 = some y →
    exec (.hpf [x]) s = .next { s with
      chain := { s.chain with filter := ⟨x, s.chain.filter.x1, y, s.chain.filter.y1⟩ }
      output := s.output ++ [0xD0000001#32, y, 0xE0210000#32] }

/-- R121, R122 on `n` samples: `hpf_step` on each in order, each on the registers that the one before
left; for `n = 0` no DATA packet. -/
def Obligations.HpfFiltersSampleBySample : Prop :=
  ∀ (s : State) (xs : List Word) (y : Nat → Word) (h : Nat → FilterState Word), allFinite xs = true →
    h 0 = s.chain.filter →
    (∀ j, j < xs.length →
      hpfStep s.cfg.num.toArith s.cfg.biquad (h j) (xs.getD j F32.posZero) = some (y j, h (j + 1))) →
    exec (.hpf xs) s = .next { s with
      chain := { s.chain with filter := h xs.length }
      output := s.output ++ packetIfAny ((List.range xs.length).map y) ++ [0xE0210000#32] }

/-- R122: the filter is never reset mid-frame: HPF on a signal in two parts gives the outputs and the
end state of HPF on the whole. -/
def Obligations.HpfIsIndependentOfTheChunking : Prop :=
  ∀ (s t u : State) (xs ys : List Word), exec (.hpf xs) s = .next t → exec (.hpf ys) t = .next u →
    ∃ p q : List Word, p.length = xs.length ∧ q.length = ys.length ∧
      t.output = s.output ++ packetIfAny p ++ [0xE0210000#32] ∧
      u.output = t.output ++ packetIfAny q ++ [0xE0210000#32] ∧
      exec (.hpf (xs ++ ys)) s = .next { u with
        output := s.output ++ packetIfAny (p ++ q) ++ [0xE0210000#32] }

/-- R122: zero samples on zero history give zeros and leave the history zero (zeros of either sign,
U17), under the default numerics; no operation can overflow there. -/
def Obligations.HpfKeepsSilence : Prop :=
  ∀ (s : State) (xs : List Word), s.cfg.valid = true → s.cfg.numerics = .binary32 →
    isZero s.chain.filter.x1 = true → isZero s.chain.filter.x2 = true →
    isZero s.chain.filter.y1 = true → isZero s.chain.filter.y2 = true → xs.all isZero = true →
    ∃ (h : FilterState Word) (ys : List Word),
      exec (.hpf xs) s = .next { s with
        chain := { s.chain with filter := h }
        output := s.output ++ packetIfAny ys ++ [0xE0210000#32] } ∧
      ys.length = xs.length ∧ ys.all isZero = true ∧ isZero h.x1 = true ∧ isZero h.x2 = true ∧
      isZero h.y1 = true ∧ isZero h.y2 = true

/-- R124(a): in exact arithmetic the filter is linear in its history and its input together. -/
def Obligations.HpfIsLinearInExactArithmetic : Prop :=
  ∀ (K : Type) [Field K] (c : Coeffs K) (h k : FilterState K) (xs zs : List K) (a b : K),
    xs.length = zs.length →
    ∃ (ys ws : List K) (h' k' : FilterState K),
      hpfFrame (Arith.exact K) c h xs = some (ys, h') ∧ hpfFrame (Arith.exact K) c k zs = some (ws, k') ∧
      hpfFrame (Arith.exact K) c
          ⟨a * h.x1 + b * k.x1, a * h.x2 + b * k.x2, a * h.y1 + b * k.y1, a * h.y2 + b * k.y2⟩
          (List.zipWith (fun x z => a * x + b * z) xs zs)
        = some (List.zipWith (fun y w => a * y + b * w) ys ws,
          ⟨a * h'.x1 + b * k'.x1, a * h'.x2 + b * k'.x2, a * h'.y1 + b * k'.y1, a * h'.y2 + b * k'.y2⟩)

/-! ### Voice activity detector (spec/42_vad.md) -/

/-- R132, R133: speech needs both measures strictly above their thresholds; SIL_RUN returns to 0 on
speech and counts up, saturating, otherwise; both words are answered; a frame of another length is
E_SIZE. The crossing rate is one division (log 15). -/
def Obligations.VadClassifiesTheFrame : Prop :=
  ∀ (s : State) (xs : List Word),
    (xs.length ≠ s.frameSize.toNat → exec (.vad xs) s = .next { s with
      status := s.status ||| 0x0004#16, output := s.output ++ [0xE3220000#32] }) ∧
    (xs.length = s.frameSize.toNat → allFinite xs = true → ∀ r z : Word, rms s.cfg.num xs = some r →
      crossingRate s.cfg.num xs = some z →
      let speech := F32.lt s.cfg.vad.eth r && F32.lt s.cfg.vad.zth z
      let run := if speech then 0#32 else BitVec.ofNat 32 (min (s.chain.silRun.toNat + 1) (2 ^ 32 - 1))
      exec (.vad xs) s = .next { s with
        chain := { s.chain with silRun := run }
        output := s.output ++ [0xD0000002#32, if speech then 1#32 else 0#32, run, 0xE0220000#32] })

/-- R131, for every numerics: the sum of squares is accumulated from the first sample up, starting
from +0.0, then one division by `n` and one root; the crossings are the places where the sign test
changes; the rate is their number over `n`. -/
def Obligations.FrameMeasures : Prop :=
  ∀ (num : Sys2Proof.Num) (f : List Word),
    (∀ r, rms num f = some r ↔ ∃ (sum : Nat → Word) (n mean : Word), sum 0 = num.zero ∧
      (∀ i, i < f.length → ∃ q, num.mul (f.getD i F32.posZero) (f.getD i F32.posZero) = some q ∧
        num.add (sum i) q = some (sum (i + 1))) ∧
      num.fromNat f.length = some n ∧ num.div (sum f.length) n = some mean ∧ num.sqrt mean = some r) ∧
    crossings f = ((List.range (f.length - 1)).filter (fun i =>
      F32.lt (f.getD (i + 1) F32.posZero) F32.posZero != F32.lt (f.getD i F32.posZero) F32.posZero)).length ∧
    crossings f ≤ f.length - 1 ∧
    ∀ z, crossingRate num f = some z ↔ ∃ a n : Word, num.fromNat (crossings f) = some a ∧
      num.fromNat f.length = some n ∧ num.div a n = some z

/-- R133: an all-zero frame is silence under the default numerics, with no premise on overflow. -/
def Obligations.VadCallsZeroFramesSilence : Prop :=
  ∀ (s : State) (xs : List Word), Legal s → s.cfg.numerics = .binary32 →
    xs.length = s.frameSize.toNat → xs.all isZero = true →
    let run : BitVec 32 := BitVec.ofNat 32 (min (s.chain.silRun.toNat + 1) (2 ^ 32 - 1))
    exec (.vad xs) s = .next { s with
      chain := { s.chain with silRun := run }
      output := s.output ++ [0xD0000002#32, 0x00000000#32, run, 0xE0220000#32] }

/-! ### Transform (spec/43_spectral.md section 2) -/

/-- R145: FFTF answers all `FFT_N` bins of the transform of the samples, real part then imaginary part,
and changes nothing; another length is E_SIZE. -/
def Obligations.FftfAnswersTheSpectrum : Prop :=
  ∀ (s : State) (xs : List Word),
    (xs.length ≠ s.cfg.fftN → exec (.fftf xs) s = .next { s with
      status := s.status ||| 0x0004#16, output := s.output ++ [0xE3260000#32] }) ∧
    (xs.length = s.cfg.fftN → allFinite xs = true → ∀ y : List (Word × Word),
      fftInPlace s.cfg.num.toArith (Rom.tw s.cfg.fftN) (Nat.log2 s.cfg.fftN)
        (xs.map (fun x => (x, 0x00000000#32))) = some y →
      exec (.fftf xs) s = .next { s with
        output := s.output ++ dataPacket (flattenPairs y) ++ [0xE0260000#32] })

/-- R146: FFTI answers the real part of the inverse transform and changes nothing; another length is
E_SIZE. -/
def Obligations.FftiAnswersTheSignal : Prop :=
  ∀ (s : State) (bins : List (Word × Word)),
    (bins.length ≠ s.cfg.fftN → exec (.ffti bins) s = .next { s with
      status := s.status ||| 0x0004#16, output := s.output ++ [0xE3400000#32] }) ∧
    (bins.length = s.cfg.fftN → allFinite (flattenPairs bins) = true → ∀ (n : Word) (y : List (Word × Word)),
      s.cfg.num.fromNat s.cfg.fftN = some n →
      ifftInPlace s.cfg.num.toArith (Rom.tw s.cfg.fftN) (Nat.log2 s.cfg.fftN) n bins = some y →
      exec (.ffti bins) s = .next { s with
        output := s.output ++ dataPacket (y.map Prod.fst) ++ [0xE0400000#32] })

/-- R143, R144: in exact arithmetic with the exact twiddle table, the schedule of R144 computes the
DFT sums. -/
def Obligations.FftComputesTheDft : Prop :=
  ∀ (p : Nat) (x : List (ℝ × ℝ)), x.length = 2 ^ p →
    ∃ y, fftInPlace (Arith.exact ℝ)
        (fun t => (Real.cos (2 * Real.pi * t / 2 ^ p), -Real.sin (2 * Real.pi * t / 2 ^ p))) p x = some y ∧
      y.length = 2 ^ p ∧
      ∀ k, k < 2 ^ p → (⟨(y.getD k (0, 0)).1, (y.getD k (0, 0)).2⟩ : ℂ) =
        ∑ n ∈ Finset.range (2 ^ p), (⟨(x.getD n (0, 0)).1, (x.getD n (0, 0)).2⟩ : ℂ) *
          Complex.exp (-(2 * Real.pi * k * n / 2 ^ p : ℝ) * Complex.I)

/-- R143: in exact arithmetic the inverse transform undoes the forward one. -/
def Obligations.InverseUndoesTheFft : Prop :=
  ∀ (p : Nat) (x : List (ℝ × ℝ)), x.length = 2 ^ p →
    ∃ y, fftInPlace (Arith.exact ℝ)
        (fun t => (Real.cos (2 * Real.pi * t / 2 ^ p), -Real.sin (2 * Real.pi * t / 2 ^ p))) p x = some y ∧
      ifftInPlace (Arith.exact ℝ)
        (fun t => (Real.cos (2 * Real.pi * t / 2 ^ p), -Real.sin (2 * Real.pi * t / 2 ^ p))) p (2 ^ p : ℝ) y
          = some x

/-- R141, R142: the window is symmetric and 0 at its first entry, and the twiddle table has the values
1 and -i exactly. -/
def Obligations.RomTablesAreExactWhereTheRuleIs : Prop :=
  (∀ n i : Nat, i < n → Rom.win n i = Rom.win n (n - 1 - i)) ∧
  (∀ n : Nat, Rom.win n 0 = 0x00000000#32) ∧
  (∀ n : Nat, 0 < n → Rom.tw n 0 = (0x3F800000#32, 0x00000000#32)) ∧
  (∀ n : Nat, 0 < n → n % 4 = 0 → Rom.tw n (n / 4) = (0x00000000#32, 0xBF800000#32)) ∧
  (List.range 4).map (Rom.win 4) = [0x00000000#32, 0x3F400000#32, 0x3F400000#32, 0x00000000#32]

/-! ### Spectral engine (spec/43_spectral.md section 3) -/

/-- R153: SPEC answers the frame of the engine's step and keeps everything but the engine's state;
another length is E_SIZE. Where the gates of R149 and R150 are both closed it answers the very samples
it was given, whatever they are, and changes nothing (log 14). -/
def Obligations.SpecRunsTheEngine : Prop :=
  ∀ (s : State) (xs : List Word),
    (xs.length ≠ s.frameSize.toNat → exec (.spec xs) s = .next { s with
      status := s.status ||| 0x0004#16, output := s.output ++ [0xE3230000#32] }) ∧
    (xs.length = s.frameSize.toNat → allFinite xs = true → ∀ (g : List Word) (e : SpectralState),
      specFrame s.cfg.num s.cfg s.subEn s.chain.silRun s.chain.spectral xs = some (g, e) →
      exec (.spec xs) s = .next { s with
        chain := { s.chain with spectral := e }
        output := s.output ++ dataPacket g ++ [0xE0230000#32] }) ∧
    (xs.length = s.frameSize.toNat → allFinite xs = true →
      ¬ (s.chain.spectral.updCnt.toNat < s.cfg.updMax ∧ s.cfg.silMin < s.chain.silRun.toNat) →
      ¬ (s.chain.spectral.updCnt.toNat = s.cfg.updMax ∧ s.ctrl.getLsbD 0 = true) →
      exec (.spec xs) s = .next { s with output := s.output ++ dataPacket xs ++ [0xE0230000#32] })

/-- R147, for every numerics: the frame is padded with +0.0 at its end, windowed, transformed, and the
magnitude of each bin `0 .. FFT_N/2` is the root of the sum of its squares. -/
def Obligations.AnalysisWindowsPadsAndTransforms : Prop :=
  ∀ (num : Sys2Proof.Num) (c : Cfg) (f : List Word) (x : List (Word × Word)) (mag : List Word),
    analyse num c f = some (x, mag) →
    (∃ z : List (Word × Word), z.length = c.fftN ∧ forward num c z = some x ∧
      ∀ i, i < c.fftN → (z.getD i (F32.posZero, F32.posZero)).2 = 0x00000000#32 ∧
        num.mul (Rom.win c.fftN i) (if i < f.length then f.getD i F32.posZero else 0x00000000#32)
          = some (z.getD i (F32.posZero, F32.posZero)).1) ∧
    mag.length = c.fftN / 2 + 1 ∧
    ∀ k, k ≤ c.fftN / 2 → ∃ a b q : Word,
      num.mul (x.getD k (F32.posZero, F32.posZero)).1 (x.getD k (F32.posZero, F32.posZero)).1 = some a ∧
      num.mul (x.getD k (F32.posZero, F32.posZero)).2 (x.getD k (F32.posZero, F32.posZero)).2 = some b ∧
      num.add a b = some q ∧ num.sqrt q = some (mag.getD k F32.posZero)

/-- R149, for every numerics: the engine's step updates the profile exactly when UPD_CNT < UPD_MAX and
SIL_RUN > SIL_MIN, whatever SUB_EN is; the first update copies the magnitudes, a later one smooths
each bin against its own previous value, with the ROM constant `1 - ALPHA` (log 18); UPD_CNT counts it. -/
def Obligations.ProfileTracksSilence : Prop :=
  ∀ (num : Sys2Proof.Num) (c : Cfg) (subEn : Bool) (run : BitVec 32) (e e' : SpectralState) (f g : List Word),
    specFrame num c subEn run e f = some (g, e') →
    if e.updCnt.toNat < c.updMax ∧ c.silMin < run.toNat then
      e'.updCnt = e.updCnt + 1#32 ∧
      ∃ (x : List (Word × Word)) (mag : List Word), analyse num c f = some (x, mag) ∧
        ∀ k, k ≤ c.fftN / 2 →
          if e.updCnt.toNat = 0 then e'.prof.read k = mag.getD k F32.posZero
          else ∃ rest a b : Word, F32.sub 0x3F800000#32 c.alpha = some rest ∧
            num.mul c.alpha (mag.getD k F32.posZero) = some a ∧ num.mul rest (e.prof.read k) = some b ∧
            num.add a b = some (e'.prof.read k)
    else e'.updCnt = e.updCnt ∧ e'.prof = e.prof

/-- R150, for every numerics: with UPD_CNT the count after tracking, the step subtracts exactly when
UPD_CNT = UPD_MAX and SUB_EN = 1; otherwise it returns the very samples it was given and leaves OVL. -/
def Obligations.SubtractionRunsOnlyWhenActive : Prop :=
  ∀ (num : Sys2Proof.Num) (c : Cfg) (subEn : Bool) (run : BitVec 32) (e e' : SpectralState) (f g : List Word),
    specFrame num c subEn run e f = some (g, e') →
    if e'.updCnt.toNat = c.updMax ∧ subEn = true then
      ∃ (x x2 : List (Word × Word)) (mag out : List Word), analyse num c f = some (x, mag) ∧
        subtractSpectrum num c x mag e'.prof = some x2 ∧
        synthesise num c x2 e.ovl = some (out, e'.ovl) ∧ g = out.take f.length
    else g = f ∧ e'.ovl = e.ovl

/-- R151, for every numerics: each bin up to `FFT_N/2` gets `M2 = max(MAG - A_OS*PROF, BETA*MAG)` with
the phase kept, in the polar or in the scaling form of the rule (log 5), +0.0 where the magnitude is
zero; the bins above are the conjugates of their mirror images. -/
def Obligations.SubtractedSpectrumIsMirrored : Prop :=
  ∀ (num : Sys2Proof.Num) (c : Cfg) (x y : List (Word × Word)) (mag : List Word) (prof : Memory),
    subtractSpectrum num c x mag prof = some y →
    y.length = c.fftN ∧
    (∀ k, k ≤ c.fftN / 2 → k < c.fftN →
      let m := mag.getD k F32.posZero
      let b := x.getD k (F32.posZero, F32.posZero)
      let r := y.getD k (F32.posZero, F32.posZero)
      ∃ os diff least : Word, num.mul c.aOs (prof.read k) = some os ∧ num.sub m os = some diff ∧
        num.mul c.beta m = some least ∧
        if F32.toInt m = 0 then r = (0x00000000#32, 0x00000000#32)
        else
          match c.spectrum with
          | .polar => ∃ ph cs sn : Word, num.atan2 b.2 b.1 = some ph ∧ num.cos ph = some cs ∧
              num.sin ph = some sn ∧ num.mul (F32.max diff least) cs = some r.1 ∧
              num.mul (F32.max diff least) sn = some r.2
          | .scaling => ∃ q : Word, num.div (F32.max diff least) m = some q ∧
              num.mul b.1 q = some r.1 ∧ num.mul b.2 q = some r.2) ∧
    ∀ k, c.fftN / 2 < k → k < c.fftN →
      y.getD k (F32.posZero, F32.posZero) =
        ((y.getD (c.fftN - k) (F32.posZero, F32.posZero)).1,
          num.neg (y.getD (c.fftN - k) (F32.posZero, F32.posZero)).2)

/-- R152, for every numerics: the inverse is windowed again; its first half is summed with OVL, its
second half is emitted as it is and becomes the new OVL. -/
def Obligations.SynthesisOverlapsAndAdds : Prop :=
  ∀ (num : Sys2Proof.Num) (c : Cfg) (x : List (Word × Word)) (ovl ovl' : Memory) (out : List Word),
    c.valid = true → synthesise num c x ovl = some (out, ovl') →
    ∃ (y : List (Word × Word)) (r : Nat → Word), inverse num c x = some y ∧ out.length = c.fftN ∧
      (∀ i, i < c.fftN → num.mul (Rom.win c.fftN i) (y.getD i (F32.posZero, F32.posZero)).1 = some (r i)) ∧
      (∀ i, i < c.fftN / 2 → num.add (r i) (ovl.read i) = some (out.getD i F32.posZero)) ∧
      (∀ i, c.fftN / 2 ≤ i → i < c.fftN → out.getD i F32.posZero = r i) ∧
      ∀ i, i < c.fftN / 2 → ovl'.read i = r (c.fftN / 2 + i)

/-- R151, R154(c) under the default numerics: the suppressed magnitude is never below the floor
`BETA*MAG`, and never negative. -/
def Obligations.SuppressionKeepsTheFloor : Prop :=
  ∀ (c : Cfg) (mag prof m : Word), c.valid = true → F32.le F32.posZero mag = true →
    suppressed Num.binary32 c mag prof = some m →
    ∃ least, F32.mul c.beta mag = some least ∧ F32.le least m = true ∧ F32.le F32.posZero m = true

/-- R28, R148, R154(b): once UPD_CNT = UPD_MAX the profile and the count never change again but by a
valid INIT or RESET, which return the count to 0; before that the count only grows. The RESET event on
the stream (log 8), and that a whole command before it runs first while an incomplete one is dropped
with it (log 10), are the model's choice. -/
def Obligations.ActiveProfileIsFrozen : Prop :=
  ∀ s t : State, Legal s → step s = .next t →
    (reinitialises s → t.chain.spectral.updCnt = 0#32) ∧
    (¬ reinitialises s →
      s.chain.spectral.updCnt.toNat ≤ t.chain.spectral.updCnt.toNat ∧
      t.chain.spectral.updCnt.toNat ≤ t.cfg.updMax ∧
      (s.chain.spectral.updCnt.toNat = s.cfg.updMax →
        t.chain.spectral.updCnt = s.chain.spectral.updCnt ∧ t.chain.spectral.prof = s.chain.spectral.prof))

/-! ### Gain control (spec/44_agc.md) -/

/-- R171, R172: RMS, target gain, clamp, smoothing, then the NEW gain scales every sample and the
product is clipped to [-1, 1]; each hypothesis names one operation's rounded result; another length
is E_SIZE. -/
def Obligations.AgcScalesWithTheNewGain : Prop :=
  ∀ (s : State) (xs : List Word),
    (xs.length ≠ s.frameSize.toNat → exec (.agc xs) s = .next { s with
      status := s.status ||| 0x0004#16, output := s.output ++ [0xE3240000#32] }) ∧
    (xs.length = s.frameSize.toNat → allFinite xs = true →
      ∀ (r tg d m g : Word) (v : Nat → Word), rms s.cfg.num xs = some r →
        s.cfg.num.div s.cfg.agc.target (F32.max r s.cfg.agc.eps) = some tg →
        s.cfg.num.sub (F32.min (F32.max tg s.cfg.agc.min) s.cfg.agc.max) s.chain.gain = some d →
        s.cfg.num.mul s.cfg.agc.mu d = some m → s.cfg.num.add s.chain.gain m = some g →
        (∀ i, i < xs.length → s.cfg.num.mul g (xs.getD i F32.posZero) = some (v i)) →
        exec (.agc xs) s = .next { s with
          chain := { s.chain with gain := g }
          output := s.output ++ dataPacket ((List.range xs.length).map (fun i =>
            F32.min (F32.max (v i) 0xBF800000#32) 0x3F800000#32)) ++ [0xE0240000#32] })

/-- R173(a), (b), for every numerics: the clamped gain lies in [AGC_MIN, AGC_MAX] and every output
sample in [-1, 1]. -/
def Obligations.AgcStaysInRange : Prop :=
  ∀ (num : Sys2Proof.Num) (p : AgcParams) (gain gain' : Word) (f o : List Word), p.valid = true →
    agcFrame num p gain f = some (o, gain') →
    (∃ cg, clampedGain num p f = some cg ∧ F32.le p.min cg = true ∧ F32.le cg p.max = true) ∧
    o.length = f.length ∧
    ∀ v ∈ o, F32.le 0xBF800000#32 v = true ∧ F32.le v 0x3F800000#32 = true

/-- R172: AGC leaves zero frames zero under the default numerics, whatever the gain does. -/
def Obligations.AgcKeepsSilence : Prop :=
  ∀ (s t : State) (xs : List Word), s.cfg.numerics = .binary32 → xs.length = s.frameSize.toNat →
    xs.all isZero = true → exec (.agc xs) s = .next t →
    ∃ ys : List Word, ys.length = xs.length ∧ ys.all isZero = true ∧
      t = { s with
        chain := { s.chain with gain := t.chain.gain }
        output := s.output ++ dataPacket ys ++ [0xE0240000#32] }

/-! ### The chain (spec/45_chain.md) -/

/-- R180, for every numerics: no fade up to FADE_THRESH, zeros from FADE_THRESH + FADE_LEN + 1 on, and
between them the weight `1 - (q*L + i)/(FADE_LEN*L)` on sample `i`. -/
def Obligations.FadeIsALinearRamp : Prop :=
  ∀ (num : Sys2Proof.Num) (p : FadeParams) (run : BitVec 32) (h g : List Word), fade num p run h = some g →
    if run.toNat ≤ p.thresh then g = h
    else if p.len ≤ run.toNat - p.thresh - 1 then g = List.replicate h.length 0x00000000#32
    else g.length = h.length ∧ ∀ i, i < h.length → ∃ a b d w : Word,
      num.fromNat ((run.toNat - p.thresh - 1) * h.length + i) = some a ∧
      num.fromNat (p.len * h.length) = some b ∧ num.div a b = some d ∧
      num.sub 0x3F800000#32 d = some w ∧ num.mul w (h.getD i F32.posZero) = some (g.getD i F32.posZero)

/-- R181, R182: PREP runs filter, detector on the filtered frame, fade, engine on the faded frame and
gain control, each on the whole output of the one before; another length is E_SIZE. -/
def Obligations.PrepRunsTheStagesInOrder : Prop :=
  ∀ (s : State) (xs : List Word),
    (xs.length ≠ s.frameSize.toNat → exec (.prep xs) s = .next { s with
      status := s.status ||| 0x0004#16, output := s.output ++ [0xE3250000#32] }) ∧
    (xs.length = s.frameSize.toNat → allFinite xs = true →
      ∀ (h g d o : List Word) (filter : FilterState Word) (speech : Bool) (run : BitVec 32)
        (e : SpectralState) (gain : Word),
        hpfFrame s.cfg.num.toArith s.cfg.biquad s.chain.filter xs = some (h, filter) →
        vadFrame s.cfg.num s.cfg.vad s.chain.silRun h = some (speech, run) →
        fade s.cfg.num s.cfg.fade run h = some g →
        specFrame s.cfg.num s.cfg s.subEn run s.chain.spectral g = some (d, e) →
        agcFrame s.cfg.num s.cfg.agc s.chain.gain d = some (o, gain) →
        exec (.prep xs) s = .next { s with
          chain := ⟨filter, run, e, gain⟩
          output := s.output ++ dataPacket o ++ [0xE0250000#32] })

/-- R182: PREP of a frame has exactly the effect on the chain's state, and the DATA payload, of the
same frame completed by PUSH with CHAIN_EN = 1. -/
def Obligations.PrepEqualsPushOfOneFrame : Prop :=
  ∀ (s t : State) (xs : List Word), Legal s → s.chainEn = true → s.cursor = 0#24 →
    xs.length = s.frameSize.toNat → exec (.prep xs) s = .next t →
    ∃ (u : State) (data : List Word), exec (.push xs) s = .next u ∧ u.chain = t.chain ∧ u.cursor = 0#24 ∧
      t.output = s.output ++ dataPacket data ++ [0xE0250000#32] ∧
      u.output = s.output ++ dataPacket data ++ [0xE0200000#32]

/-! ### The whole machine -/

/-- The invariant of Safety.lean (R23 to R28, R40 to R42, R246) holds after reset. -/
def Obligations.ResetMeetsTheInvariant : Prop := Legal State.reset

/-- Every step keeps the invariant (R23 to R28, R246): legal FRAME_SIZE, CURSOR below it, UPD_CNT at
most UPD_MAX, reserved bits zero, arrays canonical and in range, all samples finite. -/
def Obligations.EveryStepKeepsTheInvariant : Prop :=
  ∀ s t : State, Legal s → step s = .next t → Legal t

/-- R60, R245: in a legal state no command makes an access outside an array, so no step faults. -/
def Obligations.NoStepFaults : Prop := ∀ s : State, Legal s → neverFaults s

/-- R86, R87: every command is answered with zero or more whole DATA packets, none when the status is
not 0, and then one DONE word with the status code and the echo of `op`; and the host's parser finds
exactly these. -/
def Obligations.EveryResponseIsWellFormed : Prop :=
  ∀ (s t : State) (i : Instr), Legal s → i.wellFormed = true → exec i s = .next t →
    ∃ packets : List (List Word),
      let done : Word := 0xE0000000#32 ||| ((doneCode (errorOf s i)).zeroExtend 32 <<< 24)
        ||| (i.opcode.bits.zeroExtend 32 <<< 16)
      let answer := packets.flatMap (fun p => (0xD0000000#32 ||| BitVec.ofNat 32 p.length) :: p) ++ [done]
      t.output = s.output ++ answer ∧
      (∀ p ∈ packets, 1 ≤ p.length ∧ p.length < 2 ^ 24) ∧
      (errorOf s i ≠ none → packets = []) ∧
      parseResponse (answer.length + 1) answer = some (packets, done, [])

/-- R20, R66: what a command does and answers depends on the architectural state alone, not on what
is still to come or has been answered before. -/
def Obligations.CommandsDoNotSeeTheStreams : Prop :=
  ∀ (s s' : State) (i : Instr), sameMachine s s' →
    (∀ r, exec i s = .refused r ↔ exec i s' = .refused r) ∧
    ∀ t, exec i s = .next t → ∃ (t' : State) (answer : List Word), exec i s' = .next t' ∧ sameMachine t t' ∧
      t.output = s.output ++ answer ∧ t'.output = s'.output ++ answer ∧
      t.input = s.input ∧ t'.input = s'.input

/-- R22's table of what each register and array is written by, and R24, R25, R41, R42: whatever differs
after a command, the command is one that the table names for it. -/
def Obligations.StateIsWrittenOnlyByItsCommands : Prop :=
  ∀ (s t : State) (i : Instr), exec i s = .next t →
    let isInit := ∃ n, i = .init n
    let isPush := ∃ xs, i = .push xs
    let runsChain := (∃ xs, i = .prep xs) ∨ (s.chainEn = true ∧ isPush)
    t.cfg = s.cfg ∧ t.input = s.input ∧
    (t.ctrl ≠ s.ctrl → ∃ imm, i = .wr 0x00#8 imm) ∧
    (t.status ≠ s.status → errorOf s i ≠ none ∨ ∃ imm, i = .wr 0x01#8 imm) ∧
    (t.frameSize ≠ s.frameSize → isInit) ∧
    (t.cursor ≠ s.cursor → isPush ∨ isInit) ∧
    ((∃ k, t.acc.read k ≠ s.acc.read k) → isPush ∨ isInit) ∧
    (t.chain.filter ≠ s.chain.filter → (∃ xs, i = .hpf xs) ∨ runsChain ∨ isInit) ∧
    (t.chain.silRun ≠ s.chain.silRun → (∃ xs, i = .vad xs) ∨ runsChain ∨ isInit) ∧
    (t.chain.spectral ≠ s.chain.spectral → (∃ xs, i = .spec xs) ∨ runsChain ∨ isInit) ∧
    (t.chain.gain ≠ s.chain.gain → (∃ xs, i = .agc xs) ∨ runsChain ∨ isInit)

/-! ### The default numerics (spec/48_arithmetic_and_classes.md R302 to R305) -/

/-- R304: a sum or difference is the finite word nearest the exact value, of two equally near the one
whose last bit is 0; it is delivered whenever the exact value is within the largest finite one. -/
def Obligations.SumsRoundToNearestEven : Prop :=
  ∀ a b : Word, F32.isFinite a = true → F32.isFinite b = true →
    ∀ (op : Word → Word → Option Word) (exact : Int),
      (op = F32.add ∧ exact = F32.toInt a + F32.toInt b) ∨
        (op = F32.sub ∧ exact = F32.toInt a - F32.toInt b) →
      (exact.natAbs ≤ F32.mag 0x7F7FFFFF#32 → (op a b).isSome = true) ∧
      ∀ w, op a b = some w → F32.isFinite w = true ∧ ∀ v : Word, F32.isFinite v = true →
        (F32.toInt w - exact).natAbs ≤ (F32.toInt v - exact).natAbs ∧
        ((F32.toInt w - exact).natAbs = (F32.toInt v - exact).natAbs → F32.toInt v ≠ F32.toInt w →
          w.getLsbD 0 = false)

/-- R304: a product or quotient is the finite word nearest the exact value, of two equally near the one
whose last bit is 0; it is delivered whenever the exact value is within the largest finite one. In
units of 2^-149 the product is `A*B / 2^149` and the quotient `A * 2^149 / B`. -/
def Obligations.ProductsRoundToNearestEven : Prop :=
  ∀ (a b : Word) (op : Word → Word → Option Word) (num den : Int),
    (op = F32.mul ∧ num = F32.toInt a * F32.toInt b ∧ den = 2 ^ 149) ∨
      (op = F32.div ∧ num = F32.toInt a * 2 ^ 149 ∧ den = F32.toInt b) →
    (F32.isFinite a = true → F32.isFinite b = true → den ≠ 0 →
      num.natAbs ≤ F32.mag 0x7F7FFFFF#32 * den.natAbs → (op a b).isSome = true) ∧
    ∀ w, op a b = some w → F32.isFinite w = true ∧ ∀ v : Word, F32.isFinite v = true →
      (F32.toInt w * den - num).natAbs ≤ (F32.toInt v * den - num).natAbs ∧
      ((F32.toInt w * den - num).natAbs = (F32.toInt v * den - num).natAbs → F32.toInt v ≠ F32.toInt w →
        w.getLsbD 0 = false)

/-- R304: the root is correctly rounded: no finite word is nearer the real root; it is delivered for
every finite word that is not negative. -/
def Obligations.RootsRoundToNearest : Prop :=
  ∀ a : Word, F32.isFinite a = true → F32.le F32.posZero a = true →
    ∃ w, F32.sqrt a = some w ∧ ∀ v : Word, F32.isFinite v = true →
      |(F32.toInt w : ℝ) - Real.sqrt (F32.toInt a * 2 ^ 149)| ≤
        |(F32.toInt v : ℝ) - Real.sqrt (F32.toInt a * 2 ^ 149)|

/-- R302: a natural number up to 2^24 becomes a sample value exactly. -/
def Obligations.SmallNaturalsAreExact : Prop :=
  ∀ n : Nat, n ≤ 2 ^ 24 → ∃ w, F32.fromNat n = some w ∧ F32.isFinite w = true ∧ F32.toInt w = n * 2 ^ 149

/-! ### Values outside the contract (spec/93_implementation_defined.md U1, spec/48_arithmetic_and_classes.md R305) -/

/-- U1, R305(a) (log 6): a command that uses its payload refuses a sample that is not finite, and a
command whose computation meets a value that is not finite refuses it. -/
def Obligations.NonFiniteValuesAreRefused : Prop :=
  ∀ (s : State) (xs : List Word),
    (allFinite xs = false →
      exec (.push xs) s = .refused .nonFiniteSample ∧ exec (.hpf xs) s = .refused .nonFiniteSample ∧
      (xs.length = s.frameSize.toNat →
        exec (.vad xs) s = .refused .nonFiniteSample ∧ exec (.spec xs) s = .refused .nonFiniteSample ∧
        exec (.agc xs) s = .refused .nonFiniteSample ∧ exec (.prep xs) s = .refused .nonFiniteSample) ∧
      (xs.length = s.cfg.fftN → exec (.fftf xs) s = .refused .nonFiniteSample) ∧
      ∀ bins : List (Word × Word), flattenPairs bins = xs → bins.length = s.cfg.fftN →
        exec (.ffti bins) s = .refused .nonFiniteSample) ∧
    (allFinite xs = true →
      (hpfFrame s.cfg.num.toArith s.cfg.biquad s.chain.filter xs = none →
        exec (.hpf xs) s = .refused .nonFiniteResult) ∧
      (xs.length = s.frameSize.toNat →
        (vadFrame s.cfg.num s.cfg.vad s.chain.silRun xs = none →
          exec (.vad xs) s = .refused .nonFiniteResult) ∧
        (specFrame s.cfg.num s.cfg s.subEn s.chain.silRun s.chain.spectral xs = none →
          exec (.spec xs) s = .refused .nonFiniteResult) ∧
        (agcFrame s.cfg.num s.cfg.agc s.chain.gain xs = none →
          exec (.agc xs) s = .refused .nonFiniteResult) ∧
        (preprocess s.cfg.num s.cfg s.subEn s.chain xs = none →
          exec (.prep xs) s = .refused .nonFiniteResult)) ∧
      (xs.length = s.cfg.fftN → forward s.cfg.num s.cfg (ofReal xs) = none →
        exec (.fftf xs) s = .refused .nonFiniteResult) ∧
      (∀ bins : List (Word × Word), flattenPairs bins = xs → bins.length = s.cfg.fftN →
        inverse s.cfg.num s.cfg bins = none → exec (.ffti bins) s = .refused .nonFiniteResult) ∧
      ∀ (frames : List (List Word)) (tail : List Word), Legal s → s.chainEn = true →
        frames.flatten ++ tail = s.acc.toList s.cursor.toNat ++ xs →
        (∀ f ∈ frames, f.length = s.frameSize.toNat) → tail.length < s.frameSize.toNat →
        chainFrames s.cfg s.subEn s.chain frames = none → exec (.push xs) s = .refused .nonFiniteResult)

/-! ### The environment (spec/47_environment.md) -/

/-- R220, R221: `fill` always writes the whole block: the next samples due, then silence; what it
delivered is what is no longer due, and an underrun is counted. -/
def Obligations.FillDeliversAWholeBlock : Prop :=
  ∀ (e : Env) (m : Nat), e.wellFormed = true →
    (e.fill m).1 = e.pending.take m ++ List.replicate (m - e.pending.length) 0x00000000#32 ∧
    (e.fill m).2.pending = e.pending.drop m ∧ (e.fill m).2.wellFormed = true ∧
    (e.fill m).2.underruns = e.underruns + (if e.pending.length < m then 1 else 0) ∧
    (e.fill m).2.pfq = e.pfq ∧ (e.fill m).2.failLog = e.failLog

/-- R213 to R216, R218: `Exchanged` (frames come back in submission order, each as the engine's answer
or as a silent frame of its length) holds at the start; every event keeps it, playback and the
emptying of the queues included, for every QDEPTH and engine; so it holds of every interleaving of
submissions, replies, deliveries and playback; and with unbounded queues a result that waits can be
delivered. A frame that configuration S appends goes past the exchange to the end of OFQ. That the
handles count on when the queues are emptied is the model's choice (log 24). -/
def Obligations.ResultsComeBackInOrder : Prop :=
  Exchanged [] [] 0 0 Env.start ∧
  (∀ (qdepth : Option Nat) (eng : Engine) (e e' : Env) (ev : EnvEvent) (out : List Word)
      (submitted : List (List Word)) (replies : List (Except EngineError (List Word))) (first played : Nat),
    Exchanged submitted replies first played e → e.event qdepth eng ev = some (out, e') →
    match ev with
    | .submit f => Exchanged (submitted ++ [f]) replies first played e'
    | .process r => Exchanged submitted (replies ++ [r]) first played e'
    | .deliver => Exchanged submitted replies first played e'
    | .fill _ => ∃ k, Exchanged submitted replies first (played + k) e' ∧ e'.ofq = e.ofq.drop k
    | .reset => Exchanged [] [] e.nextH 0 e'
    | .append f => e' = { e with ofq := e.ofq ++ [f] }) ∧
  (∀ (qdepth : Option Nat) (eng : Engine) (evs : List EnvEvent) (out : List Word) (e : Env),
    (∀ ev ∈ evs, ev ≠ .reset ∧ ∀ f, ev ≠ .append f) → Env.run qdepth eng Env.start evs = some (out, e) →
    ∃ played, Exchanged (submittedFrames evs) (engineReplies evs) 0 played e ∧
      (samplesAsked evs = 0 → played = 0)) ∧
  ∀ (eng : Engine) (e : Env) (submitted : List (List Word)) (replies : List (Except EngineError (List Word)))
      (first played : Nat),
    Exchanged submitted replies first played e → e.results ≠ [] →
    ∃ e', e.event none eng .deliver = some ([], e')

/-- R223: with an engine that always fails, playback is silent and never short: in the environment
alone, and end to end with BHF driven by callbacks, INITs and other commands (configuration E). That a
callback is one event of an end to end run, and that no RESET is one, are the model's choices (log 23,
log 25). -/
def Obligations.DeadEnginePlaysSilence : Prop :=
  (∀ (qdepth : Option Nat) (eng : Engine) (evs : List EnvEvent) (out : List Word) (e : Env),
    (∀ ev ∈ evs, (∀ r, ev = .process r → ∃ err, r = .error err) ∧ ∀ f, ev ≠ .append f) →
    Env.run qdepth eng Env.start evs = some (out, e) →
    out = List.replicate (samplesAsked evs) 0x00000000#32) ∧
  ∀ (eng : Engine) (s : State) (evs : List WorldEvent) (out : List Word) (x : World),
    (∀ ev ∈ evs, ∀ r, ev = .process r → ∃ err, r = .error err) →
    World.run .engine eng ⟨s, Env.start⟩ evs = some (out, x) →
    out = List.replicate (callbackSamples evs) 0x00000000#32

/-- R222: one real-time callback plays a block as long as the block it was given, in both wirings, and
the machine keeps its frame size and its configuration; it completes on every block of finite samples
where BHF emits raw frames and the queues are unbounded. R216, R217: a valid INIT, of the engine's
frame length too, empties the queues in the same operation; a rejected one leaves them. That a callback is one
event, and that the next handle stays at an INIT, are the model's choices (log 23, log 24). -/
def Obligations.CallbackPlaysAFullBlockAndInitEmptiesTheQueues : Prop :=
  (∀ (w : Wiring) (eng : Engine) (x x' : World) (block out : List Word),
    x.callback w eng block = some (out, x') →
    out.length = block.length ∧ x'.machine.cfg = x.machine.cfg ∧
    x'.machine.frameSize = x.machine.frameSize ∧ x'.machine.ctrl = x.machine.ctrl) ∧
  (∀ (eng : Engine) (x : World) (block : List Word), Legal x.machine → x.machine.chainEn = false →
    x.machine.cfg.qdepth = none → block ≠ [] → allFinite block = true →
    ∃ out x', x.callback .engine eng block = some (out, x')) ∧
  (∀ (x : World) (n : BitVec 24), ∃ s : State,
    if n.toNat = 0 ∨ x.machine.cfg.fftN < n.toNat then
      x.send (.init n) = some ⟨s, x.env⟩ ∧ s.frameSize = x.machine.frameSize ∧ s.chain = x.machine.chain
    else
      x.send (.init n) = some ⟨s, { x.env with pfq := [], ofq := [], rcur := 0, inbox := [], results := [] }⟩ ∧
      s.frameSize = n ∧ s.chain = ChainState.reset) ∧
  ∀ (eng : Engine) (x : World), eng.frameLength < 2 ^ 24 →
    x.openEngine eng = x.send (.init (BitVec.ofNat 24 eng.frameLength))
end

