-- ==== Sys2Proof/Laws/Lists.lean ====
section
/-! SUPPORT. What a mapping that may fail answers when it does not fail, for lists and for ranges. -/

namespace Sys2Proof.Machine

theorem mapM_some_cons {α β : Type} {f : α → Option β} {x : α} {xs : List α} {ys : List β} :
    (x :: xs).mapM f = some ys ↔ ∃ y zs, f x = some y ∧ xs.mapM f = some zs ∧ ys = y :: zs := by
  cases hx : f x <;> cases hxs : xs.mapM f <;> simp [List.mapM_cons, hx, hxs, eq_comm]

theorem mapM_some_length {α β : Type} {f : α → Option β} {xs : List α} {ys : List β}
    (h : xs.mapM f = some ys) : ys.length = xs.length := by
  induction xs generalizing ys with
  | nil => simp_all
  | cons x xs ih =>
    obtain ⟨y, zs, _, hz, rfl⟩ := mapM_some_cons.mp h
    simp [ih hz]

/-- Element by element: the `i`-th answer is the answer on the `i`-th element. -/
theorem mapM_some_getElem {α β : Type} {f : α → Option β} {xs : List α} {ys : List β}
    (h : xs.mapM f = some ys) (i : Nat) (hi : i < xs.length) (hj : i < ys.length) :
    f xs[i] = some ys[i] := by
  induction xs generalizing ys i with
  | nil => cases hi
  | cons x xs ih =>
    obtain ⟨y, zs, hy, hz, rfl⟩ := mapM_some_cons.mp h
    cases i with
    | zero => simpa using hy
    | succ i =>
      simp only [List.length_cons, Nat.add_lt_add_iff_right] at hi hj
      simpa using ih hz i hi hj

/-- What `f` guarantees of its answers holds of every answer. -/
theorem mapM_some_all {α β : Type} {P : β → Prop} {f : α → Option β} {xs : List α} {ys : List β}
    (h : xs.mapM f = some ys) (hf : ∀ x y, x ∈ xs → f x = some y → P y) : ∀ y ∈ ys, P y := by
  induction xs generalizing ys with
  | nil => simp_all
  | cons x xs ih =>
    obtain ⟨y, zs, hy, hz, rfl⟩ := mapM_some_cons.mp h
    intro w hw
    rcases List.mem_cons.mp hw with rfl | hw
    · exact hf x _ (by simp) hy
    · exact ih hz (fun x y hx => hf x y (by simp [hx])) w hw

/-- A range: the `i`-th answer is the answer on `i`. -/
theorem mapM_range_getD {β : Type} {f : Nat → Option β} {n : Nat} {ys : List β}
    (h : (List.range n).mapM f = some ys) (d : β) :
    ys.length = n ∧ ∀ i, i < n → f i = some (ys.getD i d) := by
  have hl : ys.length = n := by simpa using mapM_some_length h
  refine ⟨hl, fun i hi => ?_⟩
  have := mapM_some_getElem h i (by simpa using hi) (by omega)
  rw [List.getElem_range] at this
  rw [this, List.getD_eq_getElem _ _ (by omega)]

/-- Where `f` answers on every element of a list, the mapping answers. -/
theorem mapM_isSome {α β : Type} {f : α → Option β} {xs : List α}
    (h : ∀ x ∈ xs, (f x).isSome = true) : ∃ ys, xs.mapM f = some ys := by
  induction xs with
  | nil => exact ⟨[], by simp⟩
  | cons x xs ih =>
    obtain ⟨y, hy⟩ := Option.isSome_iff_exists.mp (h x (by simp))
    obtain ⟨ys, hys⟩ := ih (fun z hz => h z (by simp [hz]))
    exact ⟨y :: ys, mapM_some_cons.mpr ⟨y, ys, hy, hys, rfl⟩⟩

theorem foldlM_some_cons {α β : Type} {f : β → α → Option β} {x : α} {xs : List α} {b c : β} :
    (x :: xs).foldlM f b = some c ↔ ∃ d, f b x = some d ∧ xs.foldlM f d = some c := by
  cases hx : f b x <;> simp [List.foldlM_cons, hx]

/-- What every step of a fold keeps, the whole fold keeps. -/
theorem foldlM_some_keeps {α β : Type} {P : β → Prop} {f : β → α → Option β} {xs : List α} {b c : β}
    (h : xs.foldlM f b = some c) (hb : P b) (hf : ∀ b x d, P b → f b x = some d → P d) : P c := by
  induction xs generalizing b with
  | nil => simp_all
  | cons x xs ih =>
    obtain ⟨d, hd, hc⟩ := foldlM_some_cons.mp h
    exact ih hc (hf _ _ _ hb hd)

end Sys2Proof.Machine
end

