-- ==== Sys2Proof/Laws/Memory.lean ====
section
/-! SUPPORT. Laws of the arrays: a read after a write, and that every operation keeps the canonical
form. -/

namespace Sys2Proof.Machine

/-- No element below the first index of a canonical list is listed. -/
theorem read_below {lo i : Nat} {m : Memory} (h : m.wfFrom lo = true) (hi : i < lo) :
    m.read i = Memory.unlisted := by
  induction m generalizing lo with
  | nil => rfl
  | cons e rest ih =>
    obtain ⟨a, v⟩ := e
    simp only [Memory.wfFrom, Bool.and_eq_true, decide_eq_true_eq] at h
    have : a ≠ i := by omega
    simp only [Memory.read, this, if_false]
    exact ih h.2 (by omega)

theorem wfFrom_mono {lo lo' : Nat} {m : Memory} (h : m.wfFrom lo = true) (hl : lo' ≤ lo) :
    m.wfFrom lo' = true := by
  cases m with
  | nil => rfl
  | cons e rest =>
    obtain ⟨a, v⟩ := e
    simp only [Memory.wfFrom, Bool.and_eq_true, decide_eq_true_eq] at h ⊢
    exact ⟨⟨by omega, h.1.2⟩, h.2⟩

theorem write_wfFrom {lo i : Nat} {m : Memory} (v : Word) (h : m.wfFrom lo = true) (hi : lo ≤ i) :
    (m.write i v).wfFrom lo = true := by
  induction m generalizing lo with
  | nil =>
    simp only [Memory.write]
    split
    · rfl
    · simp [Memory.wfFrom, hi]; assumption
  | cons e rest ih =>
    obtain ⟨a, w⟩ := e
    have h' := h
    simp only [Memory.wfFrom, Bool.and_eq_true, decide_eq_true_eq, bne_iff_ne] at h
    obtain ⟨⟨hla, hw⟩, hr⟩ := h
    simp only [Memory.write]
    split
    · split
      · exact h'
      · simp only [Memory.wfFrom, Bool.and_eq_true, decide_eq_true_eq, bne_iff_ne]
        exact ⟨⟨hi, by assumption⟩, ⟨⟨by omega, hw⟩, hr⟩⟩
    · split
      · subst_vars
        split
        · exact wfFrom_mono hr (by omega)
        · simp only [Memory.wfFrom, Bool.and_eq_true, decide_eq_true_eq, bne_iff_ne]
          exact ⟨⟨hi, by assumption⟩, hr⟩
      · simp only [Memory.wfFrom, Bool.and_eq_true, decide_eq_true_eq, bne_iff_ne]
        exact ⟨⟨hla, hw⟩, ih hr (by omega)⟩

/-- A write keeps the canonical form. -/
theorem write_wf {m : Memory} (i : Nat) (v : Word) (h : m.wf = true) : (m.write i v).wf = true :=
  write_wfFrom v h (Nat.zero_le i)

/-- What holds of every listed entry and of the written one holds after the write. -/
theorem write_all {P : Nat × Word → Bool} {m : Memory} {i : Nat} {v : Word}
    (h : m.all P = true) (hv : P (i, v) = true) : (m.write i v).all P = true := by
  induction m with
  | nil => simp only [Memory.write]; split <;> simp [hv]
  | cons e rest ih =>
    obtain ⟨a, w⟩ := e
    simp only [List.all_cons, Bool.and_eq_true] at h
    have ih := ih h.2
    simp only [Memory.write]
    repeat' split
    all_goals simp only [List.all_cons, h.1, h.2, hv, ih, Bool.and_self]

theorem write_within {size i : Nat} {m : Memory} (v : Word) (h : m.within size = true) (hi : i < size) :
    (m.write i v).within size = true := write_all h (by simpa using hi)

/-- The element written reads as the word written. -/
theorem read_write_same {m : Memory} {lo : Nat} (i : Nat) (v : Word) (h : m.wfFrom lo = true) :
    (m.write i v).read i = v := by
  induction m generalizing lo with
  | nil => simp only [Memory.write]; split <;> simp_all [Memory.read]
  | cons e rest ih =>
    obtain ⟨a, w⟩ := e
    simp only [Memory.wfFrom, Bool.and_eq_true, decide_eq_true_eq] at h
    obtain ⟨⟨hla, hw⟩, hr⟩ := h
    simp only [Memory.write]
    split
    · split
      · subst_vars
        have : a ≠ i := by omega
        simp only [Memory.read, this, if_false]
        exact read_below hr (by omega)
      · simp [Memory.read]
    · split
      · subst_vars
        split
        · subst_vars
          exact read_below hr (by omega)
        · simp [Memory.read]
      · have : a ≠ i := by omega
        simp only [Memory.read, this, if_false]
        exact ih hr

/-- Every other element reads as before. -/
theorem read_write_other {m : Memory} {i j : Nat} (v : Word) (h : j ≠ i) :
    (m.write i v).read j = m.read j := by
  induction m with
  | nil => simp only [Memory.write]; split <;> simp [Memory.read, Ne.symm h]
  | cons e rest ih =>
    obtain ⟨a, w⟩ := e
    simp only [Memory.write]
    repeat' split
    all_goals subst_vars
    all_goals simp only [Memory.read, ih, Ne.symm h, if_false]

theorem ofListFrom_wfFrom (base : Nat) (vs : List Word) : (Memory.ofListFrom base vs).wfFrom base = true := by
  induction vs generalizing base with
  | nil => rfl
  | cons v vs ih =>
    simp only [Memory.ofListFrom]
    split
    · exact wfFrom_mono (ih (base + 1)) (by omega)
    · simp only [Memory.wfFrom, Bool.and_eq_true, decide_eq_true_eq, bne_iff_ne]
      exact ⟨⟨Nat.le_refl _, by assumption⟩, ih (base + 1)⟩

/-- A whole array written at once is canonical. -/
theorem ofList_wf (vs : List Word) : (Memory.ofList vs).wf = true := ofListFrom_wfFrom 0 vs

theorem ofListFrom_within (base size : Nat) (vs : List Word) (h : base + vs.length ≤ size) :
    (Memory.ofListFrom base vs).within size = true := by
  induction vs generalizing base with
  | nil => rfl
  | cons v vs ih =>
    simp only [List.length_cons] at h
    have := ih (base + 1) (by omega)
    simp only [Memory.ofListFrom]
    split
    · exact this
    · simp only [Memory.within, List.all_cons, Bool.and_eq_true, decide_eq_true_eq] at this ⊢
      exact ⟨by omega, this⟩

/-- A whole array written at once lies within its size. -/
theorem ofList_within {size : Nat} {vs : List Word} (h : vs.length ≤ size) :
    (Memory.ofList vs).within size = true := ofListFrom_within 0 size vs (by omega)

theorem ofListFrom_all {P : Word → Bool} (base : Nat) {vs : List Word} (h : vs.all P = true) :
    (Memory.ofListFrom base vs).all (fun e => P e.2) = true := by
  induction vs generalizing base with
  | nil => rfl
  | cons v vs ih =>
    simp only [List.all_cons, Bool.and_eq_true] at h
    simp only [Memory.ofListFrom]
    split <;> simp [ih (base + 1) h.2, h.1]

theorem read_ofListFrom (base i : Nat) (vs : List Word) (h : base ≤ i) :
    (Memory.ofListFrom base vs).read i = vs.getD (i - base) Memory.unlisted := by
  induction vs generalizing base with
  | nil => simp [Memory.ofListFrom, Memory.read]
  | cons v vs ih =>
    simp only [Memory.ofListFrom]
    rcases Nat.eq_or_lt_of_le h with rfl | hlt
    · have hb := read_below (i := base) (ofListFrom_wfFrom (base + 1) vs) (by omega)
      split
      · simp_all
      · simp [Memory.read]
    · have ih := ih (base + 1) (by omega)
      have hs : i - base = (i - (base + 1)) + 1 := by omega
      split
      · rw [ih, hs]; rfl
      · have : base ≠ i := by omega
        simp only [Memory.read, this, if_false]
        rw [ih, hs]; rfl

/-- Element `i` of an array written at once is the `i`-th word. -/
theorem read_ofList (i : Nat) (vs : List Word) :
    (Memory.ofList vs).read i = vs.getD i Memory.unlisted := by
  simpa [Memory.ofList] using read_ofListFrom 0 i vs (Nat.zero_le i)

@[simp] theorem toList_length (m : Memory) (n : Nat) : (m.toList n).length = n := by
  simp [Memory.toList]

theorem read_all {P : Word → Bool} {m : Memory} (h : m.all (fun e => P e.2) = true)
    (h0 : P Memory.unlisted = true) (i : Nat) : P (m.read i) = true := by
  induction m with
  | nil => exact h0
  | cons e rest ih =>
    obtain ⟨a, w⟩ := e
    simp only [List.all_cons, Bool.and_eq_true] at h
    simp only [Memory.read]
    split
    · exact h.1
    · exact ih h.2

end Sys2Proof.Machine
end

