-- ==== Sys2Proof/Laws/Num.lean ====
section
/-! SUPPORT. Laws of the numerics: every answer is a finite word, the selections select, the word
operations of the sign. -/

namespace Sys2Proof

theorem pack_isFinite (neg : Bool) {bits : Nat} (h : bits < 0x7F800000) :
    F32.isFinite (F32.pack neg bits) = true := by
  have hx : (BitVec.ofNat 32 bits).extractLsb' 23 8 ≠ 0xFF#8 := by
    intro hc
    have := congrArg BitVec.toNat hc
    simp only [BitVec.extractLsb'_toNat, BitVec.toNat_ofNat] at this
    rw [Nat.shiftRight_eq_div_pow] at this
    omega
  cases neg
  · simpa [F32.isFinite, F32.pack, F32.posZero] using hx
  · have : (F32.negZero ||| BitVec.ofNat 32 bits).extractLsb' 23 8
        = (BitVec.ofNat 32 bits).extractLsb' 23 8 := by
      rw [BitVec.extractLsb'_or]
      simp [F32.negZero]
    simpa [F32.isFinite, F32.pack, this] using hx

theorem round_isFinite {neg : Bool} {num den : Nat} {w : Word} (h : F32.round neg num den = some w) :
    F32.isFinite w = true := by
  simp only [F32.round, F32.roundMag, Option.map_eq_some_iff] at h
  obtain ⟨b, hb, rfl⟩ := h
  split at hb
  · rename_i hlt
    cases hb
    exact pack_isFinite neg hlt
  · cases hb

@[simp] theorem isFinite_posZero : F32.isFinite F32.posZero = true := by decide
@[simp] theorem isFinite_negZero : F32.isFinite F32.negZero = true := by decide
@[simp] theorem isFinite_one : F32.isFinite F32.one = true := by decide
@[simp] theorem isFinite_negOne : F32.isFinite F32.negOne = true := by decide

@[simp] theorem isFinite_neg (w : Word) : F32.isFinite (F32.neg w) = F32.isFinite w := by
  have : (w ^^^ F32.negZero).extractLsb' 23 8 = w.extractLsb' 23 8 := by
    rw [BitVec.extractLsb'_xor]
    simp [F32.negZero]
  simp [F32.isFinite, F32.neg, this]

theorem add_isFinite {a b w : Word} (h : F32.add a b = some w) : F32.isFinite w = true := by
  simp only [F32.add] at h
  split at h
  · split at h
    · cases h; split <;> simp
    · exact round_isFinite h
  · cases h

theorem sub_isFinite {a b w : Word} (h : F32.sub a b = some w) : F32.isFinite w = true := add_isFinite h

theorem mul_isFinite {a b w : Word} (h : F32.mul a b = some w) : F32.isFinite w = true := by
  simp only [F32.mul] at h
  split at h
  · exact round_isFinite h
  · cases h

theorem div_isFinite {a b w : Word} (h : F32.div a b = some w) : F32.isFinite w = true := by
  simp only [F32.div] at h
  split at h
  · exact round_isFinite h
  · cases h

theorem sqrt_isFinite {a w : Word} (h : F32.sqrt a = some w) : F32.isFinite w = true := by
  simp only [F32.sqrt] at h
  split at h
  · rename_i hf
    split at h
    · cases h; exact hf
    · split at h
      · cases h
      · exact round_isFinite h
  · cases h

@[simp] theorem checked_some {w v : Word} : F32.checked w = some v ↔ F32.isFinite w = true ∧ w = v := by
  simp only [F32.checked]; split <;> simp_all

theorem checked_isFinite {w v : Word} (h : F32.checked w = some v) : F32.isFinite v = true := by
  obtain ⟨hf, rfl⟩ := checked_some.mp h
  exact hf

/-- `max` selects one operand. -/
theorem max_cases (a b : Word) : F32.max a b = a ∨ F32.max a b = b := by
  simp only [F32.max]; split <;> simp

/-- `min` selects one operand. -/
theorem min_cases (a b : Word) : F32.min a b = a ∨ F32.min a b = b := by
  simp only [F32.min]; split <;> simp

@[simp] theorem toInt_max (a b : Word) : F32.toInt (F32.max a b) = max (F32.toInt a) (F32.toInt b) := by
  by_cases h : F32.toInt a < F32.toInt b
  · simp [F32.max, F32.lt, h, Int.max_eq_right (Int.le_of_lt h)]
  · simp [F32.max, F32.lt, h, Int.max_eq_left (Int.not_lt.mp h)]

@[simp] theorem toInt_min (a b : Word) : F32.toInt (F32.min a b) = min (F32.toInt a) (F32.toInt b) := by
  by_cases h : F32.toInt b < F32.toInt a
  · simp [F32.min, F32.lt, h, Int.min_eq_right (Int.le_of_lt h)]
  · simp [F32.min, F32.lt, h, Int.min_eq_left (Int.not_lt.mp h)]

theorem le_max_left (a b : Word) : F32.le a (F32.max a b) = true := by simp [F32.le]
theorem le_max_right (a b : Word) : F32.le b (F32.max a b) = true := by simp [F32.le]
theorem min_le_left (a b : Word) : F32.le (F32.min a b) a = true := by simp [F32.le]
theorem min_le_right (a b : Word) : F32.le (F32.min a b) b = true := by simp [F32.le]

/-- `min a b` is at least whatever both are at least. -/
theorem le_min {a b l : Word} (ha : F32.le l a = true) (hb : F32.le l b = true) :
    F32.le l (F32.min a b) = true := by
  rcases min_cases a b with h | h <;> simpa [h]

theorem max_isFinite {a b : Word} (ha : F32.isFinite a = true) (hb : F32.isFinite b = true) :
    F32.isFinite (F32.max a b) = true := by
  rcases max_cases a b with h | h <;> simpa [h]

theorem min_isFinite {a b : Word} (ha : F32.isFinite a = true) (hb : F32.isFinite b = true) :
    F32.isFinite (F32.min a b) = true := by
  rcases min_cases a b with h | h <;> simpa [h]

/-! ### The fields of the default numerics -/

@[simp] theorem binary32_zero : Num.binary32.zero = F32.posZero := rfl
@[simp] theorem binary32_neg (a : Word) : Num.binary32.neg a = F32.neg a := rfl
@[simp] theorem binary32_add (a b : Word) : Num.binary32.add a b = F32.add a b := rfl
@[simp] theorem binary32_sub (a b : Word) : Num.binary32.sub a b = F32.sub a b := rfl
@[simp] theorem binary32_mul (a b : Word) : Num.binary32.mul a b = F32.mul a b := rfl
@[simp] theorem binary32_div (a b : Word) : Num.binary32.div a b = F32.div a b := rfl
@[simp] theorem binary32_sqrt (a : Word) : Num.binary32.sqrt a = F32.sqrt a := rfl
@[simp] theorem binary32_fromNat (n : Nat) : Num.binary32.fromNat n = F32.fromNat n := by
  simp only [Num.binary32]

/-! ### The numerics of a configuration -/

/-- Numerics whose results are sample values: what R12 and R305(a) ask of every record. -/
structure Num.Sound (num : Num) : Prop where
  zero : num.zero = F32.posZero
  add : ∀ {a b w}, num.add a b = some w → F32.isFinite w = true
  sub : ∀ {a b w}, num.sub a b = some w → F32.isFinite w = true
  mul : ∀ {a b w}, num.mul a b = some w → F32.isFinite w = true
  div : ∀ {a b w}, num.div a b = some w → F32.isFinite w = true
  sqrt : ∀ {a w}, num.sqrt a = some w → F32.isFinite w = true

theorem binary32_sound : Num.binary32.Sound :=
  ⟨rfl, add_isFinite, sub_isFinite, mul_isFinite, div_isFinite, sqrt_isFinite⟩

theorem ofOps_sound (o : NumOps) : (Num.ofOps o).Sound :=
  ⟨rfl, checked_isFinite, checked_isFinite, checked_isFinite, checked_isFinite, checked_isFinite⟩

theorem num_sound (c : Cfg) : c.num.Sound := by
  rcases h : c.numerics with _ | k
  · simpa only [Cfg.num, h] using binary32_sound
  · simpa only [Cfg.num, h] using ofOps_sound _

theorem num_of_default {c : Cfg} (h : c.numerics = .binary32) : c.num = Num.binary32 := by
  simp only [Cfg.num, h]

@[simp] theorem build_numerics : Cfg.build.numerics = .binary32 := rfl

/-! ### The configurations are legal -/

theorem configT_valid : Cfg.configT.valid = true := by decide +kernel
theorem configT2_valid : Cfg.configT2.valid = true := by decide +kernel

theorem configT_biquad_valid : Cfg.configT.biquad.valid = true := by decide

theorem build_biquad_valid : Cfg.build.biquad.valid = true := by
  have e : Cfg.build.biquad = if Config.biquad.valid then Config.biquad else Cfg.configT.biquad := rfl
  rw [e]; split
  · assumption
  · exact configT_biquad_valid

theorem configT_vad_valid : Cfg.configT.vad.valid = true := by decide

theorem build_vad_valid : Cfg.build.vad.valid = true := by
  have e : Cfg.build.vad = if Config.vad.valid then Config.vad else Cfg.configT.vad := rfl
  rw [e]; split
  · assumption
  · exact configT_vad_valid

theorem configT_agc_valid : Cfg.configT.agc.valid = true := by decide

theorem build_agc_valid : Cfg.build.agc.valid = true := by
  have e : Cfg.build.agc = if Config.agc.valid then Config.agc else Cfg.configT.agc := rfl
  rw [e]; split
  · assumption
  · exact configT_agc_valid

theorem configT_fade_valid : Cfg.configT.fade.valid 512 = true := by decide

theorem build_fade_valid : Cfg.build.fade.valid 512 = true := by
  have e : Cfg.build.fade = if Config.fade.valid 512 then Config.fade else Cfg.configT.fade := rfl
  rw [e]; split
  · assumption
  · exact configT_fade_valid

theorem valid_alpha_default :
    (F32.isFinite 0x3DCCCCCD#32 && F32.lt F32.posZero 0x3DCCCCCD#32
      && F32.le 0x3DCCCCCD#32 F32.one) = true := by decide

theorem valid_aOs_default :
    (F32.isFinite 0x40000000#32 && F32.lt F32.one 0x40000000#32) = true := by decide

theorem valid_beta_default :
    (F32.isFinite 0x3DCCCCCD#32 && F32.le F32.posZero 0x3DCCCCCD#32
      && F32.le 0x3DCCCCCD#32 F32.one) = true := by decide

theorem valid_size_default : Cfg.validSize 512 = true := by decide

@[simp] theorem build_fs : Cfg.build.fs = 48000 := rfl
@[simp] theorem build_fftN : Cfg.build.fftN = 512 := rfl
@[simp] theorem build_alpha : Cfg.build.alpha = 0x3DCCCCCD#32 := rfl
@[simp] theorem build_updMax : Cfg.build.updMax = 100 := rfl
@[simp] theorem build_aOs : Cfg.build.aOs = 0x40000000#32 := rfl
@[simp] theorem build_beta : Cfg.build.beta = 0x3DCCCCCD#32 := rfl
@[simp] theorem build_qdepth : Cfg.build.qdepth = none := rfl

/-- Whatever the opaque constants are, the configuration of State.reset meets R8. -/
theorem build_valid : Cfg.build.valid = true := by
  rw [Cfg.valid, build_fs, build_fftN, build_alpha, build_updMax, build_aOs, build_beta,
    build_qdepth, build_biquad_valid, build_vad_valid, build_agc_valid, build_fade_valid,
    valid_alpha_default, valid_aOs_default, valid_beta_default, valid_size_default]
  rfl

end Sys2Proof
end

