-- ==== Sys2Proof/Laws/State.lean ====
section
/-! SUPPORT. The small lemmas of the state's updates: what each update writes and what it leaves. -/

namespace Sys2Proof.Machine

@[simp] theorem emit_cfg (s : State) (ws : List Word) : (s.emit ws).cfg = s.cfg := rfl
@[simp] theorem emit_ctrl (s : State) (ws : List Word) : (s.emit ws).ctrl = s.ctrl := rfl
@[simp] theorem emit_status (s : State) (ws : List Word) : (s.emit ws).status = s.status := rfl
@[simp] theorem emit_frameSize (s : State) (ws : List Word) : (s.emit ws).frameSize = s.frameSize := rfl
@[simp] theorem emit_cursor (s : State) (ws : List Word) : (s.emit ws).cursor = s.cursor := rfl
@[simp] theorem emit_acc (s : State) (ws : List Word) : (s.emit ws).acc = s.acc := rfl
@[simp] theorem emit_chain (s : State) (ws : List Word) : (s.emit ws).chain = s.chain := rfl
@[simp] theorem emit_input (s : State) (ws : List Word) : (s.emit ws).input = s.input := rfl
@[simp] theorem emit_output (s : State) (ws : List Word) : (s.emit ws).output = s.output ++ ws := rfl

@[simp] theorem emitData_eq (s : State) (ws : List Word) : s.emitData ws = s.emit (dataPacket ws) := rfl
@[simp] theorem done_eq (s : State) (o : Opcode) : s.done o = s.emit [doneWord 0#4 o.bits] := rfl
@[simp] theorem emit_emit (s : State) (a b : List Word) : (s.emit a).emit b = s.emit (a ++ b) := by
  simp [State.emit, List.append_assoc]

@[simp] theorem raise_cfg (s : State) (e : ErrCode) (op : BitVec 8) : (s.raise e op).cfg = s.cfg := rfl
@[simp] theorem raise_ctrl (s : State) (e : ErrCode) (op : BitVec 8) : (s.raise e op).ctrl = s.ctrl := rfl
@[simp] theorem raise_status (s : State) (e : ErrCode) (op : BitVec 8) :
    (s.raise e op).status = s.status ||| e.sticky := rfl
@[simp] theorem raise_frameSize (s : State) (e : ErrCode) (op : BitVec 8) :
    (s.raise e op).frameSize = s.frameSize := rfl
@[simp] theorem raise_cursor (s : State) (e : ErrCode) (op : BitVec 8) : (s.raise e op).cursor = s.cursor := rfl
@[simp] theorem raise_acc (s : State) (e : ErrCode) (op : BitVec 8) : (s.raise e op).acc = s.acc := rfl
@[simp] theorem raise_chain (s : State) (e : ErrCode) (op : BitVec 8) : (s.raise e op).chain = s.chain := rfl
@[simp] theorem raise_input (s : State) (e : ErrCode) (op : BitVec 8) : (s.raise e op).input = s.input := rfl
@[simp] theorem raise_output (s : State) (e : ErrCode) (op : BitVec 8) :
    (s.raise e op).output = s.output ++ [doneWord e.code op] := rfl

@[simp] theorem setChain_cfg (s : State) (ch : ChainState) : (s.setChain ch).cfg = s.cfg := rfl
@[simp] theorem setChain_ctrl (s : State) (ch : ChainState) : (s.setChain ch).ctrl = s.ctrl := rfl
@[simp] theorem setChain_status (s : State) (ch : ChainState) : (s.setChain ch).status = s.status := rfl
@[simp] theorem setChain_frameSize (s : State) (ch : ChainState) :
    (s.setChain ch).frameSize = s.frameSize := rfl
@[simp] theorem setChain_cursor (s : State) (ch : ChainState) : (s.setChain ch).cursor = s.cursor := rfl
@[simp] theorem setChain_acc (s : State) (ch : ChainState) : (s.setChain ch).acc = s.acc := rfl
@[simp] theorem setChain_chain (s : State) (ch : ChainState) : (s.setChain ch).chain = ch := rfl
@[simp] theorem setChain_input (s : State) (ch : ChainState) : (s.setChain ch).input = s.input := rfl
@[simp] theorem setChain_output (s : State) (ch : ChainState) : (s.setChain ch).output = s.output := rfl

/-- The four one-part updates of the chain are updates of the chain. -/
theorem setFilter_eq (s : State) (h : FilterState Word) :
    s.setFilter h = s.setChain { s.chain with filter := h } := rfl
theorem setSilRun_eq (s : State) (v : BitVec 32) :
    s.setSilRun v = s.setChain { s.chain with silRun := v } := rfl
theorem setSpectral_eq (s : State) (e : SpectralState) :
    s.setSpectral e = s.setChain { s.chain with spectral := e } := rfl
theorem setGain_eq (s : State) (g : Word) : s.setGain g = s.setChain { s.chain with gain := g } := rfl

@[simp] theorem reinit_cfg (s : State) (n : BitVec 24) : (s.reinit n).cfg = s.cfg := rfl
@[simp] theorem reinit_ctrl (s : State) (n : BitVec 24) : (s.reinit n).ctrl = s.ctrl := rfl
@[simp] theorem reinit_status (s : State) (n : BitVec 24) : (s.reinit n).status = s.status := rfl
@[simp] theorem reinit_frameSize (s : State) (n : BitVec 24) : (s.reinit n).frameSize = n := rfl
@[simp] theorem reinit_cursor (s : State) (n : BitVec 24) : (s.reinit n).cursor = 0#24 := rfl
@[simp] theorem reinit_acc (s : State) (n : BitVec 24) : (s.reinit n).acc = [] := rfl
@[simp] theorem reinit_chain (s : State) (n : BitVec 24) : (s.reinit n).chain = ChainState.reset := rfl
@[simp] theorem reinit_input (s : State) (n : BitVec 24) : (s.reinit n).input = s.input := rfl
@[simp] theorem reinit_output (s : State) (n : BitVec 24) : (s.reinit n).output = s.output := rfl

@[simp] theorem hardReset_cfg (s : State) (r : List HostEvent) : (s.hardReset r).cfg = s.cfg := rfl
@[simp] theorem hardReset_ctrl (s : State) (r : List HostEvent) : (s.hardReset r).ctrl = 0x0002#16 := rfl
@[simp] theorem hardReset_status (s : State) (r : List HostEvent) : (s.hardReset r).status = 0#16 := rfl
@[simp] theorem hardReset_frameSize (s : State) (r : List HostEvent) :
    (s.hardReset r).frameSize = BitVec.ofNat 24 (min 480 s.cfg.fftN) := rfl
@[simp] theorem hardReset_cursor (s : State) (r : List HostEvent) : (s.hardReset r).cursor = 0#24 := rfl
@[simp] theorem hardReset_acc (s : State) (r : List HostEvent) : (s.hardReset r).acc = [] := rfl
@[simp] theorem hardReset_chain (s : State) (r : List HostEvent) :
    (s.hardReset r).chain = ChainState.reset := rfl
@[simp] theorem hardReset_input (s : State) (r : List HostEvent) : (s.hardReset r).input = r := rfl
@[simp] theorem hardReset_output (s : State) (r : List HostEvent) : (s.hardReset r).output = s.output := rfl

@[simp] theorem consume_cfg (s : State) (r : List Word) : (s.consume r).cfg = s.cfg := rfl
@[simp] theorem consume_ctrl (s : State) (r : List Word) : (s.consume r).ctrl = s.ctrl := rfl
@[simp] theorem consume_status (s : State) (r : List Word) : (s.consume r).status = s.status := rfl
@[simp] theorem consume_frameSize (s : State) (r : List Word) :
    (s.consume r).frameSize = s.frameSize := rfl
@[simp] theorem consume_cursor (s : State) (r : List Word) : (s.consume r).cursor = s.cursor := rfl
@[simp] theorem consume_acc (s : State) (r : List Word) : (s.consume r).acc = s.acc := rfl
@[simp] theorem consume_chain (s : State) (r : List Word) : (s.consume r).chain = s.chain := rfl
@[simp] theorem consume_input (s : State) (r : List Word) :
    (s.consume r).input = eventsLeft s.input r := rfl
@[simp] theorem consume_output (s : State) (r : List Word) : (s.consume r).output = s.output := rfl

@[simp] theorem feedFirst_input (s : State) (ws : List Word) :
    (s.feedFirst ws).input = ws.map HostEvent.word ++ s.input := rfl
@[simp] theorem feedFirst_output (s : State) (ws : List Word) : (s.feedFirst ws).output = s.output := rfl

end Sys2Proof.Machine
end

