-- ==== Sys2Proof/Laws/Ops.lean ====
section
/-! SUPPORT. Each shared operation once: all it can do, for proofs to cite instead of unfolding it. -/

namespace Sys2Proof.Machine

/-! ### Outcomes -/

@[simp] theorem finish_ok (s : State) : finish (.ok s) = .next s := rfl

/-- A meaning answers a next state exactly when its computation does. -/
@[simp] theorem finish_next {e : Except Stop State} {t : State} : finish e = .next t ↔ e = .ok t := by
  rcases e with (f | r) | s <;> simp [finish]

@[simp] theorem finish_fault {e : Except Stop State} {f : Fault} :
    finish e = .fault f ↔ e = .error (.fault f) := by
  rcases e with (g | r) | s <;> simp [finish]

@[simp] theorem finish_refused {e : Except Stop State} {r : Refusal} :
    finish e = .refused r ↔ e = .error (.refused r) := by
  rcases e with (g | q) | s <;> simp [finish]

@[simp] theorem numeric_some {α : Type} (a : α) : numeric (some a) = .ok a := rfl

/-- A numeric result is delivered exactly when it is finite. -/
@[simp] theorem numeric_ok {α : Type} {o : Option α} {a : α} : numeric o = .ok a ↔ o = some a := by
  cases o <;> simp [numeric]

theorem numeric_error {α : Type} {o : Option α} {e : Stop} (h : numeric o = .error e) :
    o = none ∧ e = .refused .nonFiniteResult := by
  cases o <;> simp_all [numeric]

theorem requireFinite_pos {xs : List Word} (h : allFinite xs = true) : requireFinite xs = .ok () := by
  simp [requireFinite, h]

@[simp] theorem requireFinite_ok {xs : List Word} {u : Unit} :
    requireFinite xs = .ok u ↔ allFinite xs = true := by
  simp only [requireFinite]; split <;> simp_all

theorem requireFinite_error {xs : List Word} {e : Stop} (h : requireFinite xs = .error e) :
    allFinite xs = false ∧ e = .refused .nonFiniteSample := by
  simp only [requireFinite] at h; split at h <;> simp_all

/-- The bind of two computations, taken apart at its answer. -/
theorem bind_ok {α β : Type} {x : Except Stop α} {f : α → Except Stop β} {b : β} :
    (x >>= f) = .ok b ↔ ∃ a, x = .ok a ∧ f a = .ok b := by
  cases x with
  | error e => simp [bind, Except.bind]
  | ok a => simp [bind, Except.bind]

theorem bind_error {α β : Type} {x : Except Stop α} {f : α → Except Stop β} {e : Stop} :
    (x >>= f) = .error e ↔ x = .error e ∨ ∃ a, x = .ok a ∧ f a = .error e := by
  cases x with
  | error e' => simp [bind, Except.bind]
  | ok a => simp [bind, Except.bind]

/-- A sized command: its body where the length agrees, E_SIZE where it does not. -/
theorem sized_next {n want : Nat} {o : Opcode} {s t : State} {body : Except Stop State} :
    sized n want o s body = .next t ↔
      (n = want ∧ body = .ok t) ∨ (n ≠ want ∧ t = s.raise .size o.bits) := by
  by_cases h : n = want
  · simp [sized, h]
  · simp [sized, h, eq_comm]

theorem sized_fault {n want : Nat} {o : Opcode} {s : State} {body : Except Stop State} {f : Fault} :
    sized n want o s body = .fault f ↔ n = want ∧ body = .error (.fault f) := by
  simp only [sized]
  split <;> simp_all

theorem sized_refused {n want : Nat} {o : Opcode} {s : State} {body : Except Stop State} {r : Refusal} :
    sized n want o s body = .refused r ↔ n = want ∧ body = .error (.refused r) := by
  simp only [sized]
  split <;> simp_all

/-! ### ACC -/

theorem writeAcc_ok {s t : State} {i : Nat} {v : Word} :
    s.writeAcc i v = .ok t ↔ i < s.cfg.fftN ∧ t = { s with acc := s.acc.write i v } := by
  by_cases h : i < s.cfg.fftN
  · simp [State.writeAcc, h, eq_comm]
  · simp [State.writeAcc, h]

theorem readAcc_ok {s : State} {n : Nat} {f : List Word} :
    s.readAcc n = .ok f ↔ n ≤ s.cfg.fftN ∧ f = s.acc.toList n := by
  by_cases h : n ≤ s.cfg.fftN
  · simp [State.readAcc, h, eq_comm]
  · simp [State.readAcc, h]

theorem writeAcc_of_lt {s : State} {i : Nat} (v : Word) (h : i < s.cfg.fftN) :
    s.writeAcc i v = .ok { s with acc := s.acc.write i v } := writeAcc_ok.mpr ⟨h, rfl⟩

theorem readAcc_of_le {s : State} {n : Nat} (h : n ≤ s.cfg.fftN) : s.readAcc n = .ok (s.acc.toList n) :=
  readAcc_ok.mpr ⟨h, rfl⟩

/-! ### Registers -/

/-- A read of a register succeeds exactly for the twelve indices of the table. -/
theorem readReg_isSome (s : State) (reg : BitVec 8) :
    (s.readReg reg).isSome = true ↔ reg.toNat ≤ 11 := by
  rcases Nat.lt_or_ge 11 reg.toNat with h | h
  · have hn : s.readReg reg = none := by
      rw [State.readReg]
      repeat rw [if_neg (by rintro rfl; revert h; decide)]
    simp [hn, h]
  · have : reg = BitVec.ofNat 8 reg.toNat := by simp
    generalize reg.toNat = n at *
    subst this
    interval_cases n <;> simp [State.readReg]

/-- A write of a register: CTRL, STATUS or nothing. -/
theorem writeReg_cases {s t : State} {reg : BitVec 8} {imm : BitVec 16}
    (h : s.writeReg reg imm = some t) :
    (reg = 0x00#8 ∧ t = { s with ctrl := ctrlWritten imm }) ∨
    (reg = 0x01#8 ∧ t = { s with status := statusCleared s.status imm }) := by
  simp only [State.writeReg] at h
  split at h
  · exact .inl ⟨by assumption, by simpa using h.symm⟩
  · split at h
    · exact .inr ⟨by assumption, by simpa using h.symm⟩
    · cases h

theorem writeReg_none {s : State} {reg : BitVec 8} {imm : BitVec 16} :
    s.writeReg reg imm = none ↔ 2 ≤ reg.toNat := by
  have h : 2 ≤ reg.toNat ↔ ¬ (reg = 0x00#8) ∧ ¬ (reg = 0x01#8) := by
    constructor
    · intro h; constructor <;> (rintro rfl; revert h; decide)
    · rintro ⟨h0, h1⟩; bv_omega
  rw [h]
  simp only [State.writeReg]
  repeat' split
  all_goals simp_all

/-! ### Flags -/

/-- SPEC_STATE is never 3 (R24). -/
theorem engineState_code_lt (m : Nat) (u : BitVec 32) : (engineState m u).code.toNat < 3 := by
  cases engineState m u <;> decide

/-- A counter that saturates never returns to zero. -/
theorem saturatingSucc_toNat (v : BitVec 32) :
    (saturatingSucc v).toNat = min (v.toNat + 1) (2 ^ 32 - 1) := by
  simp only [saturatingSucc]
  split
  · subst_vars; decide
  · rename_i h
    have : v.toNat ≠ 4294967295 := fun hc => h (BitVec.eq_of_toNat_eq (by simpa using hc))
    have := v.isLt
    simp only [BitVec.toNat_add, BitVec.toNat_ofNat]
    omega

end Sys2Proof.Machine
end

