-- ==== Sys2Proof/Laws/Stages.lean ====
section
/-! SUPPORT. The stages of the chain, each once: what it did when it answers. -/

namespace Sys2Proof.Machine

/-! ### Filter -/

/-- One filter step: the nine operations of R121 and the shifted history. -/
theorem hpfStep_some {α : Type} {ar : Arith α} {c : Coeffs α} {h h' : FilterState α} {x y : α} :
    hpfStep ar c h x = some (y, h') ↔
      ∃ p0 p1 p2 q1 q2 t1 t2 t3, ar.mul c.b0 x = some p0 ∧ ar.mul c.b1 h.x1 = some p1 ∧
        ar.mul c.b2 h.x2 = some p2 ∧ ar.mul c.a1 h.y1 = some q1 ∧ ar.mul c.a2 h.y2 = some q2 ∧
        ar.add p0 p1 = some t1 ∧ ar.add t1 p2 = some t2 ∧ ar.sub t2 q1 = some t3 ∧
        ar.sub t3 q2 = some y ∧ h' = ⟨x, h.x1, y, h.y1⟩ := by
  simp only [hpfStep, Option.bind_eq_bind, Option.bind_eq_some_iff, Option.some.injEq, Prod.mk.injEq]
  constructor
  · rintro ⟨p0, h0, p1, h1, p2, h2, q1, h3, q2, h4, t1, h5, t2, h6, t3, h7, y', h8, rfl, rfl⟩
    exact ⟨p0, p1, p2, q1, q2, t1, t2, t3, h0, h1, h2, h3, h4, h5, h6, h7, h8, rfl⟩
  · rintro ⟨p0, p1, p2, q1, q2, t1, t2, t3, h0, h1, h2, h3, h4, h5, h6, h7, h8, rfl⟩
    exact ⟨p0, h0, p1, h1, p2, h2, q1, h3, q2, h4, t1, h5, t2, h6, t3, h7, y, h8, rfl, rfl⟩

@[simp] theorem hpfFrame_nil {α : Type} (ar : Arith α) (c : Coeffs α) (h : FilterState α) :
    hpfFrame ar c h [] = some ([], h) := rfl

theorem hpfFrame_cons {α : Type} {ar : Arith α} {c : Coeffs α} {h h' : FilterState α} {x : α}
    {xs ys : List α} :
    hpfFrame ar c h (x :: xs) = some (ys, h') ↔
      ∃ y h1 zs, hpfStep ar c h x = some (y, h1) ∧ hpfFrame ar c h1 xs = some (zs, h') ∧ ys = y :: zs := by
  simp only [hpfFrame, Option.bind_eq_bind, Option.bind_eq_some_iff, Option.some.injEq, Prod.mk.injEq,
    Prod.exists]
  constructor
  · rintro ⟨y, h1, hy, zs, h2, hz, rfl, rfl⟩
    exact ⟨y, h1, zs, hy, hz, rfl⟩
  · rintro ⟨y, h1, zs, hy, hz, rfl⟩
    exact ⟨y, h1, hy, zs, h', hz, rfl, rfl⟩

theorem hpfFrame_length {α : Type} {ar : Arith α} {c : Coeffs α} {h h' : FilterState α}
    {xs ys : List α} (e : hpfFrame ar c h xs = some (ys, h')) : ys.length = xs.length := by
  induction xs generalizing h ys with
  | nil => simp at e; simp [← e.1]
  | cons x xs ih =>
    obtain ⟨y, h1, zs, _, hz, rfl⟩ := hpfFrame_cons.mp e
    simp [ih hz]

/-- The outputs and the four scalars of a frame of finite samples are finite. -/
theorem hpfFrame_finite {num : Num} (hn : num.Sound) {c : Coeffs Word} {h h' : FilterState Word}
    {xs ys : List Word} (e : hpfFrame num.toArith c h xs = some (ys, h')) (hx : allFinite xs = true)
    (hh : h.finite = true) : allFinite ys = true ∧ h'.finite = true := by
  induction xs generalizing h ys with
  | nil => simp at e; obtain ⟨rfl, rfl⟩ := e; exact ⟨rfl, hh⟩
  | cons x xs ih =>
    obtain ⟨y, h1, zs, hy, hz, rfl⟩ := hpfFrame_cons.mp e
    obtain ⟨p0, p1, p2, q1, q2, t1, t2, t3, -, -, -, -, -, -, -, -, h8, rfl⟩ := hpfStep_some.mp hy
    have hyf : F32.isFinite y = true := hn.sub h8
    simp only [allFinite, List.all_cons, Bool.and_eq_true] at hx
    simp only [FilterState.finite, Bool.and_eq_true] at hh
    obtain ⟨ha, hb⟩ := ih hz hx.2 (by simp [FilterState.finite, hx.1, hh, hyf])
    exact ⟨by simp only [allFinite, List.all_cons, Bool.and_eq_true]; exact ⟨hyf, ha⟩, hb⟩

/-! ### Detector -/

theorem rms_some {num : Num} {f : List Word} {r : Word} :
    rms num f = some r ↔
      ∃ sum n mean, sumSquares num f = some sum ∧ num.fromNat f.length = some n ∧
        num.div sum n = some mean ∧ num.sqrt mean = some r := by
  simp only [rms, Option.bind_eq_bind, Option.bind_eq_some_iff]
  constructor
  · rintro ⟨a, ha, b, hb, c, hc, h⟩; exact ⟨a, b, c, ha, hb, hc, h⟩
  · rintro ⟨a, b, c, ha, hb, hc, h⟩; exact ⟨a, ha, b, hb, c, hc, h⟩

theorem vadFrame_some {num : Num} {p : VadParams} {run run' : BitVec 32} {f : List Word} {speech : Bool} :
    vadFrame num p run f = some (speech, run') ↔
      ∃ r z, rms num f = some r ∧ crossingRate num f = some z ∧
        speech = (F32.lt p.eth r && F32.lt p.zth z) ∧
        run' = if speech then 0#32 else saturatingSucc run := by
  simp only [vadFrame, Option.bind_eq_bind, Option.bind_eq_some_iff, Option.some.injEq, Prod.mk.injEq]
  constructor
  · rintro ⟨r, hr, z, hz, rfl, rfl⟩; exact ⟨r, z, hr, hz, rfl, rfl⟩
  · rintro ⟨r, z, hr, hz, rfl, rfl⟩; exact ⟨r, hr, z, hz, rfl, rfl⟩

/-! ### Fade -/

theorem fadeWeight_some {num : Num} {p : FadeParams} {q len i : Nat} {w : Word} :
    fadeWeight num p q len i = some w ↔
      ∃ a b d, num.fromNat (q * len + i) = some a ∧ num.fromNat (p.len * len) = some b ∧
        num.div a b = some d ∧ num.sub F32.one d = some w := by
  simp only [fadeWeight, Option.bind_eq_bind, Option.bind_eq_some_iff]
  constructor
  · rintro ⟨a, ha, b, hb, d, hd, h⟩; exact ⟨a, b, d, ha, hb, hd, h⟩
  · rintro ⟨a, b, d, ha, hb, hd, h⟩; exact ⟨a, ha, b, hb, d, hd, h⟩

/-- The three cases of the fade. -/
theorem fade_cases {num : Num} {p : FadeParams} {run : BitVec 32} {h g : List Word}
    (e : fade num p run h = some g) :
    (run.toNat ≤ p.thresh ∧ g = h) ∨
    (p.thresh + p.len < run.toNat ∧ g = h.map (fun _ => F32.posZero)) ∨
    (p.thresh < run.toNat ∧ run.toNat ≤ p.thresh + p.len ∧ g.length = h.length ∧
      ∀ i, i < h.length → ∃ w, fadeWeight num p (run.toNat - p.thresh - 1) h.length i = some w ∧
        num.mul w (h.getD i F32.posZero) = some (g.getD i F32.posZero)) := by
  simp only [fade] at e
  split at e
  · exact .inl ⟨by assumption, by simpa using e.symm⟩
  · split at e
    · exact .inr (.inl ⟨by omega, by simpa using e.symm⟩)
    · obtain ⟨hl, hg⟩ := mapM_range_getD e F32.posZero
      refine .inr (.inr ⟨by omega, by omega, hl, fun i hi => ?_⟩)
      simpa [Option.bind_eq_some_iff] using hg i hi

theorem fade_length {num : Num} {p : FadeParams} {run : BitVec 32} {h g : List Word}
    (e : fade num p run h = some g) : g.length = h.length := by
  rcases fade_cases e with ⟨_, rfl⟩ | ⟨_, rfl⟩ | ⟨_, _, hl, _⟩
  · rfl
  · simp
  · exact hl

theorem allFinite_of_getD {g : List Word}
    (h : ∀ i, i < g.length → F32.isFinite (g.getD i F32.posZero) = true) : allFinite g = true := by
  simp only [allFinite, List.all_eq_true]
  intro x hx
  obtain ⟨i, hi, rfl⟩ := List.mem_iff_getElem.mp hx
  have := h i hi
  rwa [List.getD_eq_getElem _ _ hi] at this

theorem allFinite_getD {g : List Word} (h : allFinite g = true) (i : Nat) :
    F32.isFinite (g.getD i F32.posZero) = true := by
  simp only [allFinite, List.all_eq_true] at h
  rcases Nat.lt_or_ge i g.length with hi | hi
  · rw [List.getD_eq_getElem _ _ hi]; exact h _ (List.getElem_mem hi)
  · rw [List.getD_eq_default _ _ hi]; exact isFinite_posZero

theorem fade_finite {num : Num} (hn : num.Sound) {p : FadeParams} {run : BitVec 32} {h g : List Word}
    (e : fade num p run h = some g) (hf : allFinite h = true) : allFinite g = true := by
  rcases fade_cases e with ⟨_, rfl⟩ | ⟨_, rfl⟩ | ⟨_, _, hl, hg⟩
  · exact hf
  · simp [allFinite]
  · refine allFinite_of_getD fun i hi => ?_
    obtain ⟨w, _, hm⟩ := hg i (by omega)
    exact hn.mul hm

/-! ### Spectral engine -/

theorem analyse_some {num : Num} {c : Cfg} {f : List Word} {x : List (Word × Word)} {mag : List Word}
    (e : analyse num c f = some (x, mag)) :
    ∃ w, windowed num c f = some w ∧ forward num c w = some x ∧ mag.length = c.fftN / 2 + 1 ∧
      ∀ k, k < c.fftN / 2 + 1 →
        magnitude num (x.getD k (F32.posZero, F32.posZero)) = some (mag.getD k F32.posZero) := by
  simp only [analyse, Option.bind_eq_bind, Option.bind_eq_some_iff, Option.some.injEq, Prod.mk.injEq] at e
  obtain ⟨w, hw, x', hx, mag', hm, rfl, rfl⟩ := e
  obtain ⟨hl, hk⟩ := mapM_range_getD hm F32.posZero
  exact ⟨w, hw, hx, hl, hk⟩

theorem windowed_some {num : Num} {c : Cfg} {f : List Word} {w : List (Word × Word)}
    (e : windowed num c f = some w) :
    w.length = c.fftN ∧ ∀ i, i < c.fftN →
      num.mul (Rom.win c.fftN i) (f.getD i F32.posZero) = some (w.getD i (F32.posZero, F32.posZero)).1 ∧
        (w.getD i (F32.posZero, F32.posZero)).2 = F32.posZero := by
  obtain ⟨hl, hi⟩ := mapM_range_getD e (F32.posZero, F32.posZero)
  refine ⟨hl, fun i h => ?_⟩
  have := hi i h
  simp only [Option.bind_eq_bind, Option.bind_eq_some_iff, Option.some.injEq] at this
  obtain ⟨a, ha, he⟩ := this
  rw [← he]
  exact ⟨ha, rfl⟩

theorem magnitude_some {num : Num} {e : Word × Word} {m : Word} :
    magnitude num e = some m ↔
      ∃ a b s, num.mul e.1 e.1 = some a ∧ num.mul e.2 e.2 = some b ∧ num.add a b = some s ∧
        num.sqrt s = some m := by
  simp only [magnitude, Option.bind_eq_bind, Option.bind_eq_some_iff]
  constructor
  · rintro ⟨a, ha, b, hb, s, hs, h⟩; exact ⟨a, b, s, ha, hb, hs, h⟩
  · rintro ⟨a, b, s, ha, hb, hs, h⟩; exact ⟨a, ha, b, hb, s, hs, h⟩

theorem newProfile_some {num : Num} {c : Cfg} {cnt : BitVec 32} {prof : Memory} {mag p : List Word}
    (e : newProfile num c cnt prof mag = some p) :
    (cnt = 0#32 ∧ p = mag) ∨
    (cnt ≠ 0#32 ∧ p.length = c.fftN / 2 + 1 ∧ ∃ om, F32.sub F32.one c.alpha = some om ∧
      ∀ k, k < c.fftN / 2 + 1 → ∃ a b, num.mul c.alpha (mag.getD k F32.posZero) = some a ∧
        num.mul om (prof.read k) = some b ∧ num.add a b = some (p.getD k F32.posZero)) := by
  simp only [newProfile] at e
  split at e
  · exact .inl ⟨by assumption, by simpa using e.symm⟩
  · simp only [Option.bind_eq_bind, Option.bind_eq_some_iff] at e
    obtain ⟨om, hom, hm⟩ := e
    obtain ⟨hl, hk⟩ := mapM_range_getD hm F32.posZero
    refine .inr ⟨by assumption, hl, om, hom, fun k h => ?_⟩
    simpa [Option.bind_eq_some_iff] using hk k h

/-- Tracking: nothing, or one update. -/
theorem track_some {num : Num} {c : Cfg} {run : BitVec 32} {mag : List Word} {e e' : SpectralState}
    (h : track num c run mag e = some e') :
    (updates c run e.updCnt = false ∧ e' = e) ∨
    (updates c run e.updCnt = true ∧ ∃ p, newProfile num c e.updCnt e.prof mag = some p ∧
      e' = { e with updCnt := e.updCnt + 1#32, prof := Memory.ofList p }) := by
  simp only [track] at h
  split at h
  · simp only [Option.bind_eq_bind, Option.bind_eq_some_iff, Option.some.injEq] at h
    obtain ⟨p, hp, rfl⟩ := h
    exact .inr ⟨by assumption, p, hp, rfl⟩
  · rename_i hn
    exact .inl ⟨Bool.eq_false_iff.mpr hn, by simpa using h.symm⟩

theorem suppressed_some {num : Num} {c : Cfg} {mag prof m : Word} :
    suppressed num c mag prof = some m ↔
      ∃ o diff least, num.mul c.aOs prof = some o ∧ num.sub mag o = some diff ∧
        num.mul c.beta mag = some least ∧ m = F32.max diff least := by
  simp only [suppressed, Option.bind_eq_bind, Option.bind_eq_some_iff, Option.some.injEq]
  constructor
  · rintro ⟨o, ho, d, hd, l, hl, rfl⟩; exact ⟨o, d, l, ho, hd, hl, rfl⟩
  · rintro ⟨o, d, l, ho, hd, hl, rfl⟩; exact ⟨o, ho, d, hd, l, hl, rfl⟩

theorem subtractSpectrum_some {num : Num} {c : Cfg} {x y : List (Word × Word)} {mag : List Word}
    {prof : Memory} (e : subtractSpectrum num c x mag prof = some y) :
    ∃ low : List (Word × Word), low.length = c.fftN / 2 + 1 ∧
      (∀ k, k < c.fftN / 2 + 1 →
        rebuildBin num c (x.getD k (F32.posZero, F32.posZero)) (mag.getD k F32.posZero) (prof.read k)
          = some (low.getD k (F32.posZero, F32.posZero))) ∧
      y = (List.range c.fftN).map (fun k =>
        if k ≤ c.fftN / 2 then low.getD k (F32.posZero, F32.posZero)
        else ((low.getD (c.fftN - k) (F32.posZero, F32.posZero)).1,
          num.neg (low.getD (c.fftN - k) (F32.posZero, F32.posZero)).2)) := by
  simp only [subtractSpectrum, Option.bind_eq_bind, Option.bind_eq_some_iff, Option.some.injEq] at e
  obtain ⟨low, hlow, rfl⟩ := e
  obtain ⟨hl, hk⟩ := mapM_range_getD hlow (F32.posZero, F32.posZero)
  exact ⟨low, hl, hk, rfl⟩

theorem synthesise_some {num : Num} {c : Cfg} {x : List (Word × Word)} {ovl ovl' : Memory}
    {out : List Word} (e : synthesise num c x ovl = some (out, ovl')) :
    ∃ (y : List (Word × Word)) (r : List Word), inverse num c x = some y ∧ r.length = c.fftN ∧ out.length = c.fftN ∧
      (∀ i, i < c.fftN → num.mul (Rom.win c.fftN i) (y.getD i (F32.posZero, F32.posZero)).1
        = some (r.getD i F32.posZero)) ∧
      (∀ i, i < c.fftN → if i < c.fftN / 2
        then num.add (r.getD i F32.posZero) (ovl.read i) = some (out.getD i F32.posZero)
        else out.getD i F32.posZero = r.getD i F32.posZero) ∧
      ovl' = Memory.ofList (r.drop (c.fftN / 2)) := by
  simp only [synthesise, Option.bind_eq_bind, Option.bind_eq_some_iff, Option.some.injEq,
    Prod.mk.injEq] at e
  obtain ⟨y, hy, r, hr, out', ho, rfl, rfl⟩ := e
  obtain ⟨hl, hk⟩ := mapM_range_getD hr F32.posZero
  obtain ⟨hl', hk'⟩ := mapM_range_getD ho F32.posZero
  refine ⟨y, r, hy, hl, hl', hk, fun i hi => ?_, rfl⟩
  have := hk' i hi
  split <;> simp_all

/-- One engine step: the frame passes unchanged, or it is analysed, tracked and, where R150 says so,
subtracted. -/
theorem specFrame_some {num : Num} {c : Cfg} {sub : Bool} {run : BitVec 32} {e e' : SpectralState}
    {f g : List Word} (h : specFrame num c sub run e f = some (g, e')) :
    (updates c run e.updCnt = false ∧ subtracts c sub e.updCnt = false ∧ g = f ∧ e' = e) ∨
    (∃ x mag e1, analyse num c f = some (x, mag) ∧ track num c run mag e = some e1 ∧
      ((subtracts c sub e1.updCnt = false ∧ g = f ∧ e' = e1) ∨
       (subtracts c sub e1.updCnt = true ∧ ∃ y out ovl, subtractSpectrum num c x mag e1.prof = some y ∧
          synthesise num c y e1.ovl = some (out, ovl) ∧ g = out.take f.length ∧
          e' = { e1 with ovl := ovl }))) := by
  simp only [specFrame] at h
  split at h
  · simp only [Option.bind_eq_bind, Option.bind_eq_some_iff, Prod.exists] at h
    obtain ⟨x, mag, ha, e1, ht, h⟩ := h
    refine .inr ⟨x, mag, e1, ha, ht, ?_⟩
    split at h
    · simp only [Option.bind_eq_some_iff, Option.some.injEq, Prod.exists, Prod.mk.injEq] at h
      obtain ⟨y, hy, out, ovl, ho, rfl, rfl⟩ := h
      exact .inr ⟨by assumption, y, out, ovl, hy, ho, rfl, rfl⟩
    · simp only [Option.some.injEq, Prod.mk.injEq] at h
      obtain ⟨rfl, rfl⟩ := h
      rename_i hn
      exact .inl ⟨Bool.eq_false_iff.mpr hn, rfl, rfl⟩
  · simp only [Option.some.injEq, Prod.mk.injEq] at h
    obtain ⟨rfl, rfl⟩ := h
    rename_i hn
    simp only [Bool.or_eq_true, not_or, Bool.not_eq_true] at hn
    exact .inl ⟨hn.1, hn.2, rfl, rfl⟩

theorem updates_true {c : Cfg} {run cnt : BitVec 32} :
    updates c run cnt = true ↔ cnt.toNat < c.updMax ∧ c.silMin < run.toNat := by
  simp [updates]

theorem subtracts_true {c : Cfg} {sub : Bool} {cnt : BitVec 32} :
    subtracts c sub cnt = true ↔ cnt.toNat = c.updMax ∧ sub = true := by
  simp [subtracts]

/-- The profile counter of a step: unchanged, or one more and still at most UPD_MAX. -/
theorem specFrame_updCnt {num : Num} {c : Cfg} {sub : Bool} {run : BitVec 32} {e e' : SpectralState}
    {f g : List Word} (h : specFrame num c sub run e f = some (g, e')) :
    (e'.updCnt = e.updCnt ∧ e'.prof = e.prof) ∨
    (e.updCnt.toNat < c.updMax ∧ c.silMin < run.toNat ∧ e'.updCnt = e.updCnt + 1#32) := by
  rcases specFrame_some h with ⟨_, _, _, rfl⟩ | ⟨x, mag, e1, _, ht, hc⟩
  · exact .inl ⟨rfl, rfl⟩
  · have : e'.updCnt = e1.updCnt ∧ e'.prof = e1.prof := by
      rcases hc with ⟨_, _, rfl⟩ | ⟨_, y, out, ovl, _, _, _, rfl⟩ <;> exact ⟨rfl, rfl⟩
    rcases track_some ht with ⟨_, rfl⟩ | ⟨hu, p, _, rfl⟩
    · exact .inl this
    · obtain ⟨h1, h2⟩ := updates_true.mp hu
      exact .inr ⟨h1, h2, this.1⟩

/-! ### Gain control -/

theorem clampedGain_some {num : Num} {p : AgcParams} {f : List Word} {cg : Word} :
    clampedGain num p f = some cg ↔
      ∃ r tg, rms num f = some r ∧ num.div p.target (F32.max r p.eps) = some tg ∧
        cg = F32.min (F32.max tg p.min) p.max := by
  simp only [clampedGain, Option.bind_eq_bind, Option.bind_eq_some_iff, Option.some.injEq]
  constructor
  · rintro ⟨r, hr, tg, ht, rfl⟩; exact ⟨r, tg, hr, ht, rfl⟩
  · rintro ⟨r, tg, hr, ht, rfl⟩; exact ⟨r, hr, tg, ht, rfl⟩

theorem agcFrame_some {num : Num} {p : AgcParams} {gain gain' : Word} {f o : List Word} :
    agcFrame num p gain f = some (o, gain') ↔
      ∃ cg d m, clampedGain num p f = some cg ∧ num.sub cg gain = some d ∧ num.mul p.mu d = some m ∧
        num.add gain m = some gain' ∧
        f.mapM (fun x => (num.mul gain' x).map clip) = some o := by
  have hmap : ∀ g x : Word, ((num.mul g x).bind fun v => some (clip v)) = (num.mul g x).map clip :=
    fun g x => by cases num.mul g x <;> rfl
  simp only [agcFrame, Option.bind_eq_bind, hmap, Option.bind_eq_some_iff, Option.some.injEq, Prod.mk.injEq]
  constructor
  · rintro ⟨cg, hc, d, hd, m, hm, g, hg, o', ho, rfl, rfl⟩
    exact ⟨cg, d, m, hc, hd, hm, hg, ho⟩
  · rintro ⟨cg, d, m, hc, hd, hm, hg, ho⟩
    exact ⟨cg, hc, d, hd, m, hm, gain', hg, o, ho, rfl, rfl⟩

theorem agcFrame_length {num : Num} {p : AgcParams} {gain gain' : Word} {f o : List Word}
    (h : agcFrame num p gain f = some (o, gain')) : o.length = f.length := by
  obtain ⟨cg, d, m, -, -, -, -, ho⟩ := agcFrame_some.mp h
  exact mapM_some_length ho

theorem clip_isFinite {v : Word} (h : F32.isFinite v = true) : F32.isFinite (clip v) = true :=
  min_isFinite (max_isFinite h isFinite_negOne) isFinite_one

theorem agcFrame_finite {num : Num} (hn : num.Sound) {p : AgcParams} {gain gain' : Word} {f o : List Word}
    (h : agcFrame num p gain f = some (o, gain')) :
    allFinite o = true ∧ F32.isFinite gain' = true := by
  obtain ⟨cg, d, m, -, -, -, hg, ho⟩ := agcFrame_some.mp h
  refine ⟨?_, hn.add hg⟩
  simp only [allFinite, List.all_eq_true]
  refine mapM_some_all ho fun x y _ hy => ?_
  simp only [Option.map_eq_some_iff] at hy
  obtain ⟨v, hv, rfl⟩ := hy
  exact clip_isFinite (hn.mul hv)

/-! ### Chain -/

/-- The chain: the five stages in order. -/
theorem preprocess_some {num : Num} {c : Cfg} {sub : Bool} {ch ch' : ChainState} {f o : List Word} :
    preprocess num c sub ch f = some (o, ch') ↔
      ∃ h flt speech run g d e gain, hpfFrame num.toArith c.biquad ch.filter f = some (h, flt) ∧
        vadFrame num c.vad ch.silRun h = some (speech, run) ∧ fade num c.fade run h = some g ∧
        specFrame num c sub run ch.spectral g = some (d, e) ∧
        agcFrame num c.agc ch.gain d = some (o, gain) ∧ ch' = ⟨flt, run, e, gain⟩ := by
  simp only [preprocess, Option.bind_eq_bind, Option.bind_eq_some_iff, Option.some.injEq, Prod.exists,
    Prod.mk.injEq]
  constructor
  · rintro ⟨h, flt, hh, sp, run, hv, g, hg, d, e, hs, o', gain, ha, rfl, rfl⟩
    exact ⟨h, flt, sp, run, g, d, e, gain, hh, hv, hg, hs, ha, rfl⟩
  · rintro ⟨h, flt, sp, run, g, d, e, gain, hh, hv, hg, hs, ha, rfl⟩
    exact ⟨h, flt, hh, sp, run, hv, g, hg, d, e, hs, o, gain, ha, rfl, rfl⟩

end Sys2Proof.Machine
end

