-- ==== Sys2Proof/Laws/Chain.lean ====
section
/-! SUPPORT. The chain keeps the invariants of its state and delivers finite frames of the length it
was given; the frame assembler, one sample and many. -/

namespace Sys2Proof.Machine

/-- The conditions of R8 that the laws below use. -/
theorem valid_facts {c : Cfg} (h : c.valid = true) :
    4 ≤ c.fftN ∧ c.fftN ≤ 65536 ∧ 2 ^ Nat.log2 c.fftN = c.fftN ∧ 1 ≤ c.updMax ∧ c.updMax < 2 ^ 32 := by
  simp only [Cfg.valid, Cfg.validSize, Bool.and_eq_true, decide_eq_true_eq] at h
  obtain ⟨⟨⟨⟨⟨⟨⟨⟨⟨⟨⟨_, hs⟩, _⟩, _⟩, _⟩, h1⟩, h2⟩, _⟩, _⟩, _⟩, _⟩, _⟩ := h
  exact ⟨hs.1.2, hs.2, hs.1.1, h1, h2⟩

/-- A legal transform size is even. -/
theorem valid_even {c : Cfg} (h : c.valid = true) : c.fftN = 2 * (c.fftN / 2) := by
  obtain ⟨h4, -, hp, -, -⟩ := valid_facts h
  have : Nat.log2 c.fftN ≠ 0 := by
    intro h0
    rw [h0] at hp
    omega
  obtain ⟨k, hk⟩ := Nat.exists_eq_succ_of_ne_zero this
  rw [hk, Nat.pow_succ] at hp
  omega

/-- The new profile: one entry per bin `0 .. FFT_N/2`. -/
theorem newProfile_length {num : Num} {c : Cfg} {cnt : BitVec 32} {prof : Memory} {mag p : List Word}
    (e : newProfile num c cnt prof mag = some p) (hm : mag.length = c.fftN / 2 + 1) :
    p.length = c.fftN / 2 + 1 := by
  rcases newProfile_some e with ⟨_, rfl⟩ | ⟨_, hl, _⟩
  · exact hm
  · exact hl

theorem magnitudes_finite {num : Num} (hn : num.Sound) {c : Cfg} {f : List Word} {x : List (Word × Word)} {mag : List Word}
    (e : analyse num c f = some (x, mag)) : allFinite mag = true := by
  obtain ⟨w, -, -, hl, hk⟩ := analyse_some e
  refine allFinite_of_getD fun k h => ?_
  obtain ⟨a, b, s, -, -, -, hs⟩ := magnitude_some.mp (hk k (by omega))
  exact hn.sqrt hs

theorem newProfile_finite {num : Num} (hn : num.Sound) {c : Cfg} {cnt : BitVec 32} {prof : Memory} {mag p : List Word}
    (e : newProfile num c cnt prof mag = some p) (hm : allFinite mag = true) :
    allFinite p = true := by
  rcases newProfile_some e with ⟨_, rfl⟩ | ⟨_, hl, om, _, hk⟩
  · exact hm
  · refine allFinite_of_getD fun k h => ?_
    obtain ⟨a, b, -, -, hs⟩ := hk k (by omega)
    exact hn.add hs

/-- An array written at once with finite words is legal. -/
theorem ofList_legal {size : Nat} {vs : List Word} (hl : vs.length ≤ size) (hf : allFinite vs = true) :
    (Memory.ofList vs).legal size = true := by
  simp only [Memory.legal, Bool.and_eq_true]
  exact ⟨⟨ofList_wf vs, ofList_within hl⟩, ofListFrom_all 0 hf⟩

theorem write_legal {size i : Nat} {m : Memory} {v : Word} (h : m.legal size = true) (hi : i < size)
    (hv : F32.isFinite v = true) : (m.write i v).legal size = true := by
  simp only [Memory.legal, Bool.and_eq_true] at h ⊢
  exact ⟨⟨write_wf i v h.1.1, write_within v h.1.2 hi⟩, write_all h.2 hv⟩

theorem read_isFinite {size : Nat} {m : Memory} (h : m.legal size = true) (i : Nat) :
    F32.isFinite (m.read i) = true := by
  simp only [Memory.legal, Bool.and_eq_true] at h
  exact read_all h.2 (by decide) i

theorem toList_finite {size n : Nat} {m : Memory} (h : m.legal size = true) :
    allFinite (m.toList n) = true := by
  simp only [allFinite, Memory.toList, List.all_eq_true, List.mem_map]
  rintro _ ⟨i, _, rfl⟩
  exact read_isFinite h i

theorem allFinite_take {xs : List Word} (n : Nat) (h : allFinite xs = true) :
    allFinite (xs.take n) = true := by
  simp only [allFinite, List.all_eq_true] at h ⊢
  exact fun x hx => h x (List.mem_of_mem_take hx)

theorem allFinite_drop {xs : List Word} (n : Nat) (h : allFinite xs = true) :
    allFinite (xs.drop n) = true := by
  simp only [allFinite, List.all_eq_true] at h ⊢
  exact fun x hx => h x (List.mem_of_mem_drop hx)

theorem allFinite_append {xs ys : List Word} :
    allFinite (xs ++ ys) = true ↔ allFinite xs = true ∧ allFinite ys = true := by
  simp [allFinite]

theorem synthesise_finite {num : Num} (hn : num.Sound) {c : Cfg} {x : List (Word × Word)} {ovl ovl' : Memory} {out : List Word}
    (hc : c.valid = true) (e : synthesise num c x ovl = some (out, ovl')) :
    out.length = c.fftN ∧ allFinite out = true ∧ ovl'.legal (c.fftN / 2) = true := by
  obtain ⟨y, r, -, hl, hl', hm, ho, rfl⟩ := synthesise_some e
  have hr : allFinite r = true := allFinite_of_getD fun i hi => hn.mul (hm i (by omega))
  have := valid_even hc
  refine ⟨hl', allFinite_of_getD fun i hi => ?_, ofList_legal (by simp [hl]; omega) (allFinite_drop _ hr)⟩
  have h := ho i (by omega)
  split at h
  · exact hn.add h
  · rw [h]; exact allFinite_getD hr i

/-- The engine's step keeps its invariants and delivers a finite frame of the length it was given. -/
theorem specFrame_legal {num : Num} (hn : num.Sound) {c : Cfg} {sub : Bool} {run : BitVec 32} {e e' : SpectralState} {f g : List Word}
    (hc : c.valid = true) (h : specFrame num c sub run e f = some (g, e'))
    (he : e.legal c = true) (hf : allFinite f = true) (hl : f.length ≤ c.fftN) :
    e'.legal c = true ∧ allFinite g = true ∧ g.length = f.length := by
  rcases specFrame_some h with ⟨_, _, rfl, rfl⟩ | ⟨x, mag, e1, ha, ht, hk⟩
  · exact ⟨he, hf, rfl⟩
  · have he1 : e1.legal c = true := by
      rcases track_some ht with ⟨_, rfl⟩ | ⟨hu, p, hp, rfl⟩
      · exact he
      · have hm : mag.length = c.fftN / 2 + 1 := (analyse_some ha).choose_spec.2.2.1
        obtain ⟨hlt, _⟩ := updates_true.mp hu
        have := valid_facts hc
        simp only [SpectralState.legal, Bool.and_eq_true, decide_eq_true_eq] at he ⊢
        refine ⟨⟨?_, ofList_legal (by rw [newProfile_length hp hm])
          (newProfile_finite hn hp (magnitudes_finite hn ha))⟩, he.2⟩
        simp only [BitVec.toNat_add, BitVec.toNat_ofNat]
        omega
    rcases hk with ⟨_, rfl, rfl⟩ | ⟨_, y, out, ovl, _, ho, rfl, rfl⟩
    · exact ⟨he1, hf, rfl⟩
    · obtain ⟨hol, hof, hov⟩ := synthesise_finite hn hc ho
      refine ⟨?_, allFinite_take _ hof, by simp [hol]; omega⟩
      simp only [SpectralState.legal, Bool.and_eq_true, decide_eq_true_eq] at he1 ⊢
      exact ⟨he1.1, hov⟩

/-- The chain keeps its invariants and delivers a finite frame of the length it was given. -/
theorem preprocess_legal {num : Num} (hn : num.Sound) {c : Cfg} {sub : Bool} {ch ch' : ChainState} {f o : List Word}
    (hc : c.valid = true) (h : preprocess num c sub ch f = some (o, ch'))
    (hch : ch.legal c = true) (hf : allFinite f = true) (hl : f.length ≤ c.fftN) :
    ch'.legal c = true ∧ allFinite o = true ∧ o.length = f.length := by
  obtain ⟨y, flt, sp, run, g, d, e, gain, hh, -, hg, hs, ha, rfl⟩ := preprocess_some.mp h
  simp only [ChainState.legal, Bool.and_eq_true] at hch ⊢
  obtain ⟨hyf, hfl⟩ := hpfFrame_finite hn hh hf hch.1.1
  have hyl := hpfFrame_length hh
  have hgl := fade_length hg
  obtain ⟨hel, hdf, hdl⟩ := specFrame_legal hn hc hs hch.1.2 (fade_finite hn hg hyf) (by omega)
  obtain ⟨hof, hgf⟩ := agcFrame_finite hn ha
  have hal := agcFrame_length ha
  exact ⟨⟨⟨hfl, hel⟩, hgf⟩, hof, by omega⟩

/-! ### Frame assembler -/

/-- A completed frame: emitted raw, or through the chain. -/
theorem completeFrame_ok {s t : State} {f : List Word} :
    completeFrame s f = .ok t ↔
      (s.chainEn = false ∧ t = s.emitData f) ∨
      (s.chainEn = true ∧ ∃ g ch, preprocess s.cfg.num s.cfg s.subEn s.chain f = some (g, ch) ∧
        t = (s.setChain ch).emitData g) := by
  by_cases h : s.chainEn = true
  · simp only [completeFrame, h, if_true, bind_ok, numeric_ok, Prod.exists]
    constructor
    · rintro ⟨g, ch, hp, ht⟩; exact .inr ⟨trivial, g, ch, hp, (Except.ok.inj ht).symm⟩
    · rintro (⟨hc, _⟩ | ⟨_, g, ch, hp, rfl⟩)
      · cases hc
      · exact ⟨g, ch, hp, rfl⟩
  · simp only [completeFrame, h]
    simp [eq_comm]

/-- One sample: stored; and when it completes a frame, the frame is taken out. -/
theorem pushSample_ok {s t : State} {x : Word} :
    pushSample s x = .ok t ↔ s.cursor.toNat < s.cfg.fftN ∧
      ((s.cursor + 1#24 ≠ s.frameSize ∧
          t = { s with acc := s.acc.write s.cursor.toNat x, cursor := s.cursor + 1#24 }) ∨
       (s.cursor + 1#24 = s.frameSize ∧ s.frameSize.toNat ≤ s.cfg.fftN ∧
          completeFrame { s with acc := s.acc.write s.cursor.toNat x, cursor := 0#24 }
            ((s.acc.write s.cursor.toNat x).toList s.frameSize.toNat) = .ok t)) := by
  simp only [pushSample, bind_ok, writeAcc_ok]
  constructor
  · rintro ⟨_, ⟨hc, rfl⟩, h⟩
    refine ⟨hc, ?_⟩
    split at h
    · rename_i he
      obtain ⟨f, hf, h⟩ := bind_ok.mp h
      obtain ⟨hl, rfl⟩ := readAcc_ok.mp hf
      exact .inr ⟨he, hl, h⟩
    · rename_i he
      exact .inl ⟨he, by simpa [pure, Except.pure, eq_comm] using h⟩
  · rintro ⟨hc, ⟨hn, rfl⟩ | ⟨he, hl, h⟩⟩
    · refine ⟨_, ⟨hc, rfl⟩, ?_⟩
      rw [if_neg hn]
      rfl
    · refine ⟨_, ⟨hc, rfl⟩, ?_⟩
      rw [if_pos he]
      exact bind_ok.mpr ⟨_, readAcc_ok.mpr ⟨hl, rfl⟩, h⟩

@[simp] theorem pushSamples_nil (s : State) : pushSamples s [] = .ok s := rfl

theorem pushSamples_cons {s t : State} {x : Word} {xs : List Word} :
    pushSamples s (x :: xs) = .ok t ↔ ∃ u, pushSample s x = .ok u ∧ pushSamples u xs = .ok t := by
  simp only [pushSamples, List.foldlM_cons, bind_ok]

theorem pushSamples_append {s t : State} {xs ys : List Word} :
    pushSamples s (xs ++ ys) = .ok t ↔ ∃ u, pushSamples s xs = .ok u ∧ pushSamples u ys = .ok t := by
  simp only [pushSamples, List.foldlM_append, bind_ok]

end Sys2Proof.Machine
end

