-- ==== Sys2Proof/Laws/Step.lean ====
section
/-! SUPPORT. The step: which command is next on the stream, and what is left of the stream. -/

namespace Sys2Proof.Machine

@[simp] theorem leadingWords_nil : leadingWords [] = [] := rfl
@[simp] theorem leadingWords_word (w : Word) (r : List HostEvent) :
    leadingWords (.word w :: r) = w :: leadingWords r := rfl
@[simp] theorem leadingWords_reset (r : List HostEvent) : leadingWords (.reset :: r) = [] := rfl

theorem leadingWords_append (ws : List Word) (r : List HostEvent) :
    leadingWords (ws.map HostEvent.word ++ r) = ws ++ leadingWords r := by
  induction ws with
  | nil => rfl
  | cons w ws ih => simp [ih]

@[simp] theorem afterReset_words (ws : List Word) (r : List HostEvent) :
    afterReset (ws.map HostEvent.word ++ r) = afterReset r := by
  induction ws with
  | nil => rfl
  | cons w ws ih => simp [afterReset, ih]

/-- A stream is its leading words and then nothing, or a RESET event. -/
theorem stream_cases (input : List HostEvent) :
    (input = (leadingWords input).map HostEvent.word ∧ afterReset input = none) ∨
    ∃ rest, input = (leadingWords input).map HostEvent.word ++ .reset :: rest ∧ afterReset input = some rest := by
  induction input with
  | nil => exact .inl ⟨rfl, rfl⟩
  | cons e r ih =>
    cases e with
    | reset => exact .inr ⟨r, rfl, rfl⟩
    | word w =>
      rcases ih with ⟨h1, h2⟩ | ⟨rest, h1, h2⟩
      · exact .inl ⟨by simp [← h1], h2⟩
      · exact .inr ⟨rest, by simp [← h1], h2⟩

/-- When the words `ws` have been taken off the front, what follows them is left. -/
theorem eventsLeft_append (ws : List Word) (r : List HostEvent) :
    eventsLeft (ws.map HostEvent.word ++ r) (leadingWords r) = r := by
  simp only [eventsLeft, leadingWords_append, List.length_append, Nat.add_sub_cancel]
  rw [List.drop_left' (by simp)]

/-- The step on a stream that begins with a whole command. -/
theorem step_command {s : State} {i : Instr} {rest : List Word}
    (h : decode (leadingWords s.input) = .ok (i, rest)) : step s = exec i (s.consume rest) := by
  simp only [step, h]

/-- The step on a stream that begins with a whole command whose opcode is reserved. -/
theorem step_reserved {s : State} {op : BitVec 8} {rest : List Word}
    (h : decode (leadingWords s.input) = .error (.reservedOpcode op rest)) :
    step s = execReserved op (s.consume rest) := by
  simp only [step, h]

/-- The step where the words run out before a RESET event. -/
theorem step_reset {s : State} {rest : List HostEvent}
    (h : decode (leadingWords s.input) = .error .incomplete) (hr : afterReset s.input = some rest) :
    step s = .next (s.hardReset rest) := by
  simp only [step, h, hr]

/-- No step where the words run out and no RESET event comes. -/
theorem step_stuck {s : State}
    (h : decode (leadingWords s.input) = .error .incomplete) (hr : afterReset s.input = none) :
    step s = .refused .incompleteCommand := by
  simp only [step, h, hr]

/-- The four things a step can be. -/
theorem step_cases (s : State) :
    (∃ i rest, decode (leadingWords s.input) = .ok (i, rest) ∧ step s = exec i (s.consume rest)) ∨
    (∃ op rest, decode (leadingWords s.input) = .error (.reservedOpcode op rest) ∧
      step s = execReserved op (s.consume rest)) ∨
    (∃ rest, decode (leadingWords s.input) = .error .incomplete ∧ afterReset s.input = some rest ∧
      step s = .next (s.hardReset rest)) ∨
    (decode (leadingWords s.input) = .error .incomplete ∧ afterReset s.input = none ∧
      step s = .refused .incompleteCommand) := by
  rcases hd : decode (leadingWords s.input) with (_ | ⟨op, rest⟩) | ⟨i, rest⟩
  · rcases hr : afterReset s.input with _ | rest
    · exact .inr (.inr (.inr ⟨rfl, rfl, step_stuck hd hr⟩))
    · exact .inr (.inr (.inl ⟨rest, rfl, rfl, step_reset hd hr⟩))
  · exact .inr (.inl ⟨op, rest, rfl, step_reserved hd⟩)
  · exact .inl ⟨i, rest, rfl, step_command hd⟩

/-! ### Encoding -/

/-- The bits of a format H header (R81). -/
theorem headerH_getLsbD (o : Opcode) (arg : BitVec 24) (i : Nat) :
    (headerH o arg).getLsbD i = if i < 24 then arg.getLsbD i else o.bits.getLsbD (i - 24) :=
  BitVec.getLsbD_append (x := o.bits) (y := arg) (i := i)

/-- The bits of a format HR header (R82). -/
theorem headerHR_getLsbD (o : Opcode) (reg : BitVec 8) (imm : BitVec 16) (i : Nat) :
    (headerHR o reg imm).getLsbD i = if i < 16 then imm.getLsbD i
      else if i < 24 then reg.getLsbD (i - 16) else o.bits.getLsbD (i - 24) := by
  have h := BitVec.getLsbD_append (x := o.bits ++ reg) (y := imm) (i := i)
  have h' := BitVec.getLsbD_append (x := o.bits) (y := reg) (i := i - 16)
  refine h.trans ?_
  rw [h']
  rcases Nat.lt_or_ge i 16 with hi | hi
  · simp [hi]
  · have h1 : ¬ i < 16 := by omega
    have h2 : i - 16 < 8 ↔ i < 24 := by omega
    have h3 : i - 16 - 8 = i - 24 := by omega
    simp only [h1, h2, h3, if_false]

theorem headerOp_headerH (o : Opcode) (arg : BitVec 24) : headerOp (headerH o arg) = o.bits := by
  ext i hi
  simp [headerOp, headerH_getLsbD, BitVec.getLsbD_eq_getElem hi]

theorem headerArg_headerH (o : Opcode) (arg : BitVec 24) : headerArg (headerH o arg) = arg := by
  ext i hi
  simp [headerArg, headerH_getLsbD, hi]

theorem headerOp_headerHR (o : Opcode) (reg : BitVec 8) (imm : BitVec 16) :
    headerOp (headerHR o reg imm) = o.bits := by
  ext i hi
  have h1 : ¬ 24 + i < 16 := by omega
  simp [headerOp, headerHR_getLsbD, h1, BitVec.getLsbD_eq_getElem hi]

theorem headerReg_headerHR (o : Opcode) (reg : BitVec 8) (imm : BitVec 16) :
    headerReg (headerHR o reg imm) = reg := by
  ext i hi
  have h1 : 16 + i < 24 := by omega
  simp [headerReg, headerHR_getLsbD, h1, BitVec.getLsbD_eq_getElem hi]

theorem headerImm_headerHR (o : Opcode) (reg : BitVec 8) (imm : BitVec 16) :
    headerImm (headerHR o reg imm) = imm := by
  ext i hi
  simp [headerImm, headerHR_getLsbD, hi]

theorem ofBits_bits (o : Opcode) : Opcode.ofBits o.bits = some o := by
  cases o <;> decide

@[simp] theorem flattenPairs_length (bs : List (Word × Word)) : (flattenPairs bs).length = 2 * bs.length := by
  induction bs with
  | nil => rfl
  | cons b bs ih =>
    obtain ⟨x, y⟩ := b
    simp only [flattenPairs, List.length_cons, ih]
    omega

@[simp] theorem pairWords_flattenPairs (bs : List (Word × Word)) : pairWords (flattenPairs bs) = bs := by
  induction bs with
  | nil => rfl
  | cons b bs ih =>
    obtain ⟨x, y⟩ := b
    simp [flattenPairs, pairWords, ih]

end Sys2Proof.Machine
end

