-- ==== Sys2Proof/Laws/Environment.lean ====
section
/-! SUPPORT. The environment, each operation once: what it did when it answers; and the pieces in which
the host sends a block. -/

namespace Sys2Proof.Machine

theorem submit_some {q : Option Nat} {e e' : Env} {f : List Word} {h : Nat} :
    e.submit q f = some (h, e') ↔ queueHasRoom q e.pfq.length = true ∧ h = e.nextH ∧
      e' = { e with
        nextH := e.nextH + 1, pfq := e.pfq ++ [(e.nextH, f)], inbox := e.inbox ++ [(e.nextH, f)] } := by
  simp only [Env.submit]
  constructor
  · intro he
    split at he
    · rename_i hc; cases he; exact ⟨hc, rfl, rfl⟩
    · cases he
  · rintro ⟨hc, rfl, rfl⟩
    rw [if_pos hc]

theorem append_some {q : Option Nat} {e e' : Env} {f : List Word} :
    e.append q f = some e' ↔ queueHasRoom q e.ofq.length = true ∧ e' = { e with ofq := e.ofq ++ [f] } := by
  simp only [Env.append]
  constructor
  · intro he
    split at he
    · rename_i hc; cases he; exact ⟨hc, rfl⟩
    · cases he
  · rintro ⟨hc, rfl⟩
    rw [if_pos hc]

theorem onResult_some {q : Option Nat} {e e' : Env} {out : List Word} :
    e.onResult q out = some e' ↔ ∃ h frame rest, e.pfq = (h, frame) :: rest ∧
      queueHasRoom q e.ofq.length = true ∧ out.length = frame.length ∧
      e' = { e with pfq := rest, ofq := e.ofq ++ [out] } := by
  rcases hp : e.pfq with _ | ⟨⟨h, frame⟩, rest⟩
  · simp [Env.onResult, hp]
  · simp only [Env.onResult, hp, Bool.and_eq_true, decide_eq_true_eq, List.cons.injEq, Prod.mk.injEq]
    constructor
    · intro he
      split at he
      · rename_i hc
        exact ⟨h, frame, rest, ⟨⟨rfl, rfl⟩, rfl⟩, hc.1, hc.2, (Option.some.inj he).symm⟩
      · cases he
    · rintro ⟨h, frame, rest, ⟨⟨rfl, rfl⟩, rfl⟩, hr, hl, rfl⟩
      rw [if_pos ⟨hr, hl⟩]

theorem deliver_some {q : Option Nat} {e e' : Env} :
    e.deliver q = some e' ↔ ∃ out results h frame rest, e.results = out :: results ∧
      e.pfq = (h, frame) :: rest ∧ queueHasRoom q e.ofq.length = true ∧ out.length = frame.length ∧
      e' = { e with results := results, pfq := rest, ofq := e.ofq ++ [out] } := by
  rcases hr : e.results with _ | ⟨out, results⟩
  · simp [Env.deliver, hr]
  · simp only [Env.deliver, hr, onResult_some, List.cons.injEq]
    constructor
    · rintro ⟨h, frame, rest, hp, hq, hl, rfl⟩
      exact ⟨out, results, h, frame, rest, ⟨rfl, rfl⟩, hp, hq, hl, rfl⟩
    · rintro ⟨_, _, h, frame, rest, ⟨rfl, rfl⟩, hp, hq, hl, rfl⟩
      exact ⟨h, frame, rest, hp, hq, hl, rfl⟩

/-- One frame processed: its result is on its way; the failure log grows with a failure only. -/
theorem processOne_some {eng : Engine} {e e' : Env} {r : Except EngineError (List Word)} :
    e.processOne eng r = some e' ↔ ∃ h frame rest log, e.inbox = (h, frame) :: rest ∧
      eng.answers frame r = true ∧ log = (match r with | .ok _ => e.failLog | .error err => e.failLog ++ [(h, err)]) ∧
      e' = { e with inbox := rest, failLog := log, results := e.results ++ [answerTo frame r] } := by
  rcases hi : e.inbox with _ | ⟨⟨h, frame⟩, rest⟩
  · simp [Env.processOne, hi]
  · simp only [Env.processOne, hi, List.cons.injEq, Prod.mk.injEq]
    constructor
    · intro he
      split at he
      · rename_i hc
        exact ⟨h, frame, rest, _, ⟨⟨rfl, rfl⟩, rfl⟩, hc, rfl, by cases r <;> exact (Option.some.inj he).symm⟩
      · cases he
    · rintro ⟨h, frame, rest, log, ⟨⟨rfl, rfl⟩, rfl⟩, hc, rfl, rfl⟩
      rw [if_pos hc]
      cases r <;> rfl

/-- An answer of the engine, or the silence in its place, is as long as the frame (R215, R217). -/
theorem answerTo_length {eng : Engine} {frame : List Word} {r : Except EngineError (List Word)}
    (h : eng.answers frame r = true) : (answerTo frame r).length = frame.length := by
  cases r with
  | ok out =>
    simp only [Engine.answers, Bool.and_eq_true, decide_eq_true_eq] at h
    exact h.2
  | error err => exact List.length_replicate

/-- The loop of `fill` copies at most what is wanted. -/
theorem drain_length_le (fs : List (List Word)) (rcur want : Nat) : (drain fs rcur want).1.length ≤ want := by
  induction fs generalizing rcur want with
  | nil => exact Nat.zero_le _
  | cons f fs ih =>
    simp only [drain]
    split
    · exact Nat.zero_le _
    · split
      · have := ih 0 (want - min want (f.length - rcur))
        simp only [List.length_append, List.length_take, List.length_drop]
        omega
      · simp only [List.length_take, List.length_drop]
        omega

/-- The loop of `fill` discards frames from the head of the queue only. -/
theorem drain_queue (fs : List (List Word)) (rcur want : Nat) : ∃ k, (drain fs rcur want).2.1 = fs.drop k ∧ k ≤ fs.length := by
  induction fs generalizing rcur want with
  | nil => exact ⟨0, rfl, Nat.le_refl _⟩
  | cons f fs ih =>
    simp only [drain]
    split
    · exact ⟨0, rfl, Nat.zero_le _⟩
    · split
      · obtain ⟨k, hk, hl⟩ := ih 0 (want - min want (f.length - rcur))
        exact ⟨k + 1, hk, Nat.succ_le_succ hl⟩
      · exact ⟨0, rfl, Nat.zero_le _⟩

/-- `fill` always fills the whole block (R221). -/
@[simp] theorem fill_length (e : Env) (m : Nat) : (e.fill m).1.length = m := by
  have := drain_length_le e.ofq e.rcur m
  simp only [Env.fill, silentFrame, List.length_append, List.length_replicate]
  omega

/-! ### The host -/

/-- The pieces of a block are the block, in order. -/
theorem pieces_flatten {fuel : Nat} {xs : List Word} (h : xs.length ≤ fuel) : (pieces fuel xs).flatten = xs := by
  induction fuel generalizing xs with
  | zero => simp [List.length_eq_zero_iff.mp (Nat.le_zero.mp h), pieces]
  | succ fuel ih =>
    cases xs with
    | nil => rfl
    | cons x xs =>
      rw [pieces, List.flatten_cons, ih, List.take_append_drop]
      have : 1 ≤ pushLimit := by decide
      simp only [List.length_cons, List.length_drop] at h ⊢
      omega

/-- One PUSH holds each piece. -/
theorem pieces_wellFormed {fuel : Nat} {xs p : List Word} (h : p ∈ pieces fuel xs) : (Instr.push p).wellFormed = true := by
  induction fuel generalizing xs with
  | zero => cases h
  | succ fuel ih =>
    cases xs with
    | nil => cases h
    | cons x xs =>
      rw [pieces, List.mem_cons] at h
      rcases h with rfl | h
      · have : ((x :: xs).take pushLimit).length ≤ pushLimit := by
          rw [List.length_take]; omega
        exact decide_eq_true (Nat.lt_of_le_of_lt this (by decide))
      · exact ih h

/-- A command sent: BHF stepped on exactly its words, and the answer is what the step appended. -/
theorem hostCommand_some {s t : State} {i : Instr} {packets : List (List Word)} {done : Word} :
    hostCommand s i = some (packets, done, t) ↔ i.wellFormed = true ∧ step (s.feedFirst (encode i)) = .next t ∧
      ∃ rest, parseResponse ((t.output.drop s.output.length).length + 1) (t.output.drop s.output.length)
        = some (packets, done, rest) := by
  simp only [hostCommand]
  by_cases hw : i.wellFormed = true
  · rw [if_pos hw]
    rcases step (s.feedFirst (encode i)) with u | f | r
    · simp only [Option.bind_eq_bind, Option.bind_eq_some_iff, Option.some.injEq, Prod.mk.injEq, Prod.exists,
        Host.Outcome.next.injEq]
      constructor
      · rintro ⟨p, d, rest, hp, rfl, rfl, rfl⟩; exact ⟨hw, rfl, rest, hp⟩
      · rintro ⟨_, rfl, rest, hp⟩; exact ⟨packets, done, rest, hp, rfl, rfl, rfl⟩
    · simp
    · simp
  · rw [if_neg hw]; simp [hw]

end Sys2Proof.Machine
end

