-- ==== Sys2Proof/Laws/PerInstr.lean ====
section
/-! SUPPORT. Facts of every command, one lemma per constructor: the encoding of a well-formed command
is one header, whose opcode is the command's, and exactly the payload that the header announces
(spec/30_encoding.md R80, R83, R90). -/

namespace Sys2Proof.Laws

open Sys2Proof.Machine

/-- The words of a command are a header with its opcode and the announced payload. -/
def EncodedShape.Statement (i : Instr) : Prop :=
  i.wellFormed = true → ∃ h t, encode i = h :: t ∧ headerPlen h = t.length ∧ headerOp h = i.opcode.bits

theorem wellFormed_count {i : Instr} (h : i.wellFormed = true) : i.count < 2 ^ 24 := of_decide_eq_true h

theorem plen_real {op : BitVec 8} (arg : BitVec 24) (h7 : op.getLsbD 7 = false)
    (h5 : op.extractLsb' 5 2 = 0b01#2) : plen op arg = arg.toNat := by
  rw [plen, h7, if_neg (by decide), if_pos h5]

theorem encodeSamples_shape {o : Opcode} {xs : List Word} (h7 : o.bits.getLsbD 7 = false)
    (h5 : o.bits.extractLsb' 5 2 = 0b01#2) (hl : xs.length < 2 ^ 24) :
    ∃ h t, encodeSamples o xs = h :: t ∧ headerPlen h = t.length ∧ headerOp h = o.bits := by
  refine ⟨_, _, rfl, ?_, headerOp_headerH _ _⟩
  rw [headerPlen, headerOp_headerH, headerArg_headerH, plen_real _ h7 h5]
  simpa using Nat.mod_eq_of_lt hl

theorem EncodedShape.nop (arg : BitVec 24) : EncodedShape.Statement (.nop arg) := fun _ =>
  ⟨_, _, rfl, by rw [headerPlen, headerOp_headerH]; rfl, headerOp_headerH _ _⟩

theorem EncodedShape.init (arg : BitVec 24) : EncodedShape.Statement (.init arg) := fun _ =>
  ⟨_, _, rfl, by rw [headerPlen, headerOp_headerH]; rfl, headerOp_headerH _ _⟩

theorem EncodedShape.wr (reg : BitVec 8) (imm16 : BitVec 16) : EncodedShape.Statement (.wr reg imm16) :=
  fun _ => ⟨_, _, rfl, by rw [headerPlen, headerOp_headerHR]; rfl, headerOp_headerHR _ _ _⟩

theorem EncodedShape.rd (reg : BitVec 8) (imm16 : BitVec 16) : EncodedShape.Statement (.rd reg imm16) :=
  fun _ => ⟨_, _, rfl, by rw [headerPlen, headerOp_headerHR]; rfl, headerOp_headerHR _ _ _⟩

theorem EncodedShape.push (xs : List Word) : EncodedShape.Statement (.push xs) := fun hw =>
  encodeSamples_shape (by decide) (by decide) (wellFormed_count hw)

theorem EncodedShape.hpf (xs : List Word) : EncodedShape.Statement (.hpf xs) := fun hw =>
  encodeSamples_shape (by decide) (by decide) (wellFormed_count hw)

theorem EncodedShape.vad (xs : List Word) : EncodedShape.Statement (.vad xs) := fun hw =>
  encodeSamples_shape (by decide) (by decide) (wellFormed_count hw)

theorem EncodedShape.spec (xs : List Word) : EncodedShape.Statement (.spec xs) := fun hw =>
  encodeSamples_shape (by decide) (by decide) (wellFormed_count hw)

theorem EncodedShape.agc (xs : List Word) : EncodedShape.Statement (.agc xs) := fun hw =>
  encodeSamples_shape (by decide) (by decide) (wellFormed_count hw)

theorem EncodedShape.prep (xs : List Word) : EncodedShape.Statement (.prep xs) := fun hw =>
  encodeSamples_shape (by decide) (by decide) (wellFormed_count hw)

theorem EncodedShape.fftf (xs : List Word) : EncodedShape.Statement (.fftf xs) := fun hw =>
  encodeSamples_shape (by decide) (by decide) (wellFormed_count hw)

theorem EncodedShape.ffti (bins : List (Word × Word)) : EncodedShape.Statement (.ffti bins) := by
  intro hw
  have hl : bins.length < 2 ^ 24 := wellFormed_count hw
  refine ⟨_, _, rfl, ?_, headerOp_headerH _ _⟩
  rw [headerPlen, headerOp_headerH, headerArg_headerH, flattenPairs_length]
  simpa [plen, Opcode.bits] using Nat.mod_eq_of_lt hl

end Sys2Proof.Laws
end

