-- ==== Sys2Proof/Tests/Slice0.lean ====
section
/-! SUPPORT. The model's own tests. Part 1: well-formedness. Part 2: words written out from
spec/30_encoding.md and the vectors V10, V11 decode to their commands. Part 3: one step of each
command, expected answers from the vectors and programs of spec/95_test_vectors.md. Part 4: for each
statement with premises, a concrete state and operands that meet them all. -/

namespace Sys2Proof.Tests

open Sys2Proof.Machine

/-! ### Helpers -/

/-- The machine of configuration T after RESET (FFT_N = 4, FRAME_SIZE = 4). -/
def machineT : State := State.resetFor Cfg.configT
/-- The machine of configuration T2 after RESET, with CTRL = 3. -/
def machineT2 : State := { State.resetFor Cfg.configT2 with ctrl := 0x0003#16 }
/-- The state before V22: CHAIN_EN = 0, CURSOR = 3, ACC = 1, 2, 3. -/
def machineV22 : State :=
  { machineT with
    ctrl := 0x0000#16
    cursor := 3#24
    acc := [(0, 0x3F800000#32), (1, 0x40000000#32), (2, 0x40400000#32)] }
/-- The state before V43: Active, with a profile and an overlap, SUB_EN = 1. -/
def machineV43 : State :=
  { machineT with
    ctrl := 0x0003#16
    chain := { machineT.chain with
      silRun := 3#32
      spectral := ⟨2#32, [(0, 0x3DFC0000#32), (1, 0x3DB40000#32), (2, 0x3C900000#32)], [(0, 0x3C100000#32)]⟩ } }
/-- The state before V45: Estimating, one update done, SUB_EN = 1. -/
def machineV45 : State :=
  { machineT with
    ctrl := 0x0003#16
    chain := { machineT.chain with
      silRun := 3#32
      spectral := ⟨1#32, [(0, 0x3DA80000#32), (1, 0x3D700000#32), (2, 0x3C400000#32)], []⟩ } }
/-- The state of configuration T with a silence run of 2, no update done. -/
def machineV44 : State := { machineT with chain := { machineT.chain with silRun := 2#32 } }

/-- The machine with words next on its stream. -/
def sent (s : State) (ws : List Word) : State := { s with input := ws.map HostEvent.word }
/-- The words that one step answers. -/
def answer (s : State) (ws : List Word) : Option (List Word) :=
  match step (sent s ws) with
  | .next t => some (t.output.drop s.output.length)
  | _ => none
/-- The state after one step. -/
def stepped (s : State) (ws : List Word) : Option State :=
  match step (sent s ws) with
  | .next t => some t
  | _ => none
/-- The next state of an outcome. -/
def nextOf : Host.Outcome State Fault Refusal → Option State
  | .next t => some t
  | _ => none
/-- The refusal of an outcome. -/
def refusalOf : Host.Outcome State Fault Refusal → Option Refusal
  | .refused r => some r
  | _ => none

theorem next_of {o : Host.Outcome State Fault Refusal} (h : (nextOf o).isSome = true) : ∃ t, o = .next t := by
  cases o with
  | next t => exact ⟨t, rfl⟩
  | fault f => cases h
  | refused r => cases h

theorem some_of {α : Type} {o : Option α} (h : o.isSome = true) : ∃ a, o = some a :=
  Option.isSome_iff_exists.mp h

/-! ### Part 1: well-formedness (R94: a count is a 24-bit field) -/

theorem count_too_big {n : Nat} (h : n = 2 ^ 24) : decide (n < 2 ^ 24) = false := by
  subst h; decide

theorem test_push_too_long : (Instr.push (List.replicate (2 ^ 24) 0#32)).wellFormed = false :=
  count_too_big List.length_replicate
theorem test_hpf_too_long : (Instr.hpf (List.replicate (2 ^ 24) 0#32)).wellFormed = false :=
  count_too_big List.length_replicate
theorem test_vad_too_long : (Instr.vad (List.replicate (2 ^ 24) 0#32)).wellFormed = false :=
  count_too_big List.length_replicate
theorem test_spec_too_long : (Instr.spec (List.replicate (2 ^ 24) 0#32)).wellFormed = false :=
  count_too_big List.length_replicate
theorem test_agc_too_long : (Instr.agc (List.replicate (2 ^ 24) 0#32)).wellFormed = false :=
  count_too_big List.length_replicate
theorem test_prep_too_long : (Instr.prep (List.replicate (2 ^ 24) 0#32)).wellFormed = false :=
  count_too_big List.length_replicate
theorem test_fftf_too_long : (Instr.fftf (List.replicate (2 ^ 24) 0#32)).wellFormed = false :=
  count_too_big List.length_replicate
theorem test_ffti_too_long : (Instr.ffti (List.replicate (2 ^ 24) (0#32, 0#32))).wellFormed = false :=
  count_too_big List.length_replicate
theorem test_longest_is_wellFormed : (Instr.push (List.replicate (2 ^ 24 - 1) 0#32)).wellFormed = true := by
  show decide ((List.replicate (2 ^ 24 - 1) 0#32).length < 2 ^ 24) = true
  rw [List.length_replicate]; decide

/-! ### Part 2: decoding of words written out by hand (R81, R82, R83, R85, R90; V10, V11) -/

theorem test_decode_nop : decode [0x00000000#32] = .ok (.nop 0#24, []) := by decide
theorem test_decode_nop_arg : decode [0x00ABCDEF#32] = .ok (.nop 0xABCDEF#24, []) := by decide
theorem test_decode_init : decode [0x010001E0#32] = .ok (.init 480#24, []) := by decide
theorem test_decode_wr : decode [0x0201000F#32] = .ok (.wr 0x01#8 0x000F#16, []) := by decide
theorem test_decode_rd : decode [0x03060000#32] = .ok (.rd 0x06#8 0x0000#16, []) := by decide
theorem test_decode_push : decode [0x20000002#32, 0x3F800000#32, 0x40000000#32, 0x00000000#32]
    = .ok (.push [0x3F800000#32, 0x40000000#32], [0x00000000#32]) := by decide
theorem test_decode_hpf : decode [0x21000001#32, 0x3F000000#32] = .ok (.hpf [0x3F000000#32], []) := by decide
theorem test_decode_vad : decode [0x22000001#32, 0x3F000000#32] = .ok (.vad [0x3F000000#32], []) := by decide
theorem test_decode_spec : decode [0x23000001#32, 0x3F000000#32] = .ok (.spec [0x3F000000#32], []) := by decide
theorem test_decode_agc : decode [0x24000001#32, 0x3F000000#32] = .ok (.agc [0x3F000000#32], []) := by decide
theorem test_decode_prep : decode [0x25000001#32, 0x3F000000#32] = .ok (.prep [0x3F000000#32], []) := by decide
theorem test_decode_fftf : decode [0x26000001#32, 0x3F000000#32] = .ok (.fftf [0x3F000000#32], []) := by decide
theorem test_decode_ffti : decode [0x40000002#32, 1#32, 2#32, 3#32, 4#32, 5#32]
    = .ok (.ffti [(1#32, 2#32), (3#32, 4#32)], [5#32]) := by decide
theorem test_decode_reserved_27 : decode [0x27000002#32, 1#32, 2#32, 3#32]
    = .error (.reservedOpcode 0x27#8 [3#32]) := by decide
theorem test_decode_reserved_41 : decode [0x41000001#32, 1#32, 2#32, 3#32]
    = .error (.reservedOpcode 0x41#8 [3#32]) := by decide
theorem test_decode_reserved_60 : decode [0x60000003#32, 1#32] = .error (.reservedOpcode 0x60#8 [1#32]) := by decide
theorem test_decode_reserved_80 : decode [0x80000005#32] = .error (.reservedOpcode 0x80#8 []) := by decide
theorem test_decode_reserved_ff : decode [0xFFFFFFFF#32] = .error (.reservedOpcode 0xFF#8 []) := by decide
theorem test_decode_incomplete : decode [0x20000002#32, 1#32] = .error .incomplete := by decide
theorem test_decode_incomplete_reserved : decode [0x41000001#32, 1#32] = .error .incomplete := by decide
theorem test_encode_wr : encode (.wr 0x00#8 3#16) = [0x02000003#32] := by decide
theorem test_encode_ffti : encode (.ffti [(1#32, 2#32)]) = [0x40000001#32, 1#32, 2#32] := by decide
theorem test_table_word : decodeTableWord 64 0x3F00000021000001 = some (.hpf [0x3F000000#32]) := by decide
theorem test_bytes_low_first : bytesOfWords [0x03060000#32] = [0x00#8, 0x00#8, 0x06#8, 0x03#8] := by decide
/-- V13: `CFG sub=1, chain=0`. -/
theorem test_assemble_cfg : Asm.assemble "CFG sub=1, chain=0" = some [0x02000001#32] := by decide +kernel
/-- R100, V30: rationals, negative numbers and repetitions in a sample list. -/
theorem test_assemble_samples : Asm.assemble "HPF 4: -3/2, 0.375, 2 x 0x3F800000 ; comment"
    = some [0x21000004#32, 0xBFC00000#32, 0x3EC00000#32, 0x3F800000#32, 0x3F800000#32] := by decide +kernel

/-! ### Part 3: one step of each command -/

/-- R191. -/
theorem test_nop : stepped machineT [0x00ABCDEF#32] = some { machineT with output := [0xE0000000#32] } := by decide
/-- V61: the largest legal size; V22's state is not empty, so the reset shows. -/
theorem test_init_max : stepped machineV22 [0x01000004#32]
    = some { machineT with ctrl := 0x0000#16, output := [0xE0010000#32] } := by decide
/-- V61: one beyond the largest legal size. -/
theorem test_init_too_big : stepped machineV22 [0x01000005#32]
    = some { machineV22 with status := 0x0002#16, output := [0xE2010000#32] } := by decide
/-- V63: `WR CTRL, 0xFFFC`. -/
theorem test_wr_ctrl : stepped machineT [0x0200FFFC#32]
    = some { machineT with ctrl := 0x0000#16, output := [0xE0020000#32] } := by decide
/-- P5 command 10: `WR STATUS, 0x0005` on 0x000D. -/
theorem test_wr_status : stepped { machineT with status := 0x000D#16 } [0x02010005#32]
    = some { machineT with status := 0x0008#16, output := [0xE0020000#32] } := by decide
/-- P3 command 11: STATUS reads SPEC_STATE = Active. -/
theorem test_rd_status : answer machineV43 [0x03010000#32]
    = some [0xD0000001#32, 0x00000200#32, 0xE0030000#32] := by decide
/-- P5 command 8. -/
theorem test_rd_undefined : stepped machineT [0x030C0000#32]
    = some { machineT with status := 0x0008#16, output := [0xE4030000#32] } := by decide
/-- V22: two frames out, one sample left. -/
theorem test_push_raw : stepped machineV22 [0x20000006#32, 0x40800000#32, 0x40A00000#32, 0x40C00000#32,
      0x40E00000#32, 0x41000000#32, 0x41100000#32]
    = some { machineV22 with
        cursor := 1#24
        acc := [(0, 0x41100000#32), (1, 0x40C00000#32), (2, 0x40E00000#32), (3, 0x41000000#32)]
        output := [0xD0000004#32, 0x3F800000#32, 0x40000000#32, 0x40400000#32, 0x40800000#32,
          0xD0000004#32, 0x40A00000#32, 0x40C00000#32, 0x40E00000#32, 0x41000000#32, 0xE0200000#32] } := by
  decide
/-- V58 with the first frame of P4. -/
theorem test_push_chain : answer machineT2 [0x20000004#32, 0x3F800000#32, 0#32, 0x3F800000#32, 0#32]
    = some [0xD0000004#32, 0x3F200000#32, 0xBF200000#32, 0x3F200000#32, 0xBF200000#32, 0xE0200000#32] := by
  decide +kernel
/-- V32: the outputs, then the history. -/
theorem test_hpf : stepped machineT [0x21000004#32, 0x3F000000#32, 0xBF000000#32, 0x3E800000#32, 0x3F800000#32]
    = some { machineT with
        chain := { machineT.chain with filter := ⟨0x3F800000#32, 0x3E800000#32, 0x3F500000#32, 0x3F800000#32⟩ }
        output := [0xD0000004#32, 0x3F000000#32, 0xBFA00000#32, 0x3F800000#32, 0x3F500000#32, 0xE0210000#32] } := by
  decide +kernel
/-- V33: no sample, no DATA packet. -/
theorem test_hpf_empty : stepped machineT [0x21000000#32] = some { machineT with output := [0xE0210000#32] } := by
  decide
/-- V35e: crossings against zeros; the run is reset. -/
theorem test_vad_speech : stepped machineV44 [0x22000004#32, 0x3F000000#32, 0#32, 0xBF000000#32, 0#32]
    = some { machineT with output := [0xD0000002#32, 1#32, 0#32, 0xE0220000#32] } := by
  decide +kernel
/-- V35d: an RMS equal to the threshold is silence; the run counts. -/
theorem test_vad_threshold : stepped machineV44 [0x22000004#32, 0x3E000000#32, 0xBE000000#32, 0x3E000000#32, 0xBE000000#32]
    = some { machineT with
        chain := { machineT.chain with silRun := 3#32 }
        output := [0xD0000002#32, 0#32, 3#32, 0xE0220000#32] } := by
  decide +kernel
/-- V43: one subtracting step. -/
theorem test_spec_subtracts : stepped machineV43 [0x23000004#32, 0#32, 0x3F000000#32, 0#32, 0#32]
    = some { machineV43 with
        chain := { machineV43.chain with
          spectral := { machineV43.chain.spectral with ovl := [(0, 0xBD220000#32)] } }
        output := [0xD0000004#32, 0x3C100000#32, 0x3E268000#32, 0xBD220000#32, 0#32, 0xE0230000#32] } := by
  decide +kernel
/-- V45: the update that completes the calibration, and the subtraction of the same frame. -/
theorem test_spec_completes : stepped machineV45 [0x23000004#32, 0#32, 0x3DC00000#32, 0x3E000000#32, 0#32]
    = some { machineV43 with
        output := [0xD0000004#32, 0#32, 0x3BD80000#32, 0x3C100000#32, 0#32, 0xE0230000#32] } := by
  decide +kernel
/-- V50. -/
theorem test_agc : stepped machineT [0x24000004#32, 0x3F000000#32, 0xBF000000#32, 0x3F000000#32, 0xBF000000#32]
    = some { machineT with
        chain := { machineT.chain with gain := 0x3F400000#32 }
        output := [0xD0000004#32, 0x3EC00000#32, 0xBEC00000#32, 0x3EC00000#32, 0xBEC00000#32, 0xE0240000#32] } := by
  decide +kernel
/-- V52: the new gain 21/16 scales, and the product is clipped. -/
theorem test_agc_clips :
    stepped { machineT with chain := { machineT.chain with gain := 0x40180000#32 } }
        [0x24000004#32, 0x3F800000#32, 0xBF800000#32, 0x3F800000#32, 0xBF800000#32]
      = some { machineT with
          chain := { machineT.chain with gain := 0x3FA80000#32 }
          output := [0xD0000004#32, 0x3F800000#32, 0xBF800000#32, 0x3F800000#32, 0xBF800000#32, 0xE0240000#32] } := by
  decide +kernel
/-- V57. -/
theorem test_prep : stepped machineT2 [0x25000004#32, 0x3F800000#32, 0#32, 0x3F800000#32, 0#32]
    = some { machineT2 with
        chain := { machineT2.chain with
          filter := ⟨0#32, 0x3F800000#32, 0xBF800000#32, 0x3F800000#32⟩
          gain := 0x3F200000#32 }
        output := [0xD0000004#32, 0x3F200000#32, 0xBF200000#32, 0x3F200000#32, 0xBF200000#32, 0xE0250000#32] } := by
  decide +kernel
/-- V59. -/
theorem test_prep_size : stepped machineT2 [0x25000001#32, 0x3F800000#32]
    = some { machineT2 with status := 0x0004#16, output := [0xE3250000#32] } := by decide
/-- V40, fourth row. -/
theorem test_fftf : stepped machineT [0x26000004#32, 0x3F800000#32, 0x40000000#32, 0x40400000#32, 0x40800000#32]
    = some { machineT with
        output := [0xD0000008#32, 0x41200000#32, 0#32, 0xC0000000#32, 0x40000000#32, 0xC0000000#32, 0#32,
          0xC0000000#32, 0xC0000000#32, 0xE0260000#32] } := by
  decide +kernel
/-- V40: a spectrum without symmetry; only the real part is answered. -/
theorem test_ffti : answer machineT [0x40000004#32, 0#32, 0#32, 0x40800000#32, 0#32, 0#32, 0#32, 0#32, 0#32]
    = some [0xD0000004#32, 0x3F800000#32, 0#32, 0xBF800000#32, 0#32, 0xE0400000#32] := by
  decide +kernel
/-- V49. -/
theorem test_ffti_size : answer machineT [0x40000002#32, 0x3F800000#32, 0#32, 0x3F800000#32, 0#32]
    = some [0xE3400000#32] := by decide
/-- P5 command 2: a reserved opcode takes `2*arg` words with it. -/
theorem test_reserved : stepped machineT [0x41000001#32, 0x3F800000#32, 0x40000000#32, 0x00000000#32]
    = some { machineT with
        status := 0x0001#16, output := [0xE1410000#32], input := [.word 0x00000000#32] } := by decide
/-- R272: RESET in mid-command. -/
theorem test_reset_event :
    nextOf (step { machineV43 with input := [.word 0x20000002#32, .word 1#32, .reset, .word 5#32] })
      = some { machineT with input := [.word 5#32] } := by decide
/-- R83: a command whose payload has not arrived. -/
theorem test_incomplete : refusalOf (step (sent machineT [0x20000002#32, 1#32])) = some .incompleteCommand := by decide

/-! The numerics and the tables. -/

/-- V42: the window of size 8, `0.1882551, 0.6112605, 0.9504844`. -/
theorem test_window : [Rom.win 8 1, Rom.win 8 2, Rom.win 8 3] = [0x3E40C5F2#32, 0x3F1C7B91#32, 0x3F7352F3#32] := by
  decide +kernel
/-- V41: the second entry of the twiddle table of size 8. -/
theorem test_twiddle : Rom.tw 8 1 = (0x3F3504F3#32, 0xBF3504F3#32) := by decide +kernel
/-- R304: 1 + 2^-24 is a tie and goes to the even word; 1 + 3*2^-24 goes up. -/
theorem test_add_ties : (F32.add 0x3F800000#32 0x33800000#32, F32.add 0x3F800001#32 0x33800000#32)
    = (some 0x3F800000#32, some 0x3F800002#32) := by decide
/-- R305: the largest finite value doubled is not finite. -/
theorem test_add_overflow : F32.add 0x7F7FFFFF#32 0x7F7FFFFF#32 = none := by decide
/-- V36: -0.0 is not negative. -/
theorem test_negative_zero : crossings [0x3F000000#32, 0x80000000#32, 0x3F000000#32, 0x80000000#32] = 0 := by decide
/-- V55: the ramp frames. -/
theorem test_fade : fade Num.binary32 ⟨2, 2⟩ 4#32 (List.replicate 4 0x3F800000#32)
    = some [0x3F000000#32, 0x3EC00000#32, 0x3E800000#32, 0x3E000000#32] := by decide +kernel

/-! ### Part 4: every statement's premises are met -/

theorem machineT_legal : Legal machineT :=
  ⟨by decide, by decide, by decide, by decide, by decide, by decide, by decide, by decide⟩
theorem machineT2_legal : Legal machineT2 :=
  ⟨by decide, by decide, by decide, by decide, by decide, by decide, by decide, by decide⟩
theorem machineV22_legal : Legal machineV22 :=
  ⟨by decide, by decide, by decide, by decide, by decide, by decide, by decide, by decide⟩
theorem machineV43_legal : Legal machineV43 :=
  ⟨by decide, by decide, by decide, by decide, by decide, by decide, by decide, by decide⟩
theorem machineV45_legal : Legal machineV45 :=
  ⟨by decide, by decide, by decide, by decide, by decide, by decide, by decide, by decide⟩

/-- A frame of configuration T. -/
def frame : List Word := [0x3F800000#32, 0x00000000#32, 0x3F800000#32, 0x00000000#32]
/-- The largest finite word, four times: sums and products of it overflow. -/
def loud : List Word := List.replicate 4 0x7F7FFFFF#32
/-- A frame with a NaN. -/
def broken : List Word := [0x7FC00000#32, 0#32, 0#32, 0#32]
/-- Four bins. -/
def bins : List (Word × Word) := [(0x3F800000#32, 0#32), (0#32, 0x3F800000#32), (0#32, 0#32), (0#32, 0xBF800000#32)]

theorem witness_EncodeThenDecode :
    (Instr.nop 0xFFFFFF#24).wellFormed = true ∧ (Instr.wr 0xFF#8 0xFFFF#16).wellFormed = true ∧
    (Instr.push []).wellFormed = true ∧ (Instr.ffti bins).wellFormed = true := by decide
theorem witness_DecodeThenEncode : decode [0x0301FFFF#32, 7#32] = .ok (.rd 0x01#8 0xFFFF#16, [7#32]) := by decide
theorem witness_PayloadLengthByHeader_incomplete :
    (sent machineT [0x20000001#32]).input = [HostEvent.word 0x20000001#32] ∧ ([] : List Word).length < headerPlen 0x20000001#32 := by
  decide
/-- The four families of R83 and their boundary opcodes. -/
theorem witness_PayloadLengthByHeader_families :
    [0x00000003#32, 0x1F000003#32, 0x20000003#32, 0x3F000003#32, 0x40000003#32, 0x5F000003#32, 0x60000003#32,
      0x7F000003#32, 0x80000003#32, 0xFFFFFFFF#32].map headerPlen = [0, 0, 3, 3, 6, 6, 0, 0, 0, 0] := by decide
theorem witness_ByteTransportRoundTrip : [1#8, 2#8, 3#8, 4#8].length % 4 = 0 ∧ ([] : List Byte).length % 4 = 0 := by
  decide
theorem witness_StepRunsTheDecodedCommand :
    streamEnd [.reset, .word 9#32] ∧ streamEnd [] ∧
    ({ machineT with input := [.word 0x03060000#32, .word 7#32, .reset, .word 9#32] } : State).input
      = [0x03060000#32, 7#32].map HostEvent.word ++ [.reset, .word 9#32] ∧
    decode [0x03060000#32, 7#32] = .ok (.rd 0x06#8 0#16, [7#32]) :=
  ⟨.inr ⟨_, rfl⟩, .inl rfl, rfl, by decide⟩
theorem witness_StepRunsTheEncodedCommand : (Instr.hpf frame).wellFormed = true := by decide
theorem witness_ReservedOpcodeRaisesErrOp :
    [0x04#8, 0x1F#8, 0x27#8, 0x3F#8, 0x41#8, 0x7F#8, 0x80#8, 0xFF#8].all (fun op => (Opcode.ofBits op).isNone) = true ∧
    [0x00#8, 0x03#8, 0x20#8, 0x26#8, 0x40#8].all (fun op => (Opcode.ofBits op).isSome) = true ∧
    Opcode.ofBits ((0x27000002#32).extractLsb' 24 8) = none ∧ [1#32, 2#32].length = headerPlen 0x27000002#32 ∧
    (sent machineT [0x27000002#32, 1#32, 2#32, 3#32]).input
      = [0x27000002#32, 1#32, 2#32].map HostEvent.word ++ [.word 3#32] := by decide
theorem witness_RaisedErrorChangesOneStickyBit :
    decode [0x01000000#32] = .ok (.init 0#24, []) ∧ errorOf machineT (.init 0#24) = some .cfg ∧
    decode [0x02020000#32] = .ok (.wr 0x02#8 0#16, []) ∧ errorOf machineT (.wr 0x02#8 0#16) = some .reg ∧
    decode [0x22000001#32, 1#32] = .ok (.vad [1#32], []) ∧ errorOf machineT (.vad [1#32]) = some .size ∧
    decode [0xFF000000#32] = .error (.reservedOpcode 0xFF#8 []) ∧
    (sent machineT [0x22000001#32, 1#32]).input = [0x22000001#32, 1#32].map HostEvent.word ++ [] := by decide
theorem witness_StickyBitsOnlyByErrors :
    (∃ t, exec (.init 5#24) machineT = .next t) ∧ (∃ t, exec (.wr 0x01#8 0xFFFF#16) machineT = .next t) ∧
    ∃ t, exec (.nop 0#24) machineT = .next t := ⟨⟨_, rfl⟩, ⟨_, rfl⟩, ⟨_, rfl⟩⟩
theorem witness_ResetSetsEveryValue :
    decode [0x20000002#32, 1#32] = .error .incomplete ∧ decode [] = .error .incomplete ∧
    ({ machineV43 with input := [.word 0x20000002#32, .word 1#32, .reset] } : State).input
      = [0x20000002#32, 1#32].map HostEvent.word ++ .reset :: [] := by decide
/-- The boundary values of the two branches (R192): 0, 1, FFT_N, FFT_N + 1. -/
theorem witness_InitReinitialisesTheStream :
    ((0#24).toNat = 0 ∨ machineT.cfg.fftN < (0#24).toNat) ∧ ¬ ((1#24).toNat = 0 ∨ machineT.cfg.fftN < (1#24).toNat) ∧
    ¬ ((4#24).toNat = 0 ∨ machineT.cfg.fftN < (4#24).toNat) ∧ ((5#24).toNat = 0 ∨ machineT.cfg.fftN < (5#24).toNat) := by
  decide
/-- Registers 0, 1, 2 and 255 (R194): each falls under one branch. -/
theorem witness_WrWritesCtrlAndClearsStatus :
    [0x00#8, 0x01#8, 0x02#8, 0xFF#8].map (fun r => (machineT.writeReg r 0xFFFF#16).isSome)
      = [true, true, false, false] := by decide
/-- Registers 0x00, 0x0B, 0x0C and 0xFF (R196). -/
theorem witness_RdAnswersTheRegister :
    (0x00#8, machineT.ctrl.zeroExtend 32) ∈ [(0x00#8, machineT.ctrl.zeroExtend 32)] ∧
    [0x00#8, 0x0B#8, 0x0C#8, 0xFF#8].map (fun r => (machineT.readReg r).isSome) = [true, true, false, false] ∧
    0x0B < (0x0C#8).toNat ∧ 0x0B < (0xFF#8).toNat := by decide
theorem witness_PushRawLosesNoSample :
    Legal machineV22 ∧ machineV22.chainEn = false ∧ allFinite frame = true := ⟨machineV22_legal, by decide, by decide⟩
theorem witness_PushRunsTheChainPerFrame :
    Legal machineT2 ∧ machineT2.chainEn = true ∧ allFinite (frame ++ [0x3F800000#32]) = true ∧
    [frame].flatten ++ [0x3F800000#32] = machineT2.acc.toList machineT2.cursor.toNat ++ (frame ++ [0x3F800000#32]) ∧
    (∀ f ∈ [frame], f.length = machineT2.frameSize.toNat) ∧ [0x3F800000#32].length < machineT2.frameSize.toNat ∧
    ∃ r, chainFrames machineT2.cfg machineT2.subEn machineT2.chain [frame] = some r :=
  ⟨machineT2_legal, by decide, by decide, by decide, by decide, by decide, some_of (by decide +kernel)⟩
theorem witness_PushIsIndependentOfTheChunking :
    ∃ t, exec (.push [0x3F800000#32]) machineV22 = .next t ∧ ∃ u, exec (.push frame) t = .next u :=
  ⟨_, rfl, _, rfl⟩
theorem witness_HpfFiltersOneSample :
    F32.isFinite 0x3F800000#32 = true ∧
    machineT.cfg.num.mul machineT.cfg.biquad.b0 0x3F800000#32 = some 0x3F800000#32 ∧
    machineT.cfg.num.mul machineT.cfg.biquad.b1 machineT.chain.filter.x1 = some 0x80000000#32 ∧
    machineT.cfg.num.mul machineT.cfg.biquad.b2 machineT.chain.filter.x2 = some 0#32 ∧
    machineT.cfg.num.mul machineT.cfg.biquad.a1 machineT.chain.filter.y1 = some 0x80000000#32 ∧
    machineT.cfg.num.mul machineT.cfg.biquad.a2 machineT.chain.filter.y2 = some 0#32 ∧
    machineT.cfg.num.add 0x3F800000#32 0x80000000#32 = some 0x3F800000#32 ∧ machineT.cfg.num.add 0x3F800000#32 0#32 = some 0x3F800000#32 ∧
    machineT.cfg.num.sub 0x3F800000#32 0x80000000#32 = some 0x3F800000#32 ∧ machineT.cfg.num.sub 0x3F800000#32 0#32 = some 0x3F800000#32 := by
  decide
theorem witness_HpfFiltersSampleBySample :
    allFinite [0x3F800000#32] = true ∧
    hpfStep machineT.cfg.num.toArith machineT.cfg.biquad machineT.chain.filter ([0x3F800000#32].getD 0 F32.posZero)
      = some (0x3F800000#32, ⟨0x3F800000#32, 0#32, 0x3F800000#32, 0#32⟩) := by decide
theorem witness_HpfIsIndependentOfTheChunking :
    ∃ t, exec (.hpf [0x3F000000#32]) machineT = .next t ∧ ∃ u, exec (.hpf [0xBF000000#32]) t = .next u :=
  ⟨{ machineT with
      chain := { machineT.chain with filter := ⟨0x3F000000#32, 0#32, 0x3F000000#32, 0#32⟩ }
      output := [0xD0000001#32, 0x3F000000#32, 0xE0210000#32] }, rfl, next_of (by decide)⟩
theorem witness_HpfKeepsSilence :
    machineT.cfg.valid = true ∧ machineT.cfg.numerics = .binary32 ∧ isZero machineT.chain.filter.x1 = true ∧ isZero machineT.chain.filter.x2 = true ∧
    isZero machineT.chain.filter.y1 = true ∧ isZero machineT.chain.filter.y2 = true ∧
    [0x80000000#32, 0x00000000#32].all isZero = true := by decide
theorem witness_HpfIsLinearInExactArithmetic : ([1, 2] : List ℚ).length = ([3, 4] : List ℚ).length := rfl
/-- A wrong length, a speech frame (V35a) and a silent one (V35d). -/
theorem witness_VadClassifiesTheFrame :
    [0#32].length ≠ machineT.frameSize.toNat ∧ frame.length = machineT.frameSize.toNat ∧ allFinite frame = true ∧
    rms machineT.cfg.num [0x3F000000#32, 0xBF000000#32, 0x3F000000#32, 0xBF000000#32] = some 0x3F000000#32 ∧
    crossingRate machineT.cfg.num [0x3F000000#32, 0xBF000000#32, 0x3F000000#32, 0xBF000000#32] = some 0x3F400000#32 ∧
    F32.lt machineT.cfg.vad.eth 0x3F000000#32 = true ∧ F32.lt machineT.cfg.vad.zth 0x3F400000#32 = true ∧
    rms machineT.cfg.num [0x3E000000#32, 0xBE000000#32, 0x3E000000#32, 0xBE000000#32] = some 0x3E000000#32 ∧
    F32.lt machineT.cfg.vad.eth 0x3E000000#32 = false := by decide +kernel
theorem witness_FrameMeasures :
    rms Num.binary32 [0x40400000#32, 0x40800000#32, 0x00000000#32, 0x00000000#32] = some 0x40200000#32 ∧
    crossingRate Num.binary32 [0x3F800000#32, 0xBF800000#32] = some 0x3F000000#32 := by decide +kernel
theorem witness_VadCallsZeroFramesSilence :
    Legal machineT ∧ machineT.cfg.numerics = .binary32 ∧
    [0#32, 0x80000000#32, 0#32, 0#32].length = machineT.frameSize.toNat ∧
    [0#32, 0x80000000#32, 0#32, 0#32].all isZero = true := ⟨machineT_legal, rfl, by decide, by decide⟩
theorem witness_FftfAnswersTheSpectrum :
    [0#32].length ≠ machineT.cfg.fftN ∧ frame.length = machineT.cfg.fftN ∧ allFinite frame = true ∧
    ∃ y, fftInPlace machineT.cfg.num.toArith (Rom.tw machineT.cfg.fftN) (Nat.log2 machineT.cfg.fftN)
      (frame.map (fun x => (x, 0x00000000#32))) = some y :=
  ⟨by decide, by decide, by decide, some_of (by decide +kernel)⟩
theorem witness_FftiAnswersTheSignal :
    ([] : List (Word × Word)).length ≠ machineT.cfg.fftN ∧ bins.length = machineT.cfg.fftN ∧
    allFinite (flattenPairs bins) = true ∧ machineT.cfg.num.fromNat machineT.cfg.fftN = some 0x40800000#32 ∧
    ∃ y, ifftInPlace machineT.cfg.num.toArith (Rom.tw machineT.cfg.fftN) (Nat.log2 machineT.cfg.fftN) 0x40800000#32 bins
      = some y :=
  ⟨by decide, by decide, by decide, by decide, some_of (by decide +kernel)⟩
theorem witness_FftComputesTheDft : ([(1, 2)] : List (ℝ × ℝ)).length = 2 ^ 0 ∧
    ([(1, 0), (2, 0), (3, 0), (4, 0)] : List (ℝ × ℝ)).length = 2 ^ 2 := ⟨rfl, rfl⟩
theorem witness_InverseUndoesTheFft : ([(1, 2)] : List (ℝ × ℝ)).length = 2 ^ 0 ∧
    ([(1, 0), (2, 0), (3, 0), (4, 0)] : List (ℝ × ℝ)).length = 2 ^ 2 := ⟨rfl, rfl⟩
theorem witness_RomTablesAreExactWhereTheRuleIs : 1 < 4 ∧ 0 < 4 ∧ 4 % 4 = 0 := by decide
/-- The pass-through, an update, a subtraction; and a frame that no gate opens for. -/
theorem witness_SpecRunsTheEngine :
    [0#32].length ≠ machineT.frameSize.toNat ∧ frame.length = machineT.frameSize.toNat ∧ allFinite frame = true ∧
    (∃ r, specFrame machineT.cfg.num machineT.cfg machineT.subEn machineT.chain.silRun machineT.chain.spectral frame = some r) ∧
    (∃ r, specFrame machineV45.cfg.num machineV45.cfg machineV45.subEn machineV45.chain.silRun machineV45.chain.spectral frame
      = some r) ∧
    (∃ r, specFrame machineV43.cfg.num machineV43.cfg machineV43.subEn machineV43.chain.silRun machineV43.chain.spectral frame
      = some r) ∧
    ¬ (machineT.chain.spectral.updCnt.toNat < machineT.cfg.updMax ∧ machineT.cfg.silMin < machineT.chain.silRun.toNat) ∧
    ¬ (machineT.chain.spectral.updCnt.toNat = machineT.cfg.updMax ∧ machineT.ctrl.getLsbD 0 = true) :=
  ⟨by decide, by decide, by decide, some_of (by decide +kernel), some_of (by decide +kernel),
    some_of (by decide +kernel), by decide, by decide⟩
/-- A frame shorter than the transform too: it is padded. -/
theorem witness_AnalysisWindowsPadsAndTransforms :
    (∃ r, analyse Num.binary32 Cfg.configT frame = some r) ∧
    ∃ r, analyse Num.binary32 Cfg.configT [0#32, 0x3F000000#32, 0x3F000000#32] = some r :=
  ⟨some_of (by decide +kernel), some_of (by decide +kernel)⟩
/-- The first update, a later one, and none. -/
theorem witness_ProfileTracksSilence :
    (∃ r, specFrame Num.binary32 Cfg.configT true 2#32 SpectralState.reset frame = some r) ∧
    (SpectralState.reset.updCnt.toNat < Cfg.configT.updMax ∧ Cfg.configT.silMin < (2#32).toNat) ∧
    (∃ r, specFrame Num.binary32 Cfg.configT true 3#32 machineV45.chain.spectral frame = some r) ∧
    (machineV45.chain.spectral.updCnt.toNat < Cfg.configT.updMax ∧ machineV45.chain.spectral.updCnt.toNat ≠ 0) ∧
    ¬ Cfg.configT.silMin < (1#32).toNat ∧
    ∃ r, specFrame Num.binary32 Cfg.configT true 1#32 SpectralState.reset frame = some r :=
  ⟨some_of (by decide +kernel), by decide, some_of (by decide +kernel), by decide, by decide,
    some_of (by decide +kernel)⟩
theorem witness_SubtractionRunsOnlyWhenActive :
    (specFrame Num.binary32 Cfg.configT true 3#32 machineV43.chain.spectral frame).any
      (fun r => decide (r.2.updCnt.toNat = Cfg.configT.updMax)) = true ∧
    (specFrame Num.binary32 Cfg.configT false 3#32 machineV43.chain.spectral frame).any
      (fun r => decide (r.2.updCnt.toNat = Cfg.configT.updMax)) = true ∧
    (specFrame Num.binary32 Cfg.configT true 2#32 SpectralState.reset frame).any
      (fun r => decide (r.2.updCnt.toNat = 1)) = true := by decide +kernel
/-- Numerics whose cosine and sine are 1 and 0 everywhere. -/
def flatNum : Sys2Proof.Num :=
  { Num.binary32 with
    cos := fun _ => some F32.one, sin := fun _ => some F32.posZero, atan2 := fun _ _ => some F32.posZero }
theorem witness_SubtractedSpectrumIsMirrored :
    (∃ y, subtractSpectrum Num.binary32 Cfg.configT bins [0x3F800000#32, 0x3F800000#32, 0#32] [] = some y) ∧
    (∃ y, subtractSpectrum flatNum { Cfg.configT with spectrum := .polar } bins
      [0x3F800000#32, 0x3F800000#32, 0#32] [] = some y) :=
  ⟨some_of (by decide +kernel), some_of (by decide +kernel)⟩
theorem witness_SynthesisOverlapsAndAdds :
    Cfg.configT.valid = true ∧ ∃ r, synthesise Num.binary32 Cfg.configT bins [(0, 0x3C100000#32)] = some r :=
  ⟨by decide, some_of (by decide +kernel)⟩
theorem witness_SuppressionKeepsTheFloor :
    Cfg.configT.valid = true ∧ F32.le F32.posZero 0x3F800000#32 = true ∧
    suppressed Num.binary32 Cfg.configT 0x3F800000#32 0x3F800000#32 = some 0x3E000000#32 := by decide
/-- A valid INIT, a RESET, and commands that re-initialise nothing, before and after Active. -/
theorem witness_ActiveProfileIsFrozen :
    (Legal (sent machineV43 [0x01000004#32]) ∧ reinitialises (sent machineV43 [0x01000004#32]) ∧
      ∃ t, step (sent machineV43 [0x01000004#32]) = .next t) ∧
    (reinitialises { machineV43 with input := [.reset] } ∧ ∃ t, step { machineV43 with input := [.reset] } = .next t) ∧
    (¬ reinitialises (sent machineV43 [0x00000000#32]) ∧
      machineV43.chain.spectral.updCnt.toNat = machineV43.cfg.updMax ∧
      ∃ t, step (sent machineV43 [0x00000000#32]) = .next t) ∧
    machineV45.chain.spectral.updCnt.toNat < machineV45.cfg.updMax := by
  refine ⟨⟨⟨by decide, by decide, by decide, by decide, by decide, by decide, by decide, by decide⟩,
    .inl ⟨4#24, [], by decide, by decide, by decide⟩, next_of (by decide)⟩,
    ⟨.inr ⟨by decide, by decide⟩, next_of (by decide)⟩, ⟨?_, by decide, next_of (by decide)⟩, by decide⟩
  rintro (⟨n, rest, h, -⟩ | ⟨h, -⟩)
  · have e : decode (leadingWords (sent machineV43 [0x00000000#32]).input) = .ok (.nop 0#24, []) := by decide
    rw [e] at h; cases h
  · have e : decode (leadingWords (sent machineV43 [0x00000000#32]).input) = .ok (.nop 0#24, []) := by decide
    rw [e] at h; cases h
/-- V50, operation by operation. -/
theorem witness_AgcScalesWithTheNewGain :
    [0#32].length ≠ machineT.frameSize.toNat ∧ frame.length = machineT.frameSize.toNat ∧ allFinite frame = true ∧
    rms machineT.cfg.num [0x3F000000#32, 0xBF000000#32, 0x3F000000#32, 0xBF000000#32] = some 0x3F000000#32 ∧
    machineT.cfg.num.div machineT.cfg.agc.target (F32.max 0x3F000000#32 machineT.cfg.agc.eps) = some 0x3F000000#32 ∧
    machineT.cfg.num.sub (F32.min (F32.max 0x3F000000#32 machineT.cfg.agc.min) machineT.cfg.agc.max) machineT.chain.gain
      = some 0xBF000000#32 ∧
    machineT.cfg.num.mul machineT.cfg.agc.mu 0xBF000000#32 = some 0xBE800000#32 ∧
    machineT.cfg.num.add machineT.chain.gain 0xBE800000#32 = some 0x3F400000#32 ∧
    machineT.cfg.num.mul 0x3F400000#32 0x3F000000#32 = some 0x3EC00000#32 ∧
    machineT.cfg.num.mul 0x3F400000#32 0xBF000000#32 = some 0xBEC00000#32 := by decide +kernel
theorem witness_AgcStaysInRange :
    Cfg.configT.agc.valid = true ∧ ∃ r, agcFrame Num.binary32 Cfg.configT.agc F32.one frame = some r :=
  ⟨by decide, some_of (by decide +kernel)⟩
theorem witness_AgcKeepsSilence :
    machineT.cfg.numerics = .binary32 ∧
    [0#32, 0x80000000#32, 0#32, 0#32].length = machineT.frameSize.toNat ∧
    [0#32, 0x80000000#32, 0#32, 0#32].all isZero = true ∧
    ∃ t, exec (.agc [0#32, 0x80000000#32, 0#32, 0#32]) machineT = .next t :=
  ⟨rfl, by decide, by decide, next_of (by decide +kernel)⟩
/-- Runs 2 (none), 3 and 4 (the ramp), 5 (zeros). -/
theorem witness_FadeIsALinearRamp :
    [2#32, 3#32, 4#32, 5#32].all (fun run => (fade Num.binary32 Cfg.configT.fade run frame).isSome) = true ∧
    (2#32).toNat ≤ Cfg.configT.fade.thresh ∧ ¬ (3#32).toNat ≤ Cfg.configT.fade.thresh ∧
    ¬ Cfg.configT.fade.len ≤ (4#32).toNat - Cfg.configT.fade.thresh - 1 ∧
    Cfg.configT.fade.len ≤ (5#32).toNat - Cfg.configT.fade.thresh - 1 := by decide +kernel
theorem witness_PrepRunsTheStagesInOrder :
    [0#32].length ≠ machineT2.frameSize.toNat ∧ frame.length = machineT2.frameSize.toNat ∧ allFinite frame = true ∧
    hpfFrame machineT2.cfg.num.toArith machineT2.cfg.biquad machineT2.chain.filter frame
      = some ([0x3F800000#32, 0xBF800000#32, 0x3F800000#32, 0xBF800000#32],
        ⟨0#32, 0x3F800000#32, 0xBF800000#32, 0x3F800000#32⟩) ∧
    vadFrame machineT2.cfg.num machineT2.cfg.vad machineT2.chain.silRun
      [0x3F800000#32, 0xBF800000#32, 0x3F800000#32, 0xBF800000#32] = some (true, 0#32) ∧
    fade machineT2.cfg.num machineT2.cfg.fade 0#32 [0x3F800000#32, 0xBF800000#32, 0x3F800000#32, 0xBF800000#32]
      = some [0x3F800000#32, 0xBF800000#32, 0x3F800000#32, 0xBF800000#32] ∧
    specFrame machineT2.cfg.num machineT2.cfg machineT2.subEn 0#32 machineT2.chain.spectral
      [0x3F800000#32, 0xBF800000#32, 0x3F800000#32, 0xBF800000#32]
      = some ([0x3F800000#32, 0xBF800000#32, 0x3F800000#32, 0xBF800000#32], machineT2.chain.spectral) ∧
    agcFrame machineT2.cfg.num machineT2.cfg.agc machineT2.chain.gain
      [0x3F800000#32, 0xBF800000#32, 0x3F800000#32, 0xBF800000#32]
      = some ([0x3F200000#32, 0xBF200000#32, 0x3F200000#32, 0xBF200000#32], 0x3F200000#32) := by decide +kernel
theorem witness_PrepEqualsPushOfOneFrame :
    Legal machineT2 ∧ machineT2.chainEn = true ∧ machineT2.cursor = 0#24 ∧
    frame.length = machineT2.frameSize.toNat ∧ ∃ t, exec (.prep frame) machineT2 = .next t :=
  ⟨machineT2_legal, by decide, by decide, by decide, next_of (by decide +kernel)⟩
theorem witness_EveryStepKeepsTheInvariant :
    Legal (sent machineV43 (0x23000004#32 :: frame)) ∧
    (∃ t, step (sent machineV43 (0x23000004#32 :: frame)) = .next t) ∧
    ∃ t, step { machineV43 with input := [.reset] } = .next t :=
  ⟨⟨by decide, by decide, by decide, by decide, by decide, by decide, by decide, by decide⟩,
    next_of (by decide +kernel), next_of (by decide)⟩
theorem witness_NoStepFaults : Legal machineV22 ∧ Legal machineV45 := ⟨machineV22_legal, machineV45_legal⟩
/-- No packet, one packet, two packets, and an error. -/
theorem witness_EveryResponseIsWellFormed :
    Legal machineV22 ∧
    (Instr.push []).wellFormed = true ∧ (∃ t, exec (.push []) machineV22 = .next t) ∧
    (Instr.rd 0x00#8 0#16).wellFormed = true ∧ (∃ t, exec (.rd 0x00#8 0#16) machineV22 = .next t) ∧
    (Instr.push (frame ++ frame)).wellFormed = true ∧ (∃ t, exec (.push (frame ++ frame)) machineV22 = .next t) ∧
    (Instr.init 0#24).wellFormed = true ∧ (∃ t, exec (.init 0#24) machineV22 = .next t) ∧
    errorOf machineV22 (.init 0#24) = some .cfg :=
  ⟨machineV22_legal, by decide, next_of (by decide), by decide, next_of (by decide), by decide, next_of (by decide),
    by decide, next_of (by decide), by decide⟩
theorem witness_CommandsDoNotSeeTheStreams :
    sameMachine machineT { machineT with input := [.word 1#32, .reset], output := [2#32] } ∧
    (∃ t, exec (.rd 0x00#8 0#16) machineT = .next t) ∧
    refusalOf (exec (.hpf broken) machineT) = some .nonFiniteSample :=
  ⟨⟨rfl, rfl, rfl, rfl, rfl, rfl, rfl⟩, ⟨_, rfl⟩, by decide⟩
/-- A command that changes each register or array. -/
theorem witness_StateIsWrittenOnlyByItsCommands :
    (nextOf (exec (.wr 0x00#8 0#16) machineT)).any (fun t => t.ctrl != machineT.ctrl) = true ∧
    (nextOf (exec (.wr 0x02#8 0#16) machineT)).any (fun t => t.status != machineT.status) = true ∧
    (nextOf (exec (.init 1#24) machineV22)).any (fun t => t.frameSize != machineV22.frameSize) = true ∧
    (nextOf (exec (.push frame) machineV22)).any (fun t => t.acc.read 0 != machineV22.acc.read 0) = true ∧
    (nextOf (exec (.push [0#32]) machineV22)).any (fun t => t.cursor != machineV22.cursor) = true ∧
    (nextOf (exec (.hpf frame) machineT)).any (fun t => t.chain.filter != machineT.chain.filter) = true ∧
    (nextOf (exec (.vad frame) machineT)).any (fun t => t.chain.silRun != machineT.chain.silRun) = true ∧
    (nextOf (exec (.spec frame) machineV45)).any (fun t => t.chain.spectral != machineV45.chain.spectral) = true ∧
    (nextOf (exec (.agc frame) machineT)).any (fun t => t.chain.gain != machineT.chain.gain) = true := by
  decide +kernel
theorem witness_SumsRoundToNearestEven :
    F32.isFinite 0x3F800000#32 = true ∧ F32.isFinite 0x33800000#32 = true ∧
    (F32.toInt 0x3F800000#32 + F32.toInt 0x33800000#32).natAbs ≤ F32.mag 0x7F7FFFFF#32 ∧
    F32.add 0x3F800000#32 0x33800000#32 = some 0x3F800000#32 ∧
    F32.sub 0x3F800000#32 0x3F800000#32 = some 0x00000000#32 := by decide
/-- The largest exact value within the range, and one at each rounding. -/
theorem witness_ProductsRoundToNearestEven :
    F32.mul 0x3F800001#32 0x3F800001#32 = some 0x3F800002#32 ∧ F32.div 0x3F800000#32 0x40400000#32 = some 0x3EAAAAAB#32 ∧
    F32.isFinite 0x7F7FFFFF#32 = true ∧ F32.toInt 0x3F800000#32 ≠ 0 ∧ F32.toInt 0x00000000#32 = 0 ∧
    (F32.toInt 0x7F7FFFFF#32 * F32.toInt 0x3F800000#32).natAbs ≤ F32.mag 0x7F7FFFFF#32 * (2 ^ 149 : Int).natAbs ∧
    (F32.toInt 0x7F7FFFFF#32 * 2 ^ 149).natAbs ≤ F32.mag 0x7F7FFFFF#32 * (F32.toInt 0x3F800000#32).natAbs := by
  decide
theorem witness_RootsRoundToNearest :
    F32.isFinite 0x40000000#32 = true ∧ F32.le F32.posZero 0x40000000#32 = true ∧
    F32.isFinite 0x80000000#32 = true ∧ F32.le F32.posZero 0x80000000#32 = true := by decide
theorem witness_SmallNaturalsAreExact : 0 ≤ 2 ^ 24 ∧ 2 ^ 24 ≤ 2 ^ 24 ∧ F32.fromNat (2 ^ 24) = some 0x4B800000#32 := by decide
/-- Every clause: a NaN in the payload; then finite payloads whose computation overflows. -/
theorem witness_NonFiniteValuesAreRefused_samples :
    allFinite broken = false ∧ broken.length = machineT.frameSize.toNat ∧ broken.length = machineT.cfg.fftN ∧
    allFinite (flattenPairs ((0x7F800000#32, 0#32) :: bins.drop 1)) = false ∧
    ((0x7F800000#32, 0#32) :: bins.drop 1).length = machineT.cfg.fftN := by decide
theorem witness_NonFiniteValuesAreRefused_results :
    allFinite loud = true ∧ loud.length = machineT.frameSize.toNat ∧ loud.length = machineT.cfg.fftN ∧
    (hpfFrame machineT.cfg.num.toArith machineT.cfg.biquad machineT.chain.filter loud).isNone = true ∧
    (vadFrame machineT.cfg.num machineT.cfg.vad machineT.chain.silRun loud).isNone = true ∧
    (specFrame machineV44.cfg.num machineV44.cfg machineV44.subEn machineV44.chain.silRun machineV44.chain.spectral loud).isNone
      = true ∧
    (agcFrame machineT.cfg.num machineT.cfg.agc machineT.chain.gain loud).isNone = true ∧
    (preprocess machineT.cfg.num machineT.cfg machineT.subEn machineT.chain loud).isNone = true ∧
    (forward machineT.cfg.num machineT.cfg (ofReal loud)).isNone = true ∧
    (inverse machineT.cfg.num machineT.cfg (loud.map (fun x => (x, x)))).isNone = true ∧
    allFinite (flattenPairs (loud.map (fun x => (x, x)))) = true ∧
    Legal machineT ∧ machineT.chainEn = true ∧
    [loud].flatten ++ [] = machineT.acc.toList machineT.cursor.toNat ++ loud ∧
    (chainFrames machineT.cfg machineT.subEn machineT.chain [loud]).isNone = true :=
  ⟨by decide, by decide, by decide, by decide +kernel, by decide +kernel, by decide +kernel, by decide +kernel,
    by decide +kernel, by decide +kernel, by decide +kernel, by decide +kernel, machineT_legal, by decide,
    by decide +kernel, by decide +kernel⟩

/-- An environment with one and a half frames due. -/
def envDue : Env :=
  { Env.start with ofq := [[1#32, 2#32], [3#32, 4#32]], rcur := 1, pfq := [(7, [5#32])], inbox := [(7, [5#32])] }

/-- Blocks of 0, 3 (all that is due) and 4 samples (one too many). -/
theorem witness_FillDeliversAWholeBlock :
    envDue.wellFormed = true ∧ envDue.pending = [2#32, 3#32, 4#32] ∧ (envDue.fill 0).1 = [] ∧
    (envDue.fill 3).2.underruns = 0 ∧ (envDue.fill 4).2.underruns = 1 := by decide
/-- An engine that asks for frames of one sample. -/
def engine1 : Engine := ⟨1⟩
/-- An engine that asks for frames of four samples. -/
def engine4 : Engine := ⟨4⟩
/-- One frame answered and delivered, a failure, a frame still to be processed, playback. -/
def exchangeRun : List EnvEvent :=
  [.submit [1#32], .submit [2#32], .process (.ok [9#32]), .deliver, .submit [4#32], .process (.error 1), .fill 1]

/-- A result waits and a frame is pending: the relation holds, with the first frame played. -/
theorem witness_ResultsComeBackInOrder :
    Exchanged [[1#32], [2#32], [4#32]] [.ok [9#32], .error 1] 0 1
      { Env.start with
        nextH := 3, pfq := [(1, [2#32]), (2, [4#32])], inbox := [(2, [4#32])], results := [[0#32]] } :=
  ⟨by decide, by decide, rfl, by decide, rfl, rfl, rfl⟩
/-- Each kind of event completes; the run has playback in it. -/
theorem witness_ResultsComeBackInOrder_run :
    (∀ ev ∈ exchangeRun, ev ≠ .reset ∧ ∀ f, ev ≠ .append f) ∧
    (∃ r, Env.run (some 2) engine1 Env.start exchangeRun = some r) ∧
    (∃ r, Env.start.event none engine1 .reset = some r) ∧ (∃ r, Env.start.event none engine1 (.append [1#32]) = some r) :=
  ⟨by simp [exchangeRun], some_of (by decide), some_of (by decide), some_of (by decide)⟩
/-- R217: an answer of another length is no answer of the engine. -/
theorem test_engine_answers :
    engine4.answers frame (.ok frame) = true ∧ engine4.answers frame (.ok [1#32]) = false ∧
    engine1.answers frame (.ok frame) = false ∧ engine1.answers frame (.error 7) = true := by decide
/-- A dead engine with playback before and after the failure. -/
theorem witness_DeadEnginePlaysSilence :
    (∀ ev ∈ [EnvEvent.submit frame, .fill 1, .process (.error 1), .deliver, .reset, .fill 3],
      (∀ r, ev = .process r → ∃ err, r = .error err) ∧ ∀ f, ev ≠ .append f) ∧
    ∃ r, Env.run none engine4 Env.start [.submit frame, .fill 1, .process (.error 1), .deliver, .reset, .fill 3] = some r :=
  ⟨by simp, some_of (by decide)⟩
/-- End to end: the engine is opened, raw frames are chosen, two blocks are played. -/
def deadWorldRun : List WorldEvent :=
  [.openEngine, .command (.wr 0x00#8 0#16), .callback frame, .process (.error 1), .deliver, .callback [0x3F800000#32]]
theorem witness_DeadEnginePlaysSilence_world :
    (∀ ev ∈ deadWorldRun, ∀ r, ev = .process r → ∃ err, r = .error err) ∧
    ∃ r, World.run .engine engine4 ⟨machineT, Env.start⟩ deadWorldRun = some r :=
  ⟨by simp [deadWorldRun], some_of (by decide +kernel)⟩
/-- The same run with an engine that answers: the second block plays its first sample. -/
theorem test_world_plays_the_answer :
    (World.run .engine engine4 ⟨machineT, Env.start⟩
      [.openEngine, .command (.wr 0x00#8 0#16), .callback frame, .process (.ok [7#32, 8#32, 9#32, 10#32]), .deliver,
        .callback [0x3F800000#32]]).map Prod.fst = some [0#32, 0#32, 0#32, 0#32, 7#32] := by decide +kernel
/-- Both wirings; S with CHAIN_EN = 1 (R222). -/
theorem witness_CallbackPlaysAFullBlockAndInitEmptiesTheQueues :
    (∃ r, World.callback .engine engine4 ⟨machineV22, Env.start⟩ frame = some r) ∧
    (∃ r, World.callback .standalone engine4 ⟨machineT2, Env.start⟩ frame = some r) ∧
    Legal machineV22 ∧ machineV22.chainEn = false ∧ machineV22.cfg.qdepth = none ∧ frame ≠ [] ∧
    allFinite frame = true ∧ engine4.frameLength < 2 ^ 24 :=
  ⟨some_of (by decide +kernel), some_of (by decide +kernel), machineV22_legal, by decide, by decide, by decide,
    by decide, by decide⟩
/-- R222: configuration S has CHAIN_EN = 1. -/
theorem test_standalone_needs_the_chain :
    (World.callback .standalone engine4 ⟨machineV22, Env.start⟩ frame).isNone = true := by decide
/-- R216: a valid INIT empties the queues, a rejected one leaves them. -/
theorem test_init_and_queues :
    ((World.send ⟨machineT, envDue⟩ (.init 4#24)).map (fun x => x.env.ofq),
      (World.send ⟨machineT, envDue⟩ (.init 5#24)).map (fun x => x.env.ofq)) = (some [], some envDue.ofq) := by decide
/-- A block that one PUSH holds is one piece; an empty block has none (`pieces_flatten` says that the
pieces are the block for every length). -/
theorem test_pieces : pieces 4 frame = [frame] ∧ pieces 0 [] = [] := by decide

/-- Configuration T with another numerics record: the meanings call that record (R8, D8). -/
theorem test_other_numerics :
    ({ Cfg.configT with numerics := .other 3 } : Cfg).num.add 1#32 2#32
      = F32.checked ((Config.numOps 3).add 1#32 2#32) := rfl

end Sys2Proof.Tests
end

/-! ### The decoder on one header (spec/30_encoding.md R81, R83, R92) -/

section
namespace Sys2Proof.Machine

/-! The header's fields as arithmetic on its number. -/

theorem headerArg_toNat (h : Word) : (headerArg h).toNat = h.toNat % 2 ^ 24 := by
  simp [headerArg]

/-- `op[7]` is the header's top bit. -/
theorem headerOp_getLsbD_seven (h : Word) : (headerOp h).getLsbD 7 = decide (2 ^ 31 ≤ h.toNat) := by
  have hmsb : (headerOp h).getLsbD 7 = h.msb := by simp [headerOp, BitVec.msb_eq_getLsbD_last]
  rw [hmsb, BitVec.msb_eq_decide]

/-- `op[6:5]` are the header's bits 30:29. -/
theorem headerOp_family_eq_iff (h : Word) (f : BitVec 2) :
    (headerOp h).extractLsb' 5 2 = f ↔ h.toNat / 2 ^ 29 % 4 = f.toNat := by
  have hfam : ((headerOp h).extractLsb' 5 2).toNat = h.toNat / 2 ^ 29 % 4 := by
    simp only [headerOp, BitVec.extractLsb'_toNat, Nat.shiftRight_eq_div_pow]
    omega
  rw [← BitVec.toNat_inj, hfam]

/-- R83 on the header's number. -/
theorem headerPlen_eq (h : Word) :
    headerPlen h =
      if 2 ^ 31 ≤ h.toNat then 0
      else if h.toNat / 2 ^ 29 % 4 = 1 then h.toNat % 2 ^ 24
      else if h.toNat / 2 ^ 29 % 4 = 2 then 2 * (h.toNat % 2 ^ 24)
      else 0 := by
  simp only [headerPlen, plen, headerOp_getLsbD_seven, headerOp_family_eq_iff, headerArg_toNat,
    decide_eq_true_eq]
  rfl

/-! What the decoder answers: one equation per branch. -/

theorem decode_of_short {h : Word} {t : List Word} (hl : t.length < headerPlen h) :
    decode (h :: t) = .error .incomplete := by
  rw [decode, if_pos hl]

theorem decode_of_opcode {h : Word} {t : List Word} {o : Opcode} (hl : headerPlen h ≤ t.length)
    (ho : Opcode.ofBits (headerOp h) = some o) :
    decode (h :: t) = .ok (commandOf o h (t.take (headerPlen h)), t.drop (headerPlen h)) := by
  simp only [decode, if_neg (Nat.not_lt.mpr hl), ho]

theorem decode_of_reserved {h : Word} {t : List Word} (hl : headerPlen h ≤ t.length)
    (ho : Opcode.ofBits (headerOp h) = none) :
    decode (h :: t) = .error (.reservedOpcode (headerOp h) (t.drop (headerPlen h))) := by
  simp only [decode, if_neg (Nat.not_lt.mpr hl), ho]

/-- A header with a reserved opcode takes exactly its payload with it. -/
theorem decode_reserved_append {h : Word} {payload : List Word} (rest : List Word)
    (ho : Opcode.ofBits (headerOp h) = none) (hl : payload.length = headerPlen h) :
    decode (h :: (payload ++ rest)) = .error (.reservedOpcode (headerOp h) rest) := by
  rw [decode_of_reserved (by simp [← hl]) ho, List.drop_left' hl]

/-- With its payload on the stream, a header is a command or a named reserved opcode, and the words
after the payload are left either way. -/
theorem decode_of_whole {h : Word} {t : List Word} (hl : headerPlen h ≤ t.length) :
    (∃ i, decode (h :: t) = .ok (i, t.drop (headerPlen h))) ∨
      decode (h :: t) = .error (.reservedOpcode (headerOp h) (t.drop (headerPlen h))) := by
  cases ho : Opcode.ofBits (headerOp h) with
  | some o => exact .inl ⟨_, decode_of_opcode hl ho⟩
  | none => exact .inr (decode_of_reserved hl ho)

/-- R92: an all-zero word where a header is due. -/
theorem decode_zero_word (t : List Word) : decode (0x00000000#32 :: t) = .ok (.nop 0#24, t) := by
  have hp : headerPlen 0x00000000#32 = 0 := by decide
  rw [decode_of_opcode (o := .nop) (by simp [hp]) (by decide), hp]
  rfl

/-! Which opcodes are reserved. -/

/-- An `op` field is reserved when it is no opcode's. -/
theorem ofBits_eq_none_iff {op : BitVec 8} : Opcode.ofBits op = none ↔ ∀ o : Opcode, op ≠ o.bits := by
  constructor
  · rintro h o rfl
    simp [ofBits_bits] at h
  · intro h
    exact (if_neg (h .nop)).trans <| (if_neg (h .init)).trans <| (if_neg (h .wr)).trans <|
      (if_neg (h .rd)).trans <| (if_neg (h .push)).trans <| (if_neg (h .hpf)).trans <|
      (if_neg (h .vad)).trans <| (if_neg (h .spec)).trans <| (if_neg (h .agc)).trans <|
      (if_neg (h .prep)).trans <| (if_neg (h .fftf)).trans <| if_neg (h .ffti)

/-- R92: the gaps that the twelve opcodes leave. -/
theorem ofBits_eq_none_iff_ranges (op : BitVec 8) :
    Opcode.ofBits op = none ↔
      (0x04 ≤ op.toNat ∧ op.toNat ≤ 0x1F) ∨ (0x27 ≤ op.toNat ∧ op.toNat ≤ 0x3F) ∨ 0x41 ≤ op.toNat := by
  rw [ofBits_eq_none_iff]
  constructor
  · intro h
    have hne (o : Opcode) : op.toNat ≠ o.bits.toNat := mt BitVec.eq_of_toNat_eq (h o)
    have hcontrol : op.toNat ≠ 0x00 ∧ op.toNat ≠ 0x01 ∧ op.toNat ≠ 0x02 ∧ op.toNat ≠ 0x03 :=
      ⟨hne .nop, hne .init, hne .wr, hne .rd⟩
    have hreal : op.toNat ≠ 0x20 ∧ op.toNat ≠ 0x21 ∧ op.toNat ≠ 0x22 ∧ op.toNat ≠ 0x23 ∧
        op.toNat ≠ 0x24 ∧ op.toNat ≠ 0x25 ∧ op.toNat ≠ 0x26 :=
      ⟨hne .push, hne .hpf, hne .vad, hne .spec, hne .agc, hne .prep, hne .fftf⟩
    have hcomplex : op.toNat ≠ 0x40 := hne .ffti
    omega
  · rintro hr o rfl
    cases o <;> revert hr <;> decide

end Sys2Proof.Machine
end

/-! ### The step on a header (spec/30_encoding.md R83, R86, R92) -/

section
namespace Sys2Proof.Machine

/-- No step where the stream holds the words of an incomplete command and nothing else. -/
theorem step_of_incomplete_words {s : State} {ws : List Word} (hin : s.input = ws.map HostEvent.word)
    (hd : decode ws = .error .incomplete) : step s = .refused .incompleteCommand := by
  have hw : s.input = ws.map HostEvent.word ++ [] := by rw [hin, List.append_nil]
  apply step_stuck
  · rw [hw, leadingWords_append, leadingWords_nil, List.append_nil, hd]
  · rw [hw, afterReset_words]
    rfl

/-- A command taken off the stream leaves what stands after its words. -/
theorem consume_leadingWords {s : State} {ws : List Word} {more : List HostEvent}
    (hin : s.input = ws.map HostEvent.word ++ more) :
    s.consume (leadingWords more) = { s with input := more } := by
  rw [State.consume, hin, eventsLeft_append]

/-- Format DN (R86) by its fields: each field shifted to its place. -/
theorem doneWord_eq_or (st : BitVec 4) (op : BitVec 8) :
    doneWord st op = 0xE0000000#32 ||| (st.zeroExtend 32 <<< 24) ||| (op.zeroExtend 32 <<< 16) := by
  have hst : st.toNat <<< 24 < 2 ^ 32 := by rw [Nat.shiftLeft_eq]; omega
  have hop : op.toNat <<< 16 < 2 ^ 32 := by rw [Nat.shiftLeft_eq]; omega
  apply BitVec.eq_of_toNat_eq
  simp only [doneWord, BitVec.toNat_append, BitVec.toNat_or, BitVec.toNat_shiftLeft, BitVec.truncate_eq_setWidth,
    BitVec.toNat_setWidth, Nat.shiftLeft_or_distrib, ← Nat.shiftLeft_add]
  rw [Nat.mod_eq_of_lt (by omega : st.toNat < 2 ^ 32), Nat.mod_eq_of_lt (by omega : op.toNat < 2 ^ 32),
    Nat.mod_eq_of_lt hst, Nat.mod_eq_of_lt hop]
  exact Nat.or_zero _

/-- The effect of a reserved opcode (R92, R241), spelled out. -/
theorem execReserved_eq (op : BitVec 8) (s : State) :
    execReserved op s = .next { s with
      status := s.status ||| 0x0001#16
      output := s.output ++ [0xE1000000#32 ||| (op.zeroExtend 32 <<< 16)] } := by
  have hw : doneWord ErrCode.op.code op = 0xE1000000#32 ||| (op.zeroExtend 32 <<< 16) := by
    rw [doneWord_eq_or]
    rfl
  rw [← hw]
  rfl

/-- The step on a header with a reserved opcode and its payload, whatever follows. -/
theorem step_of_reserved_header {s : State} {h : Word} {payload : List Word} {more : List HostEvent}
    (ho : Opcode.ofBits (headerOp h) = none) (hl : payload.length = headerPlen h)
    (hin : s.input = (h :: payload).map HostEvent.word ++ more) :
    step s = execReserved (headerOp h) { s with input := more } := by
  have hd : decode (leadingWords s.input) = .error (.reservedOpcode (headerOp h) (leadingWords more)) := by
    rw [hin, leadingWords_append, List.cons_append, decode_reserved_append _ ho hl]
  rw [step_reserved hd, consume_leadingWords hin]

end Sys2Proof.Machine
end

/-! ### The obligations on headers -/

section
open Sys2Proof Sys2Proof.Machine

/-- Settles O3: `headerPlen` is the length that the header's number gives, and the decoder either
runs out of payload words or leaves the words after them. -/
theorem payloadLengthByHeader : Obligations.PayloadLengthByHeader := by
  unfold Obligations.PayloadLengthByHeader
  intro h t
  rw [← headerPlen_eq]
  intro n
  by_cases hl : t.length < headerPlen h
  · rw [if_pos hl]
    have hd := decode_of_short hl
    exact ⟨hd, fun s hin => step_of_incomplete_words hin hd⟩
  · rw [if_neg hl]
    exact decode_of_whole (Nat.not_lt.mp hl)

/-- Settles O8: the reserved ranges are the gaps between the opcodes, and the step on a reserved
header is `execReserved` on the stream after its payload. -/
theorem reservedOpcodeRaisesErrOp : Obligations.ReservedOpcodeRaisesErrOp := by
  unfold Obligations.ReservedOpcodeRaisesErrOp
  refine ⟨ofBits_eq_none_iff_ranges, ?_, decode_zero_word⟩
  intro s h payload more ho hl hin
  rw [step_of_reserved_header ho hl hin, execReserved_eq]
  rfl

end

/-! ### The engine step in its two stages: tracking, then delivery (spec/43_spectral.md R149, R150, R153) -/

section
namespace Sys2Proof.Machine

/-- The profile stored by an update, bin by bin (R149): the bin's magnitude at the first update, the
bin's own previous value smoothed at a later one. -/
theorem read_newProfile {num : Num} {c : Cfg} {cnt : BitVec 32} {prof : Memory} {mag p : List Word} {k : Nat}
    (hp : newProfile num c cnt prof mag = some p) (hk : k ≤ c.fftN / 2) :
    if cnt.toNat = 0 then (Memory.ofList p).read k = mag.getD k F32.posZero
    else ∃ rest a b : Word, F32.sub F32.one c.alpha = some rest ∧
      num.mul c.alpha (mag.getD k F32.posZero) = some a ∧ num.mul rest (prof.read k) = some b ∧
      num.add a b = some ((Memory.ofList p).read k) := by
  rw [read_ofList]
  rcases newProfile_some hp with ⟨rfl, rfl⟩ | ⟨hne, -, rest, hrest, hbins⟩
  · rw [if_pos (show (0#32).toNat = 0 from rfl)]
    rfl
  · have hcnt : cnt.toNat ≠ 0 := fun h0 => hne (BitVec.eq_of_toNat_eq h0)
    obtain ⟨a, b, ha, hb, hab⟩ := hbins k (Nat.lt_succ_of_le hk)
    rw [if_neg hcnt]
    exact ⟨rest, a, b, hrest, ha, hb, hab⟩

/-- Tracking does not touch OVL. -/
theorem track_ovl {num : Num} {c : Cfg} {run : BitVec 32} {mag : List Word} {e e1 : SpectralState}
    (ht : track num c run mag e = some e1) : e1.ovl = e.ovl := by
  rcases track_some ht with ⟨-, rfl⟩ | ⟨-, p, -, rfl⟩ <;> rfl

/-- The tracking stage of a step: the gate of R149 alone decides whether the count and the profile
change, and the delivery stage leaves both. -/
theorem specFrame_tracks {num : Num} {c : Cfg} {sub : Bool} {run : BitVec 32} {e e' : SpectralState}
    {f g : List Word} (h : specFrame num c sub run e f = some (g, e')) :
    (updates c run e.updCnt = false ∧ e'.updCnt = e.updCnt ∧ e'.prof = e.prof) ∨
    (updates c run e.updCnt = true ∧ e'.updCnt = e.updCnt + 1#32 ∧ ∃ x mag p,
      analyse num c f = some (x, mag) ∧ newProfile num c e.updCnt e.prof mag = some p ∧
      e'.prof = Memory.ofList p) := by
  rcases specFrame_some h with ⟨hu, -, -, rfl⟩ | ⟨x, mag, e1, ha, ht, hdelivery⟩
  · exact .inl ⟨hu, rfl, rfl⟩
  · have hkeeps : e'.updCnt = e1.updCnt ∧ e'.prof = e1.prof := by
      rcases hdelivery with ⟨-, -, rfl⟩ | ⟨-, y, out, ovl, -, -, -, rfl⟩ <;> exact ⟨rfl, rfl⟩
    rcases track_some ht with ⟨hu, rfl⟩ | ⟨hu, p, hp, rfl⟩
    · exact .inl ⟨hu, hkeeps⟩
    · exact .inr ⟨hu, hkeeps.1, x, mag, p, ha, hp, hkeeps.2⟩

/-- The delivery stage of a step: the gate of R150, on the count after tracking, alone decides between
the input samples with OVL untouched and the synthesis of the subtracted spectrum. -/
theorem specFrame_delivers {num : Num} {c : Cfg} {sub : Bool} {run : BitVec 32} {e e' : SpectralState}
    {f g : List Word} (h : specFrame num c sub run e f = some (g, e')) :
    (subtracts c sub e'.updCnt = false ∧ g = f ∧ e'.ovl = e.ovl) ∨
    (subtracts c sub e'.updCnt = true ∧ ∃ x y mag out, analyse num c f = some (x, mag) ∧
      subtractSpectrum num c x mag e'.prof = some y ∧
      synthesise num c y e.ovl = some (out, e'.ovl) ∧ g = out.take f.length) := by
  rcases specFrame_some h with ⟨-, hs, hg, rfl⟩ | ⟨x, mag, e1, ha, ht, hdelivery⟩
  · exact .inl ⟨hs, hg, rfl⟩
  · rcases hdelivery with ⟨hs, hg, rfl⟩ | ⟨hs, y, out, ovl, hy, hout, hg, rfl⟩
    · exact .inl ⟨hs, hg, track_ovl ht⟩
    · rw [track_ovl ht] at hout
      exact .inr ⟨hs, x, y, mag, out, ha, hy, hout, hg⟩

end Sys2Proof.Machine
end

/-! ### The obligations on the engine's two gates -/

section
open Sys2Proof Sys2Proof.Machine

/-- Settles O34: the tracking stage updates exactly behind its gate, and `read_newProfile` says what
each bin then holds. -/
theorem profileTracksSilence : Obligations.ProfileTracksSilence := by
  unfold Obligations.ProfileTracksSilence
  intro num c subEn run e e' f g h
  rcases specFrame_tracks h with ⟨hu, hcnt, hprof⟩ | ⟨hu, hcnt, x, mag, p, ha, hp, hprof⟩
  · rw [if_neg (mt updates_true.mpr (Bool.eq_false_iff.mp hu))]
    exact ⟨hcnt, hprof⟩
  · rw [if_pos (updates_true.mp hu), hprof]
    exact ⟨hcnt, x, mag, ha, fun k hk => read_newProfile hp hk⟩

/-- Settles O35: the delivery stage subtracts exactly behind its gate, read on the count after
tracking. -/
theorem subtractionRunsOnlyWhenActive : Obligations.SubtractionRunsOnlyWhenActive := by
  unfold Obligations.SubtractionRunsOnlyWhenActive
  intro num c subEn run e e' f g h
  rcases specFrame_delivers h with ⟨hs, hg, hovl⟩ | ⟨hs, x, y, mag, out, ha, hy, hout, hg⟩
  · rw [if_neg (mt subtracts_true.mpr (Bool.eq_false_iff.mp hs))]
    exact ⟨hg, hovl⟩
  · rw [if_pos (subtracts_true.mp hs)]
    exact ⟨x, y, mag, out, ha, hy, hout, hg⟩

end

/-! ### The command AGC (spec/44_agc.md R171, R172) -/

section
namespace Sys2Proof.Machine

/-- A mapping that answers `v i` on the `i`-th element of a list answers `v` on the indices. -/
theorem mapM_some_of_getD {α β : Type} {f : α → Option β} {xs : List α} {d : α} {v : Nat → β}
    (h : ∀ i, i < xs.length → f (xs.getD i d) = some (v i)) :
    xs.mapM f = some ((List.range xs.length).map v) := by
  induction xs generalizing v with
  | nil => rfl
  | cons x xs ih =>
    have hhead : f x = some (v 0) := h 0 (Nat.succ_pos _)
    have htail := ih (v := v ∘ Nat.succ) fun i hi => h (i + 1) (Nat.succ_lt_succ hi)
    refine mapM_some_cons.mpr ⟨_, _, hhead, htail, ?_⟩
    rw [List.length_cons, List.range_succ_eq_map, List.map_cons, List.map_map]

/-- All that AGC can answer: E_SIZE on another length; on a finite frame of FRAME_SIZE samples, the
scaled frame with GAIN replaced. -/
theorem exec_agc_next {s t : State} {xs : List Word} :
    exec (.agc xs) s = .next t ↔
      (xs.length ≠ s.frameSize.toNat ∧ t = s.raise .size Opcode.agc.bits) ∨
      (xs.length = s.frameSize.toNat ∧ allFinite xs = true ∧
        ∃ o g, agcFrame s.cfg.num s.cfg.agc s.chain.gain xs = some (o, g) ∧
          t = (s.setGain g).emit (dataPacket o ++ [doneWord 0#4 Opcode.agc.bits])) := by
  change execAgc xs s = .next t ↔ _
  simp only [execAgc, sized_next, bind_ok, requireFinite_ok, numeric_ok, Prod.exists, exists_const,
    emitData_eq, done_eq, emit_emit, pure, Except.pure, Except.ok.injEq, eq_comm (a := t), ne_eq]
  exact or_comm

/-- E_SIZE of AGC (R172, R241), spelled out. -/
theorem raise_size_agc (s : State) :
    s.raise .size Opcode.agc.bits = { s with
      status := s.status ||| 0x0004#16, output := s.output ++ [0xE3240000#32] } := rfl

/-- The answer of AGC on a frame (R172), spelled out: GAIN, one DATA packet and DONE. -/
theorem setGain_emit_agc (s : State) (g : Word) (o : List Word) :
    (s.setGain g).emit (dataPacket o ++ [doneWord 0#4 Opcode.agc.bits]) = { s with
      chain := { s.chain with gain := g }
      output := s.output ++ dataPacket o ++ [0xE0240000#32] } := by
  have hdone : doneWord 0#4 Opcode.agc.bits = 0xE0240000#32 := rfl
  rw [hdone, State.emit, ← List.append_assoc]
  rfl

/-- R171 forwards: where each rounded operation answers, the gain stage answers, and every output
sample is the clipped product of the new gain and the input sample. -/
theorem agcFrame_of_steps {num : Num} {p : AgcParams} {gain r tg d m g : Word} {f : List Word} {v : Nat → Word}
    (hr : rms num f = some r) (htg : num.div p.target (F32.max r p.eps) = some tg)
    (hd : num.sub (F32.min (F32.max tg p.min) p.max) gain = some d) (hm : num.mul p.mu d = some m)
    (hg : num.add gain m = some g)
    (hv : ∀ i, i < f.length → num.mul g (f.getD i F32.posZero) = some (v i)) :
    agcFrame num p gain f = some ((List.range f.length).map (fun i => clip (v i)), g) := by
  have hclamp := clampedGain_some.mpr ⟨r, tg, hr, htg, rfl⟩
  have hclips : f.mapM (fun x => (num.mul g x).map clip) = some ((List.range f.length).map (fun i => clip (v i))) :=
    mapM_some_of_getD fun i hi => Option.map_eq_some_iff.mpr ⟨v i, hv i hi, rfl⟩
  exact agcFrame_some.mpr ⟨_, d, m, hclamp, hd, hm, hg, hclips⟩

end Sys2Proof.Machine
end

/-! ### The obligation on the gain control -/

section
open Sys2Proof Sys2Proof.Machine

/-- Settles O40: another length takes the E_SIZE branch of AGC; on a frame the five operations of R171
are composed in order by `agcFrame_of_steps`, so the gain that scales is the new one and the clip
stands on the product. -/
theorem agcScalesWithTheNewGain : Obligations.AgcScalesWithTheNewGain := by
  unfold Obligations.AgcScalesWithTheNewGain
  refine fun s xs => ⟨fun hlen => ?_, fun hlen hfin r tg d m g v hr htg hd hm hg hv => ?_⟩
  · exact exec_agc_next.mpr (.inl ⟨hlen, (raise_size_agc s).symm⟩)
  · have hframe := agcFrame_of_steps hr htg hd hm hg hv
    exact exec_agc_next.mpr (.inr ⟨hlen, hfin, _, g, hframe, (setGain_emit_agc s g _).symm⟩)

end

/-! ### The obligation on the fade (spec/45_chain.md R180) -/

section
open Sys2Proof Sys2Proof.Machine

/-- Settles O43: the three cases of `fade_cases`, told apart by where SIL_RUN lies between FADE_THRESH
and FADE_THRESH + FADE_LEN; on the ramp `fadeWeight_some` names the operations of the weight. -/
theorem fadeIsALinearRamp : Obligations.FadeIsALinearRamp := by
  unfold Obligations.FadeIsALinearRamp
  intro num p run h g hfade
  rcases fade_cases hfade with ⟨hnone, hg⟩ | ⟨hgated, hg⟩ | ⟨habove, hramp, hlen, hsample⟩
  · rw [if_pos hnone]
    exact hg
  · rw [if_neg (by omega), if_pos (by omega), hg]
    exact List.map_const'
  · rw [if_neg (by omega), if_neg (by omega)]
    refine ⟨hlen, fun i hi => ?_⟩
    obtain ⟨w, hweight, hmul⟩ := hsample i hi
    obtain ⟨a, b, d, ha, hb, hd, hw⟩ := fadeWeight_some.mp hweight
    exact ⟨a, b, d, w, ha, hb, hd, hw, hmul⟩

end

/-! ### The commands NOP, INIT and WR (spec/46_control.md R191, R192, R194) -/

section
namespace Sys2Proof.Machine

/-- `raise E_x` (R241) by the two fields that it changes. -/
theorem raise_eq (s : State) (e : ErrCode) (op : BitVec 8) :
    s.raise e op = { s with status := s.status ||| e.sticky, output := s.output ++ [doneWord e.code op] } := rfl

/-- An array with no listed element reads as +0.0 everywhere (R51). -/
theorem read_nil (i : Nat) : Memory.read [] i = 0x00000000#32 := rfl

theorem exec_nop (arg : BitVec 24) (s : State) : exec (.nop arg) s = .next (s.emit [0xE0000000#32]) := by
  have hdone : doneWord 0#4 Opcode.nop.bits = 0xE0000000#32 := by decide
  change execNop arg s = _
  rw [execNop, done_eq, hdone]

/-- INIT with a size outside `1 .. FFT_N` raises E_CFG (R192). -/
theorem exec_init_of_bad_size {n : BitVec 24} {s : State} (h : n.toNat = 0 ∨ s.cfg.fftN < n.toNat) :
    exec (.init n) s = .next { s with
      status := s.status ||| 0x0002#16, output := s.output ++ [0xE2010000#32] } := by
  have hdone : doneWord ErrCode.cfg.code Opcode.init.bits = 0xE2010000#32 := by decide
  change execInit n s = _
  simp only [execInit, if_pos h, raise_eq, hdone, ErrCode.sticky]

/-- INIT with a size in `1 .. FFT_N` re-initialises the stream (R192). -/
theorem exec_init_of_good_size {n : BitVec 24} {s : State} (h : ¬(n.toNat = 0 ∨ s.cfg.fftN < n.toNat)) :
    exec (.init n) s = .next ((s.reinit n).emit [0xE0010000#32]) := by
  have hdone : doneWord 0#4 Opcode.init.bits = 0xE0010000#32 := by decide
  change execInit n s = _
  rw [execInit, if_neg h, done_eq, hdone]

/-- A register that can be written takes the write, and WR answers `OK` (R194). -/
theorem exec_wr_of_some {reg : BitVec 8} {imm16 : BitVec 16} {s t : State}
    (h : s.writeReg reg imm16 = some t) : exec (.wr reg imm16) s = .next (t.emit [0xE0020000#32]) := by
  have hdone : doneWord 0#4 Opcode.wr.bits = 0xE0020000#32 := by decide
  change execWr reg imm16 s = _
  simp only [execWr, h, done_eq, hdone]

/-- A register that cannot be written raises E_REG (R194). -/
theorem exec_wr_of_none {reg : BitVec 8} {imm16 : BitVec 16} {s : State}
    (h : s.writeReg reg imm16 = none) :
    exec (.wr reg imm16) s = .next { s with
      status := s.status ||| 0x0008#16, output := s.output ++ [0xE4020000#32] } := by
  have hdone : doneWord ErrCode.reg.code Opcode.wr.bits = 0xE4020000#32 := by decide
  change execWr reg imm16 s = _
  simp only [execWr, h, raise_eq, hdone, ErrCode.sticky]

theorem writeReg_ctrl (s : State) (imm16 : BitVec 16) :
    s.writeReg 0x00#8 imm16 = some { s with ctrl := ctrlWritten imm16 } := if_pos rfl

theorem writeReg_status (s : State) (imm16 : BitVec 16) :
    s.writeReg 0x01#8 imm16 = some { s with status := statusCleared s.status imm16 } := by
  rw [State.writeReg, if_neg (by decide), if_pos rfl]

theorem writeReg_of_ne {reg : BitVec 8} (hctrl : reg ≠ 0x00#8) (hstatus : reg ≠ 0x01#8) (s : State)
    (imm16 : BitVec 16) : s.writeReg reg imm16 = none := by
  rw [State.writeReg, if_neg hctrl, if_neg hstatus]

end Sys2Proof.Machine
end

/-! ### The obligations on NOP, INIT and WR -/

section
open Sys2Proof Sys2Proof.Machine

/-- Settles O12: `State.emit` of the DONE word, which `exec_nop` gives, changes `output` alone. -/
theorem nopOnlyAnswersDone : Obligations.NopOnlyAnswersDone := by
  unfold Obligations.NopOnlyAnswersDone
  exact exec_nop

/-- Settles O13: the two branches of INIT by the size; on a good size the field laws of `State.reinit`
give every reset value and every field that stays. -/
theorem initReinitialisesTheStream : Obligations.InitReinitialisesTheStream := by
  unfold Obligations.InitReinitialisesTheStream
  intro n s
  split
  case isTrue hbad => exact exec_init_of_bad_size hbad
  case isFalse hgood =>
    refine ⟨_, exec_init_of_good_size hgood, ?_⟩
    simp [ChainState.reset, FilterState.reset, SpectralState.reset, read_nil]

/-- Settles O14: by the register written, CTRL, STATUS or one that refuses the write. -/
theorem wrWritesCtrlAndClearsStatus : Obligations.WrWritesCtrlAndClearsStatus := by
  unfold Obligations.WrWritesCtrlAndClearsStatus
  intro reg imm16 s
  split_ifs with hctrl hstatus
  · subst hctrl
    exact exec_wr_of_some (writeReg_ctrl s imm16)
  · subst hstatus
    exact exec_wr_of_some (writeReg_status s imm16)
  · exact exec_wr_of_none (writeReg_of_ne hctrl hstatus s imm16)

end

/-! ### The one error mechanism (spec/60_exceptions.md R240, R241) -/

section
namespace Sys2Proof.Machine

/-! What the decoder leaves, as the stream that the command's own execution sees. -/

/-- Whatever whole command the decoder cuts off, the words it leaves are the end of what it was given. -/
theorem decode_rest_suffix {ws rest : List Word}
    (h : (∃ i, decode ws = .ok (i, rest)) ∨ ∃ op, decode ws = .error (.reservedOpcode op rest)) :
    rest <:+ ws := by
  cases ws with
  | nil => simp [decode] at h
  | cons w t =>
    by_cases hl : t.length < headerPlen w
    · simp [decode_of_short hl] at h
    · have hdrop : t.drop (headerPlen w) <:+ w :: t := (List.drop_suffix _ t).trans (List.suffix_cons w t)
      rcases decode_of_whole (Nat.not_lt.mp hl) with ⟨i, hd⟩ | hd
      · simp only [hd, Except.ok.injEq, Prod.mk.injEq, reduceCtorEq, exists_false, or_false] at h
        obtain ⟨_, _, rfl⟩ := h
        exact hdrop
      · simp only [hd, Except.error.injEq, Reject.reservedOpcode.injEq, reduceCtorEq, exists_false,
          false_or] at h
        obtain ⟨_, _, rfl⟩ := h
        exact hdrop

theorem leadingWords_of_streamEnd {tail : List HostEvent} (h : streamEnd tail) : leadingWords tail = [] := by
  rcases h with rfl | ⟨rest, rfl⟩
  · exact leadingWords_nil
  · exact leadingWords_reset rest

/-- The decoder is shown exactly the words before the end of the stretch. -/
theorem leadingWords_of_stretch {ws : List Word} {tail : List HostEvent} (h : streamEnd tail) :
    leadingWords (ws.map HostEvent.word ++ tail) = ws := by
  rw [leadingWords_append, leadingWords_of_streamEnd h, List.append_nil]

/-- A command taken off a stretch of words leaves the words after it, and the end of the stretch. -/
theorem consume_of_suffix {s : State} {ws rest : List Word} {tail : List HostEvent} (hend : streamEnd tail)
    (hin : s.input = ws.map HostEvent.word ++ tail) (hsuf : rest <:+ ws) :
    s.consume rest = { s with input := rest.map HostEvent.word ++ tail } := by
  obtain ⟨cmd, rfl⟩ := hsuf
  rw [List.map_append, List.append_assoc] at hin
  have hcons := consume_leadingWords hin
  rwa [leadingWords_of_stretch hend] at hcons

/-! What a command in error does: `raise`, and nothing else. -/

/-- The commands of a fixed length (R94) raise E_SIZE on any other, whatever they do on that one. -/
theorem sized_of_error {n want : Nat} {o : Opcode} {s : State} {body : Except Stop State} {e : ErrCode}
    (h : (if n = want then none else some ErrCode.size) = some e) :
    sized n want o s body = .next (s.raise e o.bits) := by
  obtain ⟨hne, he⟩ := Option.ite_none_left_eq_some.mp h
  cases he
  exact sized_next.mpr (.inr ⟨hne, rfl⟩)

theorem readReg_none {s : State} {reg : BitVec 8} : s.readReg reg = none ↔ 12 ≤ reg.toNat := by
  rw [← Option.not_isSome_iff_eq_none, readReg_isSome, Nat.not_le]
  rfl

/-- R240: each row of the table is a branch of its command's meaning, and that branch raises the
table's error. -/
theorem exec_of_error {i : Instr} {s : State} {e : ErrCode} (h : errorOf s i = some e) :
    exec i s = .next (s.raise e i.opcode.bits) := by
  cases i with
  | nop arg => cases h
  | push xs => cases h
  | hpf xs => cases h
  | init n =>
    obtain ⟨hbad, he⟩ := Option.ite_none_right_eq_some.mp h
    cases he
    exact if_pos hbad
  | wr reg imm =>
    obtain ⟨hreg, he⟩ := Option.ite_none_right_eq_some.mp h
    cases he
    change execWr reg imm s = _
    rw [execWr, writeReg_none.mpr hreg]
    rfl
  | rd reg imm =>
    obtain ⟨hreg, he⟩ := Option.ite_none_right_eq_some.mp h
    cases he
    change execRd reg imm s = _
    rw [execRd, readReg_none.mpr hreg]
    rfl
  | vad xs => exact sized_of_error h
  | spec xs => exact sized_of_error h
  | agc xs => exact sized_of_error h
  | prep xs => exact sized_of_error h
  | fftf xs => exact sized_of_error h
  | ffti bins => exact sized_of_error h

/-! What `raise` changes, by numbers. -/

/-- R24: the sticky bit of an error is bit `code - 1`. -/
theorem sticky_eq_shift (e : ErrCode) : e.sticky = 0x0001#16 <<< (e.code.toNat - 1) := by
  cases e <;> rfl

/-- Two fields side by side, as a number. -/
theorem toNat_append_eq_add {m n : Nat} (x : BitVec m) (y : BitVec n) :
    (x ++ y).toNat = x.toNat * 2 ^ n + y.toNat := by
  rw [BitVec.toNat_append, ← Nat.shiftLeft_add_eq_or_of_lt y.isLt, Nat.shiftLeft_eq]

/-- Format DN (R86) as a sum: its fields do not overlap. -/
theorem doneWord_eq_add (st : BitVec 4) (op : BitVec 8) :
    doneWord st op = 0xE0000000#32 + (st.zeroExtend 32 <<< 24) + (op.zeroExtend 32 <<< 16) := by
  apply BitVec.eq_of_toNat_eq
  simp only [doneWord, toNat_append_eq_add, BitVec.toNat_add, BitVec.toNat_shiftLeft,
    BitVec.truncate_eq_setWidth, BitVec.toNat_setWidth, BitVec.toNat_ofNat, Nat.shiftLeft_eq]
  omega

/-- `raise E_x` (R241) by the numbers of its code. -/
theorem raise_eq_of_code (s : State) (e : ErrCode) (op : BitVec 8) :
    s.raise e op = { s with
      status := s.status ||| (0x0001#16 <<< (e.code.toNat - 1))
      output := s.output ++ [0xE0000000#32 + (e.code.zeroExtend 32 <<< 24) + (op.zeroExtend 32 <<< 16)] } := by
  rw [raise_eq, sticky_eq_shift, doneWord_eq_add]

/-- The step on a command in error or on a reserved opcode is `raise` on the stream after its words:
`errorOf` reads nothing of the streams. -/
theorem step_of_error {s : State} {ws rest : List Word} {tail : List HostEvent} {op : BitVec 8} {e : ErrCode}
    (hend : streamEnd tail) (hin : s.input = ws.map HostEvent.word ++ tail)
    (herr : (∃ i, decode ws = .ok (i, rest) ∧ errorOf s i = some e ∧ op = i.opcode.bits) ∨
      (decode ws = .error (.reservedOpcode op rest) ∧ e = .op)) :
    step s = .next ({ s with input := rest.map HostEvent.word ++ tail }.raise e op) := by
  have hwords : leadingWords s.input = ws := by rw [hin, leadingWords_of_stretch hend]
  rcases herr with ⟨i, hd, he, rfl⟩ | ⟨hd, rfl⟩
  · have hsame : errorOf (s.consume rest) i = some e := he
    rw [step_command (hwords.symm ▸ hd), exec_of_error hsame,
      consume_of_suffix hend hin (decode_rest_suffix (.inl ⟨i, hd⟩))]
  · rw [step_reserved (hwords.symm ▸ hd), execReserved,
      consume_of_suffix hend hin (decode_rest_suffix (.inr ⟨op, hd⟩))]

end Sys2Proof.Machine
end

/-! ### The obligation on the error mechanism -/

section
open Sys2Proof Sys2Proof.Machine

/-- Settles O9: the step is `raise` on the stream after the command's words (`step_of_error`), and
`raise` by the numbers of the error's code is the stated effect. -/
theorem raisedErrorChangesOneStickyBit : Obligations.RaisedErrorChangesOneStickyBit := by
  unfold Obligations.RaisedErrorChangesOneStickyBit
  intro s ws rest tail op e hend hin herr
  rw [step_of_error hend hin herr, raise_eq_of_code]

end

/-! ### Decoding and encoding are inverse (spec/30_encoding.md R81 to R85, R90) -/

section
namespace Sys2Proof.Machine

/-- The words of every well-formed command are a header with its opcode and the announced payload. -/
theorem encode_shape {i : Instr} (hw : i.wellFormed = true) :
    ∃ h t, encode i = h :: t ∧ headerPlen h = t.length ∧ headerOp h = i.opcode.bits := by
  cases i with
  | nop arg => exact Laws.EncodedShape.nop arg hw
  | init arg => exact Laws.EncodedShape.init arg hw
  | wr reg imm => exact Laws.EncodedShape.wr reg imm hw
  | rd reg imm => exact Laws.EncodedShape.rd reg imm hw
  | push xs => exact Laws.EncodedShape.push xs hw
  | hpf xs => exact Laws.EncodedShape.hpf xs hw
  | vad xs => exact Laws.EncodedShape.vad xs hw
  | spec xs => exact Laws.EncodedShape.spec xs hw
  | agc xs => exact Laws.EncodedShape.agc xs hw
  | prep xs => exact Laws.EncodedShape.prep xs hw
  | fftf xs => exact Laws.EncodedShape.fftf xs hw
  | ffti bins => exact Laws.EncodedShape.ffti bins hw

/-- The header and the payload hold every operand of the command. -/
theorem commandOf_encode {i : Instr} {h : Word} {t : List Word} (he : encode i = h :: t) :
    commandOf i.opcode h t = i := by
  cases i with
  | nop arg => cases he; simp [commandOf, Instr.opcode, headerArg_headerH]
  | init arg => cases he; simp [commandOf, Instr.opcode, headerArg_headerH]
  | wr reg imm => cases he; simp [commandOf, Instr.opcode, headerReg_headerHR, headerImm_headerHR]
  | rd reg imm => cases he; simp [commandOf, Instr.opcode, headerReg_headerHR, headerImm_headerHR]
  | ffti bins => cases he; simp [commandOf, Instr.opcode]
  | _ xs => cases he; rfl

/-- The decoder on the words of a command, whatever follows. -/
theorem decode_encode_append {i : Instr} (hw : i.wellFormed = true) (rest : List Word) :
    decode (encode i ++ rest) = .ok (i, rest) := by
  obtain ⟨h, t, he, hlen, hop⟩ := encode_shape hw
  have hopcode : Opcode.ofBits (headerOp h) = some i.opcode := by rw [hop, ofBits_bits]
  rw [he, List.cons_append, decode_of_opcode (by simp [hlen]) hopcode, hlen, List.take_left, List.drop_left,
    commandOf_encode he]

/-! Back from a header to its fields. -/

theorem ofBits_eq_some {op : BitVec 8} {o : Opcode} (h : Opcode.ofBits op = some o) : op = o.bits := by
  have hsome : ∃ o' : Opcode, op = o'.bits := by
    by_contra hall
    have hnone := ofBits_eq_none_iff.mpr fun o' he => hall ⟨o', he⟩
    simp [hnone] at h
  obtain ⟨o', rfl⟩ := hsome
  rw [ofBits_bits] at h
  cases h
  rfl

/-- A format H header is its two fields (R81). -/
theorem headerH_of_fields {h : Word} {o : Opcode} (hop : headerOp h = o.bits) : headerH o (headerArg h) = h := by
  rw [headerH, ← hop]
  ext i hi
  simp only [headerOp, headerArg, BitVec.getElem_append, BitVec.getElem_extractLsb']
  split
  · simp [BitVec.getLsbD_eq_getElem hi]
  · rw [Nat.add_sub_cancel' (by omega), BitVec.getLsbD_eq_getElem hi]

/-- A format HR header is its three fields (R82). -/
theorem headerHR_of_fields {h : Word} {o : Opcode} (hop : headerOp h = o.bits) :
    headerHR o (headerReg h) (headerImm h) = h := by
  rw [headerHR, ← hop]
  ext i hi
  simp only [headerOp, headerReg, headerImm, BitVec.getElem_append, BitVec.getElem_extractLsb']
  split_ifs
  · simp [BitVec.getLsbD_eq_getElem hi]
  · rw [Nat.add_sub_cancel' (by omega), BitVec.getLsbD_eq_getElem hi]
  · rw [Nat.sub_sub, Nat.add_sub_cancel' (by omega), BitVec.getLsbD_eq_getElem hi]

theorem flattenPairs_pairWords {ws : List Word} (h : ws.length % 2 = 0) : flattenPairs (pairWords ws) = ws := by
  induction ws using pairWords.induct with
  | case1 a b rest ih =>
    simp only [List.length_cons] at h
    simp [pairWords, flattenPairs, ih (by omega)]
  | case2 ws hshort =>
    match ws, hshort, h with
    | [], _, _ => rfl
    | [_], _, h => simp at h
    | a :: b :: rest, hshort, _ => exact absurd rfl (hshort a b rest)

theorem encodeSamples_of_header {h : Word} {o : Opcode} {payload : List Word} (hop : headerOp h = o.bits)
    (hlen : payload.length = (headerArg h).toNat) : encodeSamples o payload = h :: payload := by
  rw [encodeSamples, hlen, BitVec.ofNat_toNat, BitVec.setWidth_eq, headerH_of_fields hop]

theorem count_lt_of_headerArg {h : Word} {n : Nat} (hlen : n = (headerArg h).toNat) : decide (n < 2 ^ 24) = true :=
  decide_eq_true (hlen ▸ (headerArg h).isLt)

/-- A header of family REAL announces `arg` payload words (R83). -/
theorem headerPlen_of_real {h : Word} {o : Opcode} (hop : headerOp h = o.bits)
    (h7 : o.bits.getLsbD 7 = false) (h5 : o.bits.extractLsb' 5 2 = 0b01#2) :
    headerPlen h = (headerArg h).toNat := by
  rw [headerPlen, hop, Laws.plen_real _ h7 h5]

/-- What a header with an opcode and its announced payload stand for is a well-formed command with
exactly these words. -/
theorem encode_commandOf {o : Opcode} {h : Word} {payload : List Word} (hop : headerOp h = o.bits)
    (hlen : payload.length = headerPlen h) :
    (commandOf o h payload).wellFormed = true ∧ encode (commandOf o h payload) = h :: payload := by
  have hcontrol (hz : headerPlen h = 0) : payload = [] := List.length_eq_zero_iff.mp (hlen.trans hz)
  have hreal (h7 : o.bits.getLsbD 7 = false) (h5 : o.bits.extractLsb' 5 2 = 0b01#2) :
      decide (payload.length < 2 ^ 24) = true ∧ encodeSamples o payload = h :: payload := by
    have hl : payload.length = (headerArg h).toNat := hlen.trans (headerPlen_of_real hop h7 h5)
    exact ⟨count_lt_of_headerArg hl, encodeSamples_of_header hop hl⟩
  cases o with
  | nop =>
    rw [hcontrol (by rw [headerPlen, hop]; rfl)]
    exact ⟨rfl, by rw [commandOf, encode, headerH_of_fields hop]⟩
  | init =>
    rw [hcontrol (by rw [headerPlen, hop]; rfl)]
    exact ⟨rfl, by rw [commandOf, encode, headerH_of_fields hop]⟩
  | wr =>
    rw [hcontrol (by rw [headerPlen, hop]; rfl)]
    exact ⟨rfl, by rw [commandOf, encode, headerHR_of_fields hop]⟩
  | rd =>
    rw [hcontrol (by rw [headerPlen, hop]; rfl)]
    exact ⟨rfl, by rw [commandOf, encode, headerHR_of_fields hop]⟩
  | ffti =>
    have hl : payload.length = 2 * (headerArg h).toNat := by rw [hlen, headerPlen, hop]; rfl
    have hflat : flattenPairs (pairWords payload) = payload := flattenPairs_pairWords (by omega)
    have hcount : (pairWords payload).length = (headerArg h).toNat := by
      have := flattenPairs_length (pairWords payload)
      rw [hflat] at this
      omega
    refine ⟨count_lt_of_headerArg hcount, ?_⟩
    rw [commandOf, encode, hcount, BitVec.ofNat_toNat, BitVec.setWidth_eq, headerH_of_fields hop, hflat]
  | _ => exact hreal (by decide) (by decide)

end Sys2Proof.Machine
end

/-! ### The obligations on encoding and decoding -/

section
open Sys2Proof Sys2Proof.Machine

/-- Settles O1: `decode_encode_append`. -/
theorem encodeThenDecode : Obligations.EncodeThenDecode := by
  unfold Obligations.EncodeThenDecode
  exact fun i rest hw => decode_encode_append hw rest

/-- Settles O2: a decoded command is `commandOf` its header and payload, and `encode_commandOf` gives
their words back. -/
theorem decodeThenEncode : Obligations.DecodeThenEncode := by
  unfold Obligations.DecodeThenEncode
  intro ws i rest hd
  cases ws with
  | nil => cases hd
  | cons h t =>
    rcases Nat.lt_or_ge t.length (headerPlen h) with hshort | hwhole
    · rw [decode_of_short hshort] at hd
      cases hd
    · cases ho : Opcode.ofBits (headerOp h) with
      | none =>
        rw [decode_of_reserved hwhole ho] at hd
        cases hd
      | some o =>
        rw [decode_of_opcode hwhole ho] at hd
        cases hd
        obtain ⟨hwf, henc⟩ := encode_commandOf (ofBits_eq_some ho)
          (payload := t.take (headerPlen h)) (by simp [hwhole])
        exact ⟨hwf, by rw [henc, List.cons_append, List.take_append_drop]⟩

/-- Settles O4: seven evaluations of the decoder. -/
theorem exampleWordsDecode : Obligations.ExampleWordsDecode := by
  unfold Obligations.ExampleWordsDecode
  refine ⟨?_, ?_, ?_, ?_, ?_, ?_, ?_⟩ <;> decide

end

/-! ### The byte transport (spec/20_memory.md R64) -/

section
namespace Sys2Proof.Machine

/-- Four bytes in their places, as a number. -/
theorem toNat_word_of_bytes (b0 b1 b2 b3 : Byte) :
    (b3 ++ b2 ++ b1 ++ b0 : BitVec (8 + 8 + 8 + 8)).toNat =
      ((b3.toNat * 2 ^ 8 + b2.toNat) * 2 ^ 8 + b1.toNat) * 2 ^ 8 + b0.toNat := by
  simp only [toNat_append_eq_add]

theorem wordsOfBytes_bytesOfWord_append (w : Word) (bs : List Byte) :
    wordsOfBytes (bytesOfWord w ++ bs) = (w :: (wordsOfBytes bs).1, (wordsOfBytes bs).2) := by
  have hw : (w.extractLsb' 24 8 ++ w.extractLsb' 16 8 ++ w.extractLsb' 8 8 ++ w.extractLsb' 0 8 :
      BitVec (8 + 8 + 8 + 8)) = w := by
    apply BitVec.eq_of_toNat_eq
    simp only [toNat_word_of_bytes, BitVec.extractLsb'_toNat, Nat.shiftRight_eq_div_pow]
    omega
  simp only [bytesOfWord, List.cons_append, List.nil_append, wordsOfBytes, hw]

theorem bytesOfWord_of_bytes (b0 b1 b2 b3 : Byte) :
    bytesOfWord (b3 ++ b2 ++ b1 ++ b0 : BitVec (8 + 8 + 8 + 8)) = [b0, b1, b2, b3] := by
  simp only [bytesOfWord, List.cons.injEq, and_true, ← BitVec.toNat_inj, BitVec.extractLsb'_toNat,
    toNat_word_of_bytes, Nat.shiftRight_eq_div_pow]
  omega

theorem wordsOfBytes_bytesOfWords (ws : List Word) : wordsOfBytes (bytesOfWords ws) = (ws, []) := by
  induction ws with
  | nil => rfl
  | cons w ws ih =>
    rw [bytesOfWords, List.flatMap_cons, wordsOfBytes_bytesOfWord_append, ← bytesOfWords, ih]

theorem bytesOfWords_wordsOfBytes {bs : List Byte} (h : bs.length % 4 = 0) :
    bytesOfWords (wordsOfBytes bs).1 = bs ∧ (wordsOfBytes bs).2 = [] := by
  induction bs using wordsOfBytes.induct with
  | case1 b0 b1 b2 b3 rest ih =>
    simp only [List.length_cons] at h
    obtain ⟨hwords, hleft⟩ := ih (by omega)
    refine ⟨?_, hleft⟩
    simp only [wordsOfBytes, bytesOfWords, List.flatMap_cons, bytesOfWord_of_bytes]
    rw [← bytesOfWords, hwords]
    rfl
  | case2 bs hshort =>
    match bs, hshort, h with
    | [], _, _ => exact ⟨rfl, rfl⟩
    | b0 :: b1 :: b2 :: b3 :: rest, hshort, _ => exact absurd rfl (hshort b0 b1 b2 b3 rest)

end Sys2Proof.Machine
end

/-! ### The obligation on the byte transport -/

section
open Sys2Proof Sys2Proof.Machine

/-- Settles O5: word by word in one direction, four bytes at a time in the other. -/
theorem byteTransportRoundTrip : Obligations.ByteTransportRoundTrip := by
  unfold Obligations.ByteTransportRoundTrip
  exact ⟨wordsOfBytes_bytesOfWords, fun _ h => bytesOfWords_wordsOfBytes h⟩

end

/-! ### The step on the words of a command (spec/10_state.md R21) -/

section
namespace Sys2Proof.Machine

/-- The words of a command, sent ahead of everything else, are taken off again by the step that runs it. -/
theorem step_feedFirst_encode {i : Instr} (hw : i.wellFormed = true) (s : State) :
    step (s.feedFirst (encode i)) = exec i s := by
  have hd : decode (leadingWords (s.feedFirst (encode i)).input) = .ok (i, leadingWords s.input) := by
    rw [feedFirst_input, leadingWords_append, decode_encode_append hw]
  rw [step_command hd, consume_leadingWords (feedFirst_input s (encode i))]
  rfl

end Sys2Proof.Machine
end

/-! ### The obligations on the step and its command (spec/10_state.md R21) -/

section
open Sys2Proof Sys2Proof.Machine

/-- Settles O6: the decoder is shown exactly `ws`, and what it leaves is what the command leaves. -/
theorem stepRunsTheDecodedCommand : Obligations.StepRunsTheDecodedCommand := by
  unfold Obligations.StepRunsTheDecodedCommand
  intro s ws rest tail i hend hin hd
  have hwords : leadingWords s.input = ws := by rw [hin, leadingWords_of_stretch hend]
  rw [step_command (hwords.symm ▸ hd), consume_of_suffix hend hin (decode_rest_suffix (.inl ⟨i, hd⟩))]

/-- Settles O7: `step_feedFirst_encode`. -/
theorem stepRunsTheEncodedCommand : Obligations.StepRunsTheEncodedCommand := by
  unfold Obligations.StepRunsTheEncodedCommand
  exact fun s i hw => step_feedFirst_encode hw s

end

/-! ### What every command does, once (spec/10_state.md R21, spec/60_exceptions.md R240) -/

section
namespace Sys2Proof.Machine

/-! The commands that compute on their payload share one shape: the payload is finite, the computation
answers, the answer is written. -/

/-- The body of a command that computes `comp` from the payload `xs` and writes the answer by `k`. -/
def computed {α : Type} (xs : List Word) (comp : Option α) (k : α → Except Stop State) : Except Stop State := do
  requireFinite xs
  let a ← numeric comp
  k a

theorem computed_ok {α : Type} {xs : List Word} {comp : Option α} {k : α → Except Stop State} {t : State} :
    computed xs comp k = .ok t ↔ allFinite xs = true ∧ ∃ a, comp = some a ∧ k a = .ok t := by
  simp only [computed, bind_ok, requireFinite_ok, numeric_ok, exists_const]

theorem computed_of_nonfinite {α : Type} {xs : List Word} (h : allFinite xs = false) (comp : Option α)
    (k : α → Except Stop State) : computed xs comp k = .error (.refused .nonFiniteSample) := by
  simp [computed, requireFinite, h, bind, Except.bind]

theorem computed_of_none {α : Type} {xs : List Word} (h : allFinite xs = true) (k : α → Except Stop State) :
    computed xs none k = .error (.refused .nonFiniteResult) := by
  simp [computed, requireFinite_pos h, numeric, bind, Except.bind]

theorem computed_not_fault {α : Type} {xs : List Word} {comp : Option α} {k : α → State} {f : Fault} :
    computed xs comp (fun a => .ok (k a)) ≠ .error (.fault f) := by
  cases hx : allFinite xs with
  | false => simp [computed_of_nonfinite hx]
  | true =>
    cases comp with
    | none => simp [computed_of_none hx]
    | some a => simp [computed, requireFinite_pos hx, bind, Except.bind]

/-! Each of the eight commands, in that shape. -/

theorem exec_hpf (xs : List Word) (s : State) :
    exec (.hpf xs) s = finish (computed xs (hpfFrame s.cfg.num.toArith s.cfg.biquad s.chain.filter xs)
      (fun r => .ok (if r.1.isEmpty then (s.setFilter r.2).done .hpf
        else ((s.setFilter r.2).emitData r.1).done .hpf))) := rfl

theorem exec_vad (xs : List Word) (s : State) :
    exec (.vad xs) s = sized xs.length s.frameSize.toNat .vad s
      (computed xs (vadFrame s.cfg.num s.cfg.vad s.chain.silRun xs)
        (fun r => .ok (((s.setSilRun r.2).emitData [if r.1 then 1#32 else 0#32, r.2]).done .vad))) := rfl

theorem exec_spec (xs : List Word) (s : State) :
    exec (.spec xs) s = sized xs.length s.frameSize.toNat .spec s
      (computed xs (specFrame s.cfg.num s.cfg s.subEn s.chain.silRun s.chain.spectral xs)
        (fun r => .ok (((s.setSpectral r.2).emitData r.1).done .spec))) := rfl

theorem exec_agc (xs : List Word) (s : State) :
    exec (.agc xs) s = sized xs.length s.frameSize.toNat .agc s
      (computed xs (agcFrame s.cfg.num s.cfg.agc s.chain.gain xs)
        (fun r => .ok (((s.setGain r.2).emitData r.1).done .agc))) := rfl

theorem exec_prep (xs : List Word) (s : State) :
    exec (.prep xs) s = sized xs.length s.frameSize.toNat .prep s
      (computed xs (preprocess s.cfg.num s.cfg s.subEn s.chain xs)
        (fun r => .ok (((s.setChain r.2).emitData r.1).done .prep))) := rfl

theorem exec_fftf (xs : List Word) (s : State) :
    exec (.fftf xs) s = sized xs.length s.cfg.fftN .fftf s
      (computed xs (forward s.cfg.num s.cfg (ofReal xs))
        (fun y => .ok ((s.emitData (flattenPairs y)).done .fftf))) := rfl

theorem exec_ffti (bins : List (Word × Word)) (s : State) :
    exec (.ffti bins) s = sized bins.length s.cfg.fftN .ffti s
      (computed (flattenPairs bins) (inverse s.cfg.num s.cfg bins)
        (fun y => .ok ((s.emitData (y.map Prod.fst)).done .ffti))) := rfl

theorem exec_push (xs : List Word) (s : State) :
    exec (.push xs) s = finish (requireFinite xs >>= fun _ => pushSamples s xs >>= fun t => .ok (t.done .push)) :=
  rfl

/-! The frame assembler's own frame: PUSH writes CURSOR, ACC and, with CHAIN_EN = 1, the chain. -/

/-- The state with the three parts that PUSH writes taken from `t`. -/
def State.pushed (s t : State) : State := { s with cursor := t.cursor, acc := t.acc, chain := t.chain }

/-- What a PUSH, as far as it has come, has done: the three parts written, the chain only with
CHAIN_EN = 1, and packets of FRAME_SIZE samples answered. -/
structure PushedTo (s t : State) (packets : List (List Word)) : Prop where
  state : t = (s.pushed t).emit (packets.flatMap dataPacket)
  chain : s.chainEn = false → t.chain = s.chain
  lengths : ∀ p ∈ packets, p.length = s.frameSize.toNat

theorem pushedTo_trans {s t u : State} {p q : List (List Word)} (hst : PushedTo s t p) (htu : PushedTo t u q) :
    PushedTo s u (p ++ q) := by
  have hoff : t.chainEn = s.chainEn := by rw [hst.state]; rfl
  have hsize : t.frameSize = s.frameSize := by rw [hst.state]; rfl
  refine ⟨?_, fun h => ?_, fun r hr => ?_⟩
  · rw [htu.state, hst.state]
    simp [State.pushed, State.emit]
  · rw [htu.chain (hoff.trans h), hst.chain h]
  · rcases List.mem_append.mp hr with hr | hr
    · exact hst.lengths r hr
    · rw [htu.lengths r hr, hsize]

/-- The engine delivers a frame of the length it was given, in every state. -/
theorem specFrame_length {num : Num} {c : Cfg} {sub : Bool} {run : BitVec 32} {e e' : SpectralState}
    {f g : List Word} (h : specFrame num c sub run e f = some (g, e')) (hl : f.length ≤ c.fftN) :
    g.length = f.length := by
  rcases specFrame_delivers h with ⟨-, rfl, -⟩ | ⟨-, x, y, mag, out, -, -, hout, rfl⟩
  · rfl
  · obtain ⟨-, -, -, -, hlen, -⟩ := synthesise_some hout
    rw [List.length_take, hlen, Nat.min_eq_left hl]

/-- The chain delivers a frame of the length it was given, in every state. -/
theorem preprocess_length {num : Num} {c : Cfg} {sub : Bool} {ch ch' : ChainState} {f o : List Word}
    (h : preprocess num c sub ch f = some (o, ch')) (hl : f.length ≤ c.fftN) : o.length = f.length := by
  obtain ⟨y, flt, sp, run, g, d, e, gain, hfilter, -, hfade, hspec, hagc, -⟩ := preprocess_some.mp h
  have hg : g.length = f.length := (fade_length hfade).trans (hpfFrame_length hfilter)
  rw [agcFrame_length hagc, specFrame_length hspec (hg ▸ hl), hg]

theorem completeFrame_pushedTo {s t : State} {f : List Word} (hl : f.length = s.frameSize.toNat)
    (hle : s.frameSize.toNat ≤ s.cfg.fftN) (h : completeFrame s f = .ok t) : ∃ packets, PushedTo s t packets := by
  rcases completeFrame_ok.mp h with ⟨-, rfl⟩ | ⟨hon, g, ch, hchain, rfl⟩
  · exact ⟨[f], by simp [State.pushed, State.emit], fun _ => rfl, by simpa using hl⟩
  · have hg : g.length = s.frameSize.toNat := (preprocess_length hchain (hl ▸ hle)).trans hl
    exact ⟨[g], by simp [State.pushed, State.emit, State.setChain], fun hoff => by simp [hon] at hoff,
      by simpa using hg⟩

theorem pushSample_pushedTo {s t : State} {x : Word} (h : pushSample s x = .ok t) :
    ∃ packets, PushedTo s t packets := by
  obtain ⟨-, ⟨-, rfl⟩ | ⟨-, hle, hframe⟩⟩ := pushSample_ok.mp h
  · exact ⟨[], by simp [State.pushed, State.emit], fun _ => rfl, by simp⟩
  · obtain ⟨packets, hstate, hchain, hlengths⟩ := completeFrame_pushedTo (by exact toList_length _ _) (by exact hle) hframe
    exact ⟨packets, hstate, hchain, hlengths⟩

theorem pushSamples_pushedTo {s t : State} {xs : List Word} (h : pushSamples s xs = .ok t) :
    ∃ packets, PushedTo s t packets := by
  induction xs generalizing s with
  | nil =>
    cases h
    exact ⟨[], by simp [State.pushed, State.emit], fun _ => rfl, by simp⟩
  | cons x xs ih =>
    obtain ⟨u, hx, hxs⟩ := pushSamples_cons.mp h
    obtain ⟨p, hp⟩ := pushSample_pushedTo hx
    obtain ⟨q, hq⟩ := ih hxs
    exact ⟨p ++ q, pushedTo_trans hp hq⟩

/-! One inversion for all commands. -/

/-- What a command without error does ahead of its DONE word: the state it leaves, where nothing of the
response stream is written yet, and the DATA packets it answers. -/
inductive Performs (s : State) : Instr → State → List (List Word) → Prop
  | nop {arg : BitVec 24} : Performs s (.nop arg) s []
  | init {n : BitVec 24} (hsize : ¬(n.toNat = 0 ∨ s.cfg.fftN < n.toNat)) : Performs s (.init n) (s.reinit n) []
  | wr {reg : BitVec 8} {imm : BitVec 16} {u : State} (hreg : s.writeReg reg imm = some u) :
      Performs s (.wr reg imm) u []
  | rd {reg : BitVec 8} {imm : BitVec 16} {v : Word} (hreg : s.readReg reg = some v) :
      Performs s (.rd reg imm) s [[v]]
  | push {xs : List Word} {t : State} {packets : List (List Word)} (hfin : allFinite xs = true)
      (hpush : pushSamples s xs = .ok t) (hto : PushedTo s t packets) :
      Performs s (.push xs) (s.pushed t) packets
  | hpf {xs ys : List Word} {h : FilterState Word} (hfin : allFinite xs = true)
      (hcomp : hpfFrame s.cfg.num.toArith s.cfg.biquad s.chain.filter xs = some (ys, h)) :
      Performs s (.hpf xs) (s.setFilter h) (if ys.isEmpty then [] else [ys])
  | vad {xs : List Word} {speech : Bool} {run : BitVec 32} (hlen : xs.length = s.frameSize.toNat)
      (hfin : allFinite xs = true)
      (hcomp : vadFrame s.cfg.num s.cfg.vad s.chain.silRun xs = some (speech, run)) :
      Performs s (.vad xs) (s.setSilRun run) [[if speech then 1#32 else 0#32, run]]
  | spec {xs g : List Word} {e : SpectralState} (hlen : xs.length = s.frameSize.toNat)
      (hfin : allFinite xs = true)
      (hcomp : specFrame s.cfg.num s.cfg s.subEn s.chain.silRun s.chain.spectral xs = some (g, e)) :
      Performs s (.spec xs) (s.setSpectral e) [g]
  | agc {xs o : List Word} {g : Word} (hlen : xs.length = s.frameSize.toNat) (hfin : allFinite xs = true)
      (hcomp : agcFrame s.cfg.num s.cfg.agc s.chain.gain xs = some (o, g)) :
      Performs s (.agc xs) (s.setGain g) [o]
  | prep {xs o : List Word} {ch : ChainState} (hlen : xs.length = s.frameSize.toNat)
      (hfin : allFinite xs = true)
      (hcomp : preprocess s.cfg.num s.cfg s.subEn s.chain xs = some (o, ch)) :
      Performs s (.prep xs) (s.setChain ch) [o]
  | fftf {xs : List Word} {y : List (Word × Word)} (hlen : xs.length = s.cfg.fftN)
      (hfin : allFinite xs = true) (hcomp : forward s.cfg.num s.cfg (ofReal xs) = some y) :
      Performs s (.fftf xs) s [flattenPairs y]
  | ffti {bins y : List (Word × Word)} (hlen : bins.length = s.cfg.fftN)
      (hfin : allFinite (flattenPairs bins) = true) (hcomp : inverse s.cfg.num s.cfg bins = some y) :
      Performs s (.ffti bins) s [y.map Prod.fst]

/-- The state after a command's packets and its DONE word. -/
def State.answered (u : State) (packets : List (List Word)) (o : Opcode) : State :=
  u.emit (packets.flatMap dataPacket ++ [doneWord 0#4 o.bits])

@[simp] theorem answered_cfg (u : State) (p : List (List Word)) (o : Opcode) : (u.answered p o).cfg = u.cfg := rfl
@[simp] theorem answered_ctrl (u : State) (p : List (List Word)) (o : Opcode) : (u.answered p o).ctrl = u.ctrl := rfl
@[simp] theorem answered_status (u : State) (p : List (List Word)) (o : Opcode) :
    (u.answered p o).status = u.status := rfl
@[simp] theorem answered_frameSize (u : State) (p : List (List Word)) (o : Opcode) :
    (u.answered p o).frameSize = u.frameSize := rfl
@[simp] theorem answered_cursor (u : State) (p : List (List Word)) (o : Opcode) :
    (u.answered p o).cursor = u.cursor := rfl
@[simp] theorem answered_acc (u : State) (p : List (List Word)) (o : Opcode) : (u.answered p o).acc = u.acc := rfl
@[simp] theorem answered_chain (u : State) (p : List (List Word)) (o : Opcode) :
    (u.answered p o).chain = u.chain := rfl
@[simp] theorem answered_input (u : State) (p : List (List Word)) (o : Opcode) :
    (u.answered p o).input = u.input := rfl
@[simp] theorem answered_output (u : State) (p : List (List Word)) (o : Opcode) :
    (u.answered p o).output = u.output ++ (p.flatMap dataPacket ++ [doneWord 0#4 o.bits]) := rfl

theorem emitData_done_eq_answered (u : State) (ws : List Word) (o : Opcode) :
    (u.emitData ws).done o = u.answered [ws] o := by
  simp [State.answered]

theorem pushed_answered {s t : State} {packets : List (List Word)} (h : PushedTo s t packets) (o : Opcode) :
    t.done o = (s.pushed t).answered packets o := by
  rw [State.answered, ← emit_emit, ← h.state, done_eq]

/-- Where a command performs, that and its DONE word are the whole of the step. -/
theorem exec_of_performs {s u : State} {i : Instr} {packets : List (List Word)} (h : Performs s i u packets) :
    exec i s = .next (u.answered packets i.opcode) := by
  cases h with
  | nop => rfl
  | init hsize => exact if_neg hsize
  | wr hreg =>
    change execWr _ _ s = _
    rw [execWr, hreg]
    rfl
  | @rd reg imm v hreg =>
    change execRd reg imm s = _
    rw [execRd, hreg]
    exact congrArg _ (emitData_done_eq_answered s _ .rd)
  | push hfin hpush hto =>
    rw [exec_push, finish_next, bind_ok]
    exact ⟨(), requireFinite_pos hfin, bind_ok.mpr ⟨_, hpush, congrArg _ (pushed_answered hto .push)⟩⟩
  | @hpf xs ys hist hfin hcomp =>
    rw [exec_hpf, finish_next, computed_ok]
    refine ⟨hfin, _, hcomp, ?_⟩
    cases ys with
    | nil => rfl
    | cons y ys => exact congrArg _ (emitData_done_eq_answered _ _ .hpf)
  | vad hlen hfin hcomp =>
    rw [exec_vad, sized_next, computed_ok]
    exact .inl ⟨hlen, hfin, _, hcomp, congrArg _ (emitData_done_eq_answered _ _ .vad)⟩
  | spec hlen hfin hcomp =>
    rw [exec_spec, sized_next, computed_ok]
    exact .inl ⟨hlen, hfin, _, hcomp, congrArg _ (emitData_done_eq_answered _ _ .spec)⟩
  | agc hlen hfin hcomp =>
    rw [exec_agc, sized_next, computed_ok]
    exact .inl ⟨hlen, hfin, _, hcomp, congrArg _ (emitData_done_eq_answered _ _ .agc)⟩
  | prep hlen hfin hcomp =>
    rw [exec_prep, sized_next, computed_ok]
    exact .inl ⟨hlen, hfin, _, hcomp, congrArg _ (emitData_done_eq_answered _ _ .prep)⟩
  | fftf hlen hfin hcomp =>
    rw [exec_fftf, sized_next, computed_ok]
    exact .inl ⟨hlen, hfin, _, hcomp, congrArg _ (emitData_done_eq_answered _ _ .fftf)⟩
  | ffti hlen hfin hcomp =>
    rw [exec_ffti, sized_next, computed_ok]
    exact .inl ⟨hlen, hfin, _, hcomp, congrArg _ (emitData_done_eq_answered _ _ .ffti)⟩

/-- A command of fixed length that is not in error has that length, and its body ran. -/
theorem sized_computed_of_ok {α : Type} {n want : Nat} {o : Opcode} {s t : State} {xs : List Word}
    {comp : Option α} {k : α → Except Stop State}
    (herr : (if n = want then none else some ErrCode.size) = none)
    (h : sized n want o s (computed xs comp k) = .next t) :
    n = want ∧ allFinite xs = true ∧ ∃ a, comp = some a := by
  have hlen : n = want := by
    by_contra hne
    simp [hne] at herr
  obtain ⟨-, hbody⟩ | ⟨hne, -⟩ := sized_next.mp h
  · obtain ⟨hfin, a, ha, -⟩ := computed_ok.mp hbody
    exact ⟨hlen, hfin, a, ha⟩
  · exact absurd hlen hne

/-- A command that answers and is not in error performs. -/
theorem performs_of_exec {s t : State} {i : Instr} (h : exec i s = .next t) (herr : errorOf s i = none) :
    ∃ u packets, Performs s i u packets := by
  cases i with
  | nop arg => exact ⟨_, _, .nop⟩
  | init n => exact ⟨_, _, .init fun hbad => by simp [errorOf, hbad] at herr⟩
  | wr reg imm =>
    cases hreg : s.writeReg reg imm with
    | none => simp [errorOf, writeReg_none.mp hreg] at herr
    | some u => exact ⟨_, _, .wr hreg⟩
  | rd reg imm =>
    cases hreg : s.readReg reg with
    | none => simp [errorOf, readReg_none.mp hreg] at herr
    | some v => exact ⟨_, _, .rd hreg⟩
  | push xs =>
    rw [exec_push, finish_next, bind_ok] at h
    obtain ⟨_, hfin, h⟩ := h
    obtain ⟨u, hpush, -⟩ := bind_ok.mp h
    obtain ⟨packets, hto⟩ := pushSamples_pushedTo hpush
    exact ⟨_, _, .push (requireFinite_ok.mp hfin) hpush hto⟩
  | hpf xs =>
    rw [exec_hpf, finish_next, computed_ok] at h
    obtain ⟨hfin, a, ha, -⟩ := h
    exact ⟨_, _, .hpf hfin ha⟩
  | vad xs =>
    obtain ⟨hlen, hfin, a, ha⟩ := sized_computed_of_ok herr h
    exact ⟨_, _, .vad hlen hfin ha⟩
  | spec xs =>
    obtain ⟨hlen, hfin, a, ha⟩ := sized_computed_of_ok herr h
    exact ⟨_, _, .spec hlen hfin ha⟩
  | agc xs =>
    obtain ⟨hlen, hfin, a, ha⟩ := sized_computed_of_ok herr h
    exact ⟨_, _, .agc hlen hfin ha⟩
  | prep xs =>
    obtain ⟨hlen, hfin, a, ha⟩ := sized_computed_of_ok herr h
    exact ⟨_, _, .prep hlen hfin ha⟩
  | fftf xs =>
    obtain ⟨hlen, hfin, a, ha⟩ := sized_computed_of_ok herr h
    exact ⟨_, _, .fftf hlen hfin ha⟩
  | ffti bins =>
    obtain ⟨hlen, hfin, a, ha⟩ := sized_computed_of_ok herr h
    exact ⟨_, _, .ffti hlen hfin ha⟩

/-- All that a command can answer: its error, or what it performs and its DONE word. -/
theorem exec_next_cases {s t : State} {i : Instr} (h : exec i s = .next t) :
    (∃ e, errorOf s i = some e ∧ t = s.raise e i.opcode.bits) ∨
    (errorOf s i = none ∧ ∃ u packets, Performs s i u packets ∧ t = u.answered packets i.opcode) := by
  cases herr : errorOf s i with
  | some e =>
    rw [exec_of_error herr] at h
    cases h
    exact .inl ⟨e, rfl, rfl⟩
  | none =>
    obtain ⟨u, packets, hp⟩ := performs_of_exec h herr
    rw [exec_of_performs hp] at h
    cases h
    exact .inr ⟨rfl, u, packets, hp, rfl⟩

end Sys2Proof.Machine
end

/-! ### What a command writes and leaves (spec/10_state.md R22) -/

section
namespace Sys2Proof.Machine

variable {s u : State} {i : Instr} {packets : List (List Word)}

theorem performs_cfg (h : Performs s i u packets) : u.cfg = s.cfg := by
  cases h with
  | wr hreg => rcases writeReg_cases hreg with ⟨-, rfl⟩ | ⟨-, rfl⟩ <;> rfl
  | _ => rfl

theorem performs_input (h : Performs s i u packets) : u.input = s.input := by
  cases h with
  | wr hreg => rcases writeReg_cases hreg with ⟨-, rfl⟩ | ⟨-, rfl⟩ <;> rfl
  | _ => rfl

theorem performs_output (h : Performs s i u packets) : u.output = s.output := by
  cases h with
  | wr hreg => rcases writeReg_cases hreg with ⟨-, rfl⟩ | ⟨-, rfl⟩ <;> rfl
  | _ => rfl

theorem performs_ctrl (h : Performs s i u packets) :
    u.ctrl = s.ctrl ∨ ∃ imm, i = .wr 0x00#8 imm ∧ u.ctrl = ctrlWritten imm := by
  cases h with
  | @wr reg imm u hreg =>
    rcases writeReg_cases hreg with ⟨rfl, rfl⟩ | ⟨rfl, rfl⟩
    · exact .inr ⟨imm, rfl, rfl⟩
    · exact .inl rfl
  | _ => exact .inl rfl

theorem performs_status (h : Performs s i u packets) :
    (∃ imm, i = .wr 0x01#8 imm ∧ u.status = statusCleared s.status imm) ∨
    ((∀ imm, i ≠ .wr 0x01#8 imm) ∧ u.status = s.status) := by
  cases h with
  | @wr reg imm u hreg =>
    rcases writeReg_cases hreg with ⟨rfl, rfl⟩ | ⟨rfl, rfl⟩
    · exact .inr ⟨fun imm' => by simp, rfl⟩
    · exact .inl ⟨imm, rfl, rfl⟩
  | _ => exact .inr ⟨fun imm => by simp, rfl⟩

theorem performs_frameSize (h : Performs s i u packets) :
    u.frameSize = s.frameSize ∨ ∃ n, i = .init n ∧ u.frameSize = n := by
  cases h with
  | wr hreg => rcases writeReg_cases hreg with ⟨-, rfl⟩ | ⟨-, rfl⟩ <;> exact .inl rfl
  | init hsize => exact .inr ⟨_, rfl, rfl⟩
  | _ => exact .inl rfl

theorem performs_assembler (h : Performs s i u packets) :
    (u.cursor = s.cursor ∧ u.acc = s.acc) ∨ (∃ xs, i = .push xs) ∨ ∃ n, i = .init n := by
  cases h with
  | wr hreg => rcases writeReg_cases hreg with ⟨-, rfl⟩ | ⟨-, rfl⟩ <;> exact .inl ⟨rfl, rfl⟩
  | init hsize => exact .inr (.inr ⟨_, rfl⟩)
  | push hfin hpush hto => exact .inr (.inl ⟨_, rfl⟩)
  | _ => exact .inl ⟨rfl, rfl⟩

/-- The chain's state is written as a whole by PREP, by PUSH with CHAIN_EN = 1 and by INIT; each of its
four parts is otherwise written by the one command of its stage. -/
theorem performs_chain (h : Performs s i u packets) :
    (((∃ xs, i = .prep xs) ∨ (s.chainEn = true ∧ ∃ xs, i = .push xs)) ∨ ∃ n, i = .init n) ∨
    ((u.chain.filter = s.chain.filter ∨ ∃ xs, i = .hpf xs) ∧
      (u.chain.silRun = s.chain.silRun ∨ ∃ xs, i = .vad xs) ∧
      (u.chain.spectral = s.chain.spectral ∨ ∃ xs, i = .spec xs) ∧
      (u.chain.gain = s.chain.gain ∨ ∃ xs, i = .agc xs)) := by
  cases h with
  | init hsize => exact .inl (.inr ⟨_, rfl⟩)
  | wr hreg =>
    rcases writeReg_cases hreg with ⟨-, rfl⟩ | ⟨-, rfl⟩ <;> exact .inr ⟨.inl rfl, .inl rfl, .inl rfl, .inl rfl⟩
  | push hfin hpush hto =>
    cases hon : s.chainEn with
    | true => exact .inl (.inl (.inr ⟨rfl, _, rfl⟩))
    | false =>
      have hsame := hto.chain hon
      simp [State.pushed, hsame]
  | prep hlen hfin hcomp => exact .inl (.inl (.inl ⟨_, rfl⟩))
  | hpf hfin hcomp => exact .inr ⟨.inr ⟨_, rfl⟩, .inl rfl, .inl rfl, .inl rfl⟩
  | vad hlen hfin hcomp => exact .inr ⟨.inl rfl, .inr ⟨_, rfl⟩, .inl rfl, .inl rfl⟩
  | spec hlen hfin hcomp => exact .inr ⟨.inl rfl, .inl rfl, .inr ⟨_, rfl⟩, .inl rfl⟩
  | agc hlen hfin hcomp => exact .inr ⟨.inl rfl, .inl rfl, .inl rfl, .inr ⟨_, rfl⟩⟩
  | _ => exact .inr ⟨.inl rfl, .inl rfl, .inl rfl, .inl rfl⟩

end Sys2Proof.Machine
end

/-! ### The obligations on what a command writes -/

section
open Sys2Proof Sys2Proof.Machine

/-- Settles O10: a command in error sets its bit (`raise`), and of the others `performs_status` singles
out WR STATUS. -/
theorem stickyBitsOnlyByErrors : Obligations.StickyBitsOnlyByErrors := by
  unfold Obligations.StickyBitsOnlyByErrors
  intro s t i h
  rcases exec_next_cases h with ⟨e, herr, rfl⟩ | ⟨herr, u, packets, hp, rfl⟩
  · simp only [herr, raise_status, sticky_eq_shift]
  · rw [herr, answered_status]
    rcases performs_status hp with ⟨imm, rfl, hstatus⟩ | ⟨hother, hstatus⟩
    · exact hstatus
    · rw [hstatus]
      dsimp only
      split
      case h_1 imm => exact absurd rfl (hother imm)
      case h_2 => rfl

/-- Settles O51: a command in error writes STATUS alone; of the others each field has its lemma
`performs_…` above. -/
theorem stateIsWrittenOnlyByItsCommands : Obligations.StateIsWrittenOnlyByItsCommands := by
  unfold Obligations.StateIsWrittenOnlyByItsCommands
  intro s t i h isInit isPush runsChain
  rcases exec_next_cases h with ⟨e, herr, rfl⟩ | ⟨herr, u, packets, hp, rfl⟩
  · simp [herr]
  · simp only [answered_cfg, answered_input, answered_ctrl, answered_status, answered_frameSize,
      answered_cursor, answered_acc, answered_chain]
    refine ⟨performs_cfg hp, performs_input hp, fun hne => ?_, fun hne => ?_, fun hne => ?_, fun hne => ?_,
      ?_, ?_⟩
    · obtain ⟨imm, rfl, -⟩ := (performs_ctrl hp).resolve_left hne
      exact ⟨imm, rfl⟩
    · rcases performs_status hp with ⟨imm, rfl, -⟩ | ⟨-, hsame⟩
      · exact .inr ⟨imm, rfl⟩
      · exact absurd hsame hne
    · obtain ⟨n, rfl, -⟩ := (performs_frameSize hp).resolve_left hne
      exact ⟨n, rfl⟩
    · exact (performs_assembler hp).resolve_left fun hsame => hne hsame.1
    · rintro ⟨k, hne⟩
      exact (performs_assembler hp).resolve_left fun hsame => hne (by rw [hsame.2])
    · rcases performs_chain hp with hwhole | ⟨hfilter, hrun, hspectral, hgain⟩
      · exact ⟨fun _ => .inr hwhole, fun _ => .inr hwhole, fun _ => .inr hwhole, fun _ => .inr hwhole⟩
      · exact ⟨fun hne => .inl (hfilter.resolve_left hne), fun hne => .inl (hrun.resolve_left hne),
          fun hne => .inl (hspectral.resolve_left hne), fun hne => .inl (hgain.resolve_left hne)⟩

end

/-! ### The streams are no state (spec/10_state.md R20) -/

section
namespace Sys2Proof.Machine

/-- The state with other host events to come, and with words given before its own responses. -/
def State.onStreams (s : State) (events : List HostEvent) (before : List Word) : State :=
  { s with input := events, output := before ++ s.output }

/-- An outcome with `f` on its next state. -/
def mapNext (f : State → State) : Host.Outcome State Fault Refusal → Host.Outcome State Fault Refusal
  | .next s => .next (f s)
  | .fault r => .fault r
  | .refused r => .refused r

theorem finish_map (f : State → State) (e : Except Stop State) : finish (e.map f) = mapNext f (finish e) := by
  rcases e with (g | r) | s <;> rfl

@[simp] theorem mapNext_next {f : State → State} {o : Host.Outcome State Fault Refusal} {t : State} :
    mapNext f o = .next t ↔ ∃ u, o = .next u ∧ t = f u := by
  cases o <;> simp [mapNext, eq_comm]

@[simp] theorem mapNext_refused {f : State → State} {o : Host.Outcome State Fault Refusal} {r : Refusal} :
    mapNext f o = .refused r ↔ o = .refused r := by
  cases o <;> simp [mapNext]

variable (events : List HostEvent) (before : List Word)

theorem onStreams_emit (s : State) (ws : List Word) :
    (s.onStreams events before).emit ws = (s.emit ws).onStreams events before := by
  simp [State.emit, State.onStreams]

theorem onStreams_raise (s : State) (e : ErrCode) (op : BitVec 8) :
    (s.onStreams events before).raise e op = (s.raise e op).onStreams events before :=
  onStreams_emit events before { s with status := s.status ||| e.sticky } _

theorem onStreams_answer (s : State) (ws : List Word) (o : Opcode) :
    ((s.onStreams events before).emitData ws).done o = ((s.emitData ws).done o).onStreams events before := by
  simp only [emitData_eq, done_eq, onStreams_emit]

theorem computed_map {α : Type} {xs : List Word} {comp : Option α} {k k' : α → State} {f : State → State}
    (hk : ∀ a, k' a = f (k a)) :
    computed xs comp (fun a => .ok (k' a)) = (computed xs comp fun a => .ok (k a)).map f := by
  cases hx : allFinite xs with
  | false => simp [computed_of_nonfinite hx, Except.map]
  | true =>
    cases comp with
    | none => simp [computed_of_none hx, Except.map]
    | some a => simp [computed, requireFinite_pos hx, bind, Except.bind, Except.map, hk]

theorem sized_onStreams {n want : Nat} {o : Opcode} {s : State} {body body' : Except Stop State}
    (hb : body' = body.map (·.onStreams events before)) :
    sized n want o (s.onStreams events before) body' =
      mapNext (·.onStreams events before) (sized n want o s body) := by
  by_cases hn : n = want
  · rw [sized, sized, if_pos hn, if_pos hn, hb, finish_map]
  · rw [sized, sized, if_neg hn, if_neg hn, onStreams_raise]
    rfl

/-- A fold commutes with a change of the state that each of its steps commutes with. -/
theorem foldlM_map_comm {α β ε : Type} {f : β → α → Except ε β} {g : β → β}
    (hf : ∀ b a, f (g b) a = (f b a).map g) (xs : List α) (b : β) :
    xs.foldlM f (g b) = (xs.foldlM f b).map g := by
  induction xs generalizing b with
  | nil => rfl
  | cons x xs ih =>
    rw [List.foldlM_cons, List.foldlM_cons, hf]
    cases hx : f b x with
    | error e => rfl
    | ok c => exact ih c

/-- One sample of PUSH, with its checks of the element accesses. -/
theorem pushSample_eq (s : State) (x : Word) :
    pushSample s x =
      if s.cursor.toNat < s.cfg.fftN then
        if s.cursor + 1#24 = s.frameSize then
          if s.frameSize.toNat ≤ s.cfg.fftN then
            completeFrame { s with acc := s.acc.write s.cursor.toNat x, cursor := 0#24 }
              ((s.acc.write s.cursor.toNat x).toList s.frameSize.toNat)
          else .error (.fault (.noSuchElement (s.frameSize.toNat - 1)))
        else .ok { s with acc := s.acc.write s.cursor.toNat x, cursor := s.cursor + 1#24 }
      else .error (.fault (.noSuchElement s.cursor.toNat)) := by
  simp only [pushSample, State.writeAcc, State.readAcc]
  split_ifs <;> simp [*, bind, Except.bind, pure, Except.pure]

theorem completeFrame_onStreams (s : State) (f : List Word) :
    completeFrame (s.onStreams events before) f = (completeFrame s f).map (·.onStreams events before) := by
  have hon : (s.onStreams events before).chainEn = s.chainEn := rfl
  have hchain : preprocess (s.onStreams events before).cfg.num (s.onStreams events before).cfg
      (s.onStreams events before).subEn (s.onStreams events before).chain f =
      preprocess s.cfg.num s.cfg s.subEn s.chain f := rfl
  simp only [completeFrame, hon, hchain]
  split
  · cases preprocess s.cfg.num s.cfg s.subEn s.chain f with
    | none => rfl
    | some r => exact congrArg _ (onStreams_emit events before (s.setChain r.2) _)
  · exact congrArg _ (onStreams_emit events before s _)

theorem pushSample_onStreams (s : State) (x : Word) :
    pushSample (s.onStreams events before) x = (pushSample s x).map (·.onStreams events before) := by
  have hcfg : (s.onStreams events before).cfg = s.cfg := rfl
  have hcursor : (s.onStreams events before).cursor = s.cursor := rfl
  have hsize : (s.onStreams events before).frameSize = s.frameSize := rfl
  have hframe := completeFrame_onStreams events before
    { s with acc := s.acc.write s.cursor.toNat x, cursor := 0#24 }
    ((s.acc.write s.cursor.toNat x).toList s.frameSize.toNat)
  rw [pushSample_eq, pushSample_eq, hcfg, hcursor, hsize]
  split_ifs
  · exact hframe
  · rfl
  · rfl
  · rfl

theorem pushSamples_onStreams (s : State) (xs : List Word) :
    pushSamples (s.onStreams events before) xs = (pushSamples s xs).map (·.onStreams events before) :=
  foldlM_map_comm (f := pushSample) (g := (·.onStreams events before)) (pushSample_onStreams events before) xs s

/-- What a command does commutes with any change of the streams: it reads neither, and adds only at the
end of the responses. -/
theorem exec_onStreams (i : Instr) (s : State) :
    exec i (s.onStreams events before) = mapNext (·.onStreams events before) (exec i s) := by
  cases i with
  | nop arg => exact congrArg _ (onStreams_emit events before s _)
  | init n =>
    have hcfg : (s.onStreams events before).cfg = s.cfg := rfl
    change execInit n _ = mapNext _ (execInit n s)
    rw [execInit, execInit, hcfg]
    by_cases hbad : n.toNat = 0 ∨ s.cfg.fftN < n.toNat
    · rw [if_pos hbad, if_pos hbad, onStreams_raise]
      rfl
    · rw [if_neg hbad, if_neg hbad]
      exact congrArg _ (onStreams_emit events before (s.reinit n) _)
  | wr reg imm =>
    have hreg : (s.onStreams events before).writeReg reg imm =
        (s.writeReg reg imm).map (·.onStreams events before) := by
      simp only [State.writeReg]
      split_ifs <;> rfl
    change execWr reg imm _ = mapNext _ (execWr reg imm s)
    rw [execWr, execWr, hreg]
    cases s.writeReg reg imm with
    | none => exact congrArg _ (onStreams_raise events before s _ _)
    | some u => exact congrArg _ (onStreams_emit events before u _)
  | rd reg imm =>
    have hreg : (s.onStreams events before).readReg reg = s.readReg reg := rfl
    change execRd reg imm _ = mapNext _ (execRd reg imm s)
    rw [execRd, execRd, hreg]
    cases s.readReg reg with
    | none => exact congrArg _ (onStreams_raise events before s _ _)
    | some v => exact congrArg _ (onStreams_answer events before s _ _)
  | push xs =>
    rw [exec_push, exec_push, pushSamples_onStreams, ← finish_map]
    cases hx : requireFinite xs with
    | error e => rfl
    | ok _ =>
      cases pushSamples s xs with
      | error e => rfl
      | ok t => exact congrArg (finish ∘ Except.ok) (onStreams_emit events before t _)
  | hpf xs =>
    rw [exec_hpf, exec_hpf, ← finish_map]
    refine congrArg _ (computed_map fun r => ?_)
    cases r.1.isEmpty with
    | true => exact onStreams_emit events before (s.setFilter r.2) _
    | false => exact onStreams_answer events before (s.setFilter r.2) _ _
  | vad xs =>
    exact sized_onStreams events before (computed_map fun a => onStreams_answer events before (s.setSilRun a.2) _ _)
  | spec xs =>
    exact sized_onStreams events before (computed_map fun a => onStreams_answer events before (s.setSpectral a.2) _ _)
  | agc xs =>
    exact sized_onStreams events before (computed_map fun a => onStreams_answer events before (s.setGain a.2) _ _)
  | prep xs =>
    exact sized_onStreams events before (computed_map fun a => onStreams_answer events before (s.setChain a.2) _ _)
  | fftf xs => exact sized_onStreams events before (computed_map fun a => onStreams_answer events before s _ _)
  | ffti bins => exact sized_onStreams events before (computed_map fun a => onStreams_answer events before s _ _)

/-- The state with no response given. -/
def State.unanswered (s : State) : State := { s with output := [] }

/-- A state is what it is without its responses, put on its own streams. -/
theorem onStreams_self (s : State) : s.unanswered.onStreams s.input s.output = s := by
  simp [State.onStreams, State.unanswered]

/-- So is every state that differs from it in the streams only. -/
theorem onStreams_of_sameMachine {s s' : State} (h : sameMachine s s') :
    s.unanswered.onStreams s'.input s'.output = s' := by
  obtain ⟨hcfg, hctrl, hstatus, hsize, hcursor, hacc, hchain⟩ := h
  cases s'
  simp_all [State.onStreams, State.unanswered]

end Sys2Proof.Machine
end

/-! ### The obligation on the streams -/

section
open Sys2Proof Sys2Proof.Machine

/-- Settles O50: both states are one state on two pairs of streams, and `exec_onStreams` carries its one
step to both. -/
theorem commandsDoNotSeeTheStreams : Obligations.CommandsDoNotSeeTheStreams := by
  unfold Obligations.CommandsDoNotSeeTheStreams
  intro s s' i hsame
  have hexec := exec_onStreams s.input s.output i s.unanswered
  have hexec' := exec_onStreams s'.input s'.output i s.unanswered
  rw [onStreams_self] at hexec
  rw [onStreams_of_sameMachine hsame] at hexec'
  refine ⟨fun r => by rw [hexec, hexec', mapNext_refused, mapNext_refused], fun t ht => ?_⟩
  obtain ⟨u, hu, rfl⟩ := mapNext_next.mp (hexec ▸ ht)
  exact ⟨_, u.output, hexec'.trans (mapNext_next.mpr ⟨u, hu, rfl⟩), ⟨rfl, rfl, rfl, rfl, rfl, rfl, rfl⟩,
    rfl, rfl, rfl, rfl⟩

end

/-! ### Reset (spec/10_state.md R50, R51) -/

section
namespace Sys2Proof.Machine

/-- The chain after RESET and after a valid INIT meets its invariants. -/
theorem chainReset_legal {c : Cfg} : ChainState.reset.legal c = true := by
  have hfilter : FilterState.reset.finite = true := by decide
  have hgain : F32.isFinite ChainState.reset.gain = true := by decide
  simp only [ChainState.legal, hgain]
  simp [ChainState.reset, hfilter, SpectralState.legal, SpectralState.reset, Memory.legal, Memory.wf,
    Memory.wfFrom, Memory.within]

theorem empty_memory_legal (size : Nat) : Memory.legal size [] = true := rfl

theorem resetFor_frameSize (c : Cfg) : (State.resetFor c).frameSize.toNat = min 480 c.fftN := by
  simp only [State.resetFor, BitVec.toNat_ofNat]
  omega

theorem resetFor_legal {c : Cfg} (hc : c.valid = true) : Legal (State.resetFor c) := by
  obtain ⟨h4, hmax, -, -, -⟩ := valid_facts hc
  have hsize := resetFor_frameSize c
  have hcursor : (State.resetFor c).cursor.toNat = 0 := rfl
  have hpos : 1 ≤ min 480 c.fftN := by omega
  exact {
    cfg := hc
    ctrl := (by decide : 0x0002#16 &&& 0xFFFC#16 = 0#16)
    status := (by decide : 0x0000#16 &&& 0xFFF0#16 = 0#16)
    framePos := hsize ▸ hpos
    frameLe := hsize ▸ Nat.min_le_right 480 c.fftN
    cursor := by omega
    acc := empty_memory_legal _
    chain := chainReset_legal }

end Sys2Proof.Machine
end

/-! ### The obligations on reset -/

section
open Sys2Proof Sys2Proof.Machine

/-- Settles O46: the invariant holds after a reset of every legal configuration, and `build_valid` says
that State.reset's is one. -/
theorem resetMeetsTheInvariant : Obligations.ResetMeetsTheInvariant := by
  unfold Obligations.ResetMeetsTheInvariant
  exact resetFor_legal build_valid

/-- Settles O11: State.reset is `State.resetFor`, and so is a state after a RESET event but for its
streams; an incomplete command's words before the event go with it (`step_reset`). -/
theorem resetSetsEveryValue : Obligations.ResetSetsEveryValue := by
  unfold Obligations.ResetSetsEveryValue
  intro atReset
  have hreset (c : Cfg) (events : List HostEvent) (words : List Word) :
      atReset { State.resetFor c with input := events, output := words } :=
    ⟨rfl, rfl, resetFor_frameSize c, rfl, rfl, rfl, rfl, rfl, rfl, rfl, rfl, fun _ => ⟨rfl, rfl, rfl⟩⟩
  refine ⟨hreset Cfg.build [] [], fun s ws rest hd hin => ?_⟩
  have hwords : leadingWords s.input = ws := by
    rw [hin, leadingWords_append, leadingWords_reset, List.append_nil]
  have hafter : afterReset s.input = some rest := by rw [hin, afterReset_words]; rfl
  exact ⟨s.hardReset rest, step_reset (hwords.symm ▸ hd) hafter, hreset s.cfg rest s.output, rfl, rfl, rfl⟩

end

/-! ### The answers of the commands, spelled out (spec/30_encoding.md R86) -/

section
namespace Sys2Proof.Machine

theorem answered_single (u : State) (ws : List Word) (o : Opcode) :
    u.answered [ws] o = { u with output := u.output ++ dataPacket ws ++ [doneWord 0#4 o.bits] } := by
  simp [State.answered, State.emit]

theorem dataPacket_one (v : Word) : dataPacket [v] = [0xD0000001#32, v] := by
  have hhead : dataHeader 1 = 0xD0000001#32 := by decide
  rw [dataPacket, List.length_singleton, hhead]

theorem dataPacket_two (v w : Word) : dataPacket [v, w] = [0xD0000002#32, v, w] := by
  have hhead : dataHeader 2 = 0xD0000002#32 := by decide
  rw [dataPacket, List.length_cons, List.length_singleton, hhead]

/-- The DATA packet that HPF answers, none for no samples (R122). -/
theorem answered_ifAny (u : State) (ys : List Word) (o : Opcode) :
    u.answered (if ys.isEmpty then [] else [ys]) o =
      { u with output := u.output ++ packetIfAny ys ++ [doneWord 0#4 o.bits] } := by
  cases ys with
  | nil => simp [State.answered, State.emit, packetIfAny]
  | cons y ys => simp [State.answered, State.emit, packetIfAny]

/-- E_SIZE of the commands of fixed length (R94, R241), spelled out. -/
theorem sized_of_ne {n want : Nat} (h : n ≠ want) (o : Opcode) (s : State) (body : Except Stop State) :
    sized n want o s body = .next { s with
      status := s.status ||| 0x0004#16, output := s.output ++ [doneWord ErrCode.size.code o.bits] } :=
  sized_next.mpr (.inr ⟨h, rfl⟩)

/-- R132's saturating counter, as a number. -/
theorem saturatingSucc_eq (v : BitVec 32) :
    saturatingSucc v = BitVec.ofNat 32 (min (v.toNat + 1) (2 ^ 32 - 1)) := by
  apply BitVec.eq_of_toNat_eq
  rw [saturatingSucc_toNat, BitVec.toNat_ofNat]
  omega

/-- The registers of the table, one equation each (R22, R196). -/
theorem readReg_table (s : State) {reg : BitVec 8} {v : Word}
    (h : (reg, v) ∈ [(0x00#8, s.ctrl.zeroExtend 32), (0x01#8, s.statusReg.zeroExtend 32),
      (0x02#8, s.frameSize.zeroExtend 32), (0x03#8, s.cursor.zeroExtend 32), (0x04#8, s.chain.silRun),
      (0x05#8, s.chain.spectral.updCnt), (0x06#8, s.chain.gain), (0x07#8, s.chain.filter.x1),
      (0x08#8, s.chain.filter.x2), (0x09#8, s.chain.filter.y1), (0x0A#8, s.chain.filter.y2),
      (0x0B#8, BitVec.ofNat 32 s.cfg.fftN)]) : s.readReg reg = some v := by
  simp only [List.mem_cons, List.not_mem_nil, or_false, Prod.mk.injEq] at h
  rcases h with ⟨rfl, rfl⟩ | ⟨rfl, rfl⟩ | ⟨rfl, rfl⟩ | ⟨rfl, rfl⟩ | ⟨rfl, rfl⟩ | ⟨rfl, rfl⟩ | ⟨rfl, rfl⟩ |
    ⟨rfl, rfl⟩ | ⟨rfl, rfl⟩ | ⟨rfl, rfl⟩ | ⟨rfl, rfl⟩ | ⟨rfl, rfl⟩ <;> rfl

/-- The register STATUS, with SPEC_STATE by the count (R24, R148). -/
theorem statusReg_eq (s : State) :
    s.statusReg = s.status ||| ((if s.chain.spectral.updCnt.toNat = 0 then 0#16
      else if s.chain.spectral.updCnt.toNat < s.cfg.updMax then 1#16 else 2#16) <<< 8) := by
  simp only [State.statusReg, engineState]
  split_ifs <;> rfl

end Sys2Proof.Machine
end

/-! ### The obligations on RD, VAD, FFTF, FFTI, SPEC and PREP -/

section
open Sys2Proof Sys2Proof.Machine

/-- Settles O15: `readReg_table` for the twelve registers, E_REG (`exec_of_error`) for the others. -/
theorem rdAnswersTheRegister : Obligations.RdAnswersTheRegister := by
  unfold Obligations.RdAnswersTheRegister
  intro imm s specState
  refine ⟨fun reg v hmem => ?_, fun reg hreg => ?_⟩
  · rw [← statusReg_eq] at hmem
    rw [exec_of_performs (.rd (readReg_table s hmem)), answered_single, List.append_assoc, dataPacket_one]
    simp only [Instr.opcode]
    rfl
  · have herr : errorOf s (.rd reg imm) = some .reg := if_pos hreg
    rw [exec_of_error herr]
    simp only [Instr.opcode]
    rfl

/-- Settles O24: VAD performs on a frame; the counter is R132's saturating successor. -/
theorem vadClassifiesTheFrame : Obligations.VadClassifiesTheFrame := by
  unfold Obligations.VadClassifiesTheFrame
  refine fun s xs => ⟨fun hne => sized_of_ne hne .vad s _, ?_⟩
  intro hlen hfin r z hr hz speech run
  have hcomp : vadFrame s.cfg.num s.cfg.vad s.chain.silRun xs = some (speech, run) :=
    vadFrame_some.mpr ⟨r, z, hr, hz, rfl, by rw [saturatingSucc_eq]⟩
  rw [exec_of_performs (.vad hlen hfin hcomp), answered_single, List.append_assoc, dataPacket_two]
  simp only [Instr.opcode]
  rfl

/-- Settles O27: FFTF performs; the forward transform of the machine is `fftInPlace` by definition. -/
theorem fftfAnswersTheSpectrum : Obligations.FftfAnswersTheSpectrum := by
  unfold Obligations.FftfAnswersTheSpectrum
  refine fun s xs => ⟨fun hne => sized_of_ne hne .fftf s _, fun hlen hfin y hy => ?_⟩
  rw [exec_of_performs (.fftf hlen hfin hy), answered_single]
  simp only [Instr.opcode]
  rfl

/-- Settles O28: FFTI performs; the inverse transform of the machine is `ifftInPlace` with `N` from `fromNat`. -/
theorem fftiAnswersTheSignal : Obligations.FftiAnswersTheSignal := by
  unfold Obligations.FftiAnswersTheSignal
  refine fun s bins => ⟨fun hne => sized_of_ne hne .ffti s _, fun hlen hfin n y hn hy => ?_⟩
  have hcomp : inverse s.cfg.num s.cfg bins = some y := Option.bind_eq_some_iff.mpr ⟨n, hn, hy⟩
  rw [exec_of_performs (.ffti hlen hfin hcomp), answered_single]
  simp only [Instr.opcode]
  rfl

/-- Settles O32: SPEC performs; where both gates are closed the engine's step is the identity. -/
theorem specRunsTheEngine : Obligations.SpecRunsTheEngine := by
  unfold Obligations.SpecRunsTheEngine
  intro s xs
  have hperform (hlen : xs.length = s.frameSize.toNat) (hfin : allFinite xs = true) (g : List Word)
      (e : SpectralState)
      (hcomp : specFrame s.cfg.num s.cfg s.subEn s.chain.silRun s.chain.spectral xs = some (g, e)) :
      exec (.spec xs) s = .next { s with
        chain := { s.chain with spectral := e }
        output := s.output ++ dataPacket g ++ [0xE0230000#32] } := by
    rw [exec_of_performs (.spec hlen hfin hcomp), answered_single]
    simp only [Instr.opcode]
    rfl
  refine ⟨fun hne => sized_of_ne hne .spec s _, hperform, fun hlen hfin hupd hsub => ?_⟩
  have hclosed : (updates s.cfg s.chain.silRun s.chain.spectral.updCnt ||
      subtracts s.cfg s.subEn s.chain.spectral.updCnt) = false :=
    Bool.or_eq_false_iff.mpr ⟨Bool.eq_false_iff.mpr (mt updates_true.mp hupd),
      Bool.eq_false_iff.mpr (mt subtracts_true.mp hsub)⟩
  exact hperform hlen hfin xs s.chain.spectral (by simp [specFrame, hclosed])

/-- Settles O44: PREP performs, and the chain is its five stages in order (`preprocess_some`). -/
theorem prepRunsTheStagesInOrder : Obligations.PrepRunsTheStagesInOrder := by
  unfold Obligations.PrepRunsTheStagesInOrder
  refine fun s xs => ⟨fun hne => sized_of_ne hne .prep s _, ?_⟩
  intro hlen hfin h g d o filter speech run e gain hfilter hvad hfade hspec hagc
  have hcomp : preprocess s.cfg.num s.cfg s.subEn s.chain xs = some (o, ⟨filter, run, e, gain⟩) :=
    preprocess_some.mpr ⟨h, filter, speech, run, g, d, e, gain, hfilter, hvad, hfade, hspec, hagc, rfl⟩
  rw [exec_of_performs (.prep hlen hfin hcomp), answered_single]
  simp only [Instr.opcode]
  rfl

end

/-! ### The filter over many samples (spec/41_biquad.md R121, R122) -/

section
namespace Sys2Proof.Machine

/-- Sample by sample: where `hpfStep` answers on each, the filter answers on the frame. -/
theorem hpfFrame_of_steps {α : Type} {ar : Arith α} {c : Coeffs α} {xs : List α} {d : α} {y : Nat → α}
    {h : Nat → FilterState α}
    (hstep : ∀ j, j < xs.length → hpfStep ar c (h j) (xs.getD j d) = some (y j, h (j + 1))) :
    hpfFrame ar c (h 0) xs = some ((List.range xs.length).map y, h xs.length) := by
  induction xs generalizing y h with
  | nil => rfl
  | cons x xs ih =>
    have hhead : hpfStep ar c (h 0) x = some (y 0, h 1) := hstep 0 (Nat.succ_pos _)
    have htail := ih (y := y ∘ Nat.succ) (h := h ∘ Nat.succ) fun j hj => hstep (j + 1) (Nat.succ_lt_succ hj)
    refine hpfFrame_cons.mpr ⟨_, _, _, hhead, htail, ?_⟩
    rw [List.length_cons, List.range_succ_eq_map, List.map_cons, List.map_map]

/-- The filter on a signal in two parts: the second starts on the history that the first left. -/
theorem hpfFrame_append {α : Type} {ar : Arith α} {c : Coeffs α} {h h1 h2 : FilterState α} {xs ys p q : List α}
    (hx : hpfFrame ar c h xs = some (p, h1)) (hy : hpfFrame ar c h1 ys = some (q, h2)) :
    hpfFrame ar c h (xs ++ ys) = some (p ++ q, h2) := by
  induction xs generalizing h p with
  | nil =>
    cases hx
    exact hy
  | cons x xs ih =>
    obtain ⟨y, hist, zs, hstep, hrest, rfl⟩ := hpfFrame_cons.mp hx
    exact hpfFrame_cons.mpr ⟨y, hist, zs ++ q, hstep, ih hrest, rfl⟩

/-- The answer of HPF (R122), spelled out. -/
theorem answered_hpf (s : State) (h : FilterState Word) (ys : List Word) :
    (s.setFilter h).answered (if ys.isEmpty then [] else [ys]) .hpf = { s with
      chain := { s.chain with filter := h }
      output := s.output ++ packetIfAny ys ++ [0xE0210000#32] } := by
  rw [answered_ifAny]
  rfl

/-- HPF is no error on any payload: where it answers, the payload is finite and the filter answered. -/
theorem exec_hpf_next {s t : State} {xs : List Word} :
    exec (.hpf xs) s = .next t ↔ allFinite xs = true ∧ ∃ ys h,
      hpfFrame s.cfg.num.toArith s.cfg.biquad s.chain.filter xs = some (ys, h) ∧
      t = { s with
        chain := { s.chain with filter := h }
        output := s.output ++ packetIfAny ys ++ [0xE0210000#32] } := by
  constructor
  · intro h
    rcases exec_next_cases h with ⟨e, herr, -⟩ | ⟨-, u, packets, hp, rfl⟩
    · cases herr
    · cases hp with
      | hpf hfin hcomp => exact ⟨hfin, _, _, hcomp, answered_hpf _ _ _⟩
  · rintro ⟨hfin, ys, h, hcomp, rfl⟩
    exact (exec_of_performs (.hpf hfin hcomp)).trans (congrArg _ (answered_hpf _ _ _))

/-- The output of one filter step in exact arithmetic. -/
def hpfOutput {K : Type} [Field K] (c : Coeffs K) (h : FilterState K) (x : K) : K :=
  c.b0 * x + c.b1 * h.x1 + c.b2 * h.x2 - c.a1 * h.y1 - c.a2 * h.y2

theorem hpfStep_exact {K : Type} [Field K] (c : Coeffs K) (h : FilterState K) (x : K) :
    hpfStep (Arith.exact K) c h x = some (hpfOutput c h x, ⟨x, h.x1, hpfOutput c h x, h.y1⟩) := rfl

/-- The combination `a*h + b*k` of two histories. -/
def FilterState.combine {K : Type} [Field K] (a b : K) (h k : FilterState K) : FilterState K :=
  ⟨a * h.x1 + b * k.x1, a * h.x2 + b * k.x2, a * h.y1 + b * k.y1, a * h.y2 + b * k.y2⟩

theorem hpfOutput_combine {K : Type} [Field K] (c : Coeffs K) (a b : K) (h k : FilterState K) (x z : K) :
    hpfOutput c (h.combine a b k) (a * x + b * z) = a * hpfOutput c h x + b * hpfOutput c k z := by
  simp only [hpfOutput, FilterState.combine]
  ring

/-- The filter on the combination of two histories and two inputs, in exact arithmetic. -/
theorem hpfFrame_combine {K : Type} [Field K] (c : Coeffs K) (a b : K) (h k : FilterState K) (xs zs : List K)
    (hlen : xs.length = zs.length) :
    ∃ (ys ws : List K) (h' k' : FilterState K),
      hpfFrame (Arith.exact K) c h xs = some (ys, h') ∧ hpfFrame (Arith.exact K) c k zs = some (ws, k') ∧
      hpfFrame (Arith.exact K) c (h.combine a b k) (List.zipWith (fun x z => a * x + b * z) xs zs)
        = some (List.zipWith (fun y w => a * y + b * w) ys ws, h'.combine a b k') := by
  induction xs generalizing h k zs with
  | nil =>
    obtain rfl := List.length_eq_zero_iff.mp hlen.symm
    exact ⟨[], [], h, k, rfl, rfl, rfl⟩
  | cons x xs ih =>
    obtain ⟨z, zs, rfl⟩ := List.exists_cons_of_length_eq_add_one hlen.symm
    obtain ⟨ys, ws, h', k', hy, hw, hc⟩ := ih ⟨x, h.x1, hpfOutput c h x, h.y1⟩ ⟨z, k.x1, hpfOutput c k z, k.y1⟩ zs
      (by simpa using hlen)
    refine ⟨_, _, h', k', hpfFrame_cons.mpr ⟨_, _, _, hpfStep_exact c h x, hy, rfl⟩,
      hpfFrame_cons.mpr ⟨_, _, _, hpfStep_exact c k z, hw, rfl⟩, ?_⟩
    have hstep := hpfStep_exact c (h.combine a b k) (a * x + b * z)
    rw [hpfOutput_combine] at hstep
    exact hpfFrame_cons.mpr ⟨_, _, _, hstep, hc, rfl⟩

end Sys2Proof.Machine
end

/-! ### The obligations on the filter -/

section
open Sys2Proof Sys2Proof.Machine

/-- Settles O19: one step of the filter is the nine named operations (`hpfStep_some`). -/
theorem hpfFiltersOneSample : Obligations.HpfFiltersOneSample := by
  unfold Obligations.HpfFiltersOneSample
  intro s x p0 p1 p2 q1 q2 t1 t2 t3 y hx h0 h1 h2 h3 h4 h5 h6 h7 h8
  have hstep : hpfStep s.cfg.num.toArith s.cfg.biquad s.chain.filter x =
      some (y, ⟨x, s.chain.filter.x1, y, s.chain.filter.y1⟩) :=
    hpfStep_some.mpr ⟨p0, p1, p2, q1, q2, t1, t2, t3, h0, h1, h2, h3, h4, h5, h6, h7, h8, rfl⟩
  have hframe := hpfFrame_cons.mpr ⟨y, _, [], hstep, hpfFrame_nil _ _ _, rfl⟩
  have hpacket : packetIfAny [y] = [0xD0000001#32, y] := dataPacket_one y
  refine exec_hpf_next.mpr ⟨by simpa [allFinite] using hx, _, _, hframe, ?_⟩
  rw [hpacket, List.append_assoc]
  rfl

/-- Settles O20: the steps compose to the frame (`hpfFrame_of_steps`). -/
theorem hpfFiltersSampleBySample : Obligations.HpfFiltersSampleBySample := by
  unfold Obligations.HpfFiltersSampleBySample
  intro s xs y h hfin h0 hstep
  have hframe := hpfFrame_of_steps hstep
  rw [h0] at hframe
  exact exec_hpf_next.mpr ⟨hfin, _, _, hframe, rfl⟩

/-- Settles O21: HPF leaves in the state the history that the filter left, so the two filter runs
compose (`hpfFrame_append`). -/
theorem hpfIsIndependentOfTheChunking : Obligations.HpfIsIndependentOfTheChunking := by
  unfold Obligations.HpfIsIndependentOfTheChunking
  intro s t u xs ys ht hu
  obtain ⟨hxfin, p, h1, hp, rfl⟩ := exec_hpf_next.mp ht
  obtain ⟨hyfin, q, h2, hq, rfl⟩ := exec_hpf_next.mp hu
  refine ⟨p, q, hpfFrame_length hp, hpfFrame_length hq, rfl, rfl, ?_⟩
  exact exec_hpf_next.mpr ⟨allFinite_append.mpr ⟨hxfin, hyfin⟩, _, _, hpfFrame_append hp hq, rfl⟩

/-- Settles O23: `hpfFrame_combine`. -/
theorem hpfIsLinearInExactArithmetic : Obligations.HpfIsLinearInExactArithmetic := by
  unfold Obligations.HpfIsLinearInExactArithmetic
  exact fun K _ c h k xs zs a b hlen => hpfFrame_combine c a b h k xs zs hlen

end

/-! ### The invariant, command by command (spec/10_state.md R22 to R28, R40 to R42) -/

section
namespace Sys2Proof.Machine

/-- The invariant speaks of the architectural state alone. -/
theorem legal_withStreams {s : State} (hs : Legal s) (events : List HostEvent) (words : List Word) :
    Legal { s with input := events, output := words } :=
  ⟨hs.cfg, hs.ctrl, hs.status, hs.framePos, hs.frameLe, hs.cursor, hs.acc, hs.chain⟩

theorem legal_emit {s : State} (hs : Legal s) (ws : List Word) : Legal (s.emit ws) :=
  legal_withStreams hs s.input (s.output ++ ws)

theorem legal_consume {s : State} (hs : Legal s) (rest : List Word) : Legal (s.consume rest) :=
  legal_withStreams hs (eventsLeft s.input rest) s.output

theorem legal_setChain {s : State} {ch : ChainState} (hs : Legal s) (hch : ch.legal s.cfg = true) :
    Legal (s.setChain ch) := { hs with chain := hch }

theorem legal_reinit {s : State} {n : BitVec 24} (hs : Legal s) (hn : ¬(n.toNat = 0 ∨ s.cfg.fftN < n.toNat)) :
    Legal (s.reinit n) := by
  rw [not_or, Nat.not_lt] at hn
  have hpos : 0 < n.toNat := Nat.pos_of_ne_zero hn.1
  exact { hs with
    framePos := hpos
    frameLe := hn.2
    cursor := hpos
    acc := empty_memory_legal _
    chain := chainReset_legal }

/-- An error sets a sticky bit, none of the reserved ones. -/
theorem legal_raise {s : State} (hs : Legal s) (e : ErrCode) (op : BitVec 8) : Legal (s.raise e op) := by
  have hsticky : e.sticky &&& 0xFFF0#16 = 0#16 := by cases e <;> decide
  have hstatus : (s.status ||| e.sticky) &&& 0xFFF0#16 = 0#16 := by
    rw [BitVec.and_comm, BitVec.and_or_distrib_left, BitVec.and_comm, hs.status, BitVec.and_comm, hsticky]
    rfl
  have hset : Legal { s with status := s.status ||| e.sticky } := { hs with status := hstatus }
  exact legal_emit hset _

theorem legal_writeReg {s u : State} {reg : BitVec 8} {imm : BitVec 16} (hs : Legal s)
    (h : s.writeReg reg imm = some u) : Legal u := by
  rcases writeReg_cases h with ⟨-, rfl⟩ | ⟨-, rfl⟩
  · refine { hs with ctrl := ?_ }
    have hmask : 0x0003#16 &&& 0xFFFC#16 = 0#16 := by decide
    rw [ctrlWritten, BitVec.and_assoc, hmask, BitVec.and_zero]
  · refine { hs with status := ?_ }
    rw [statusCleared, BitVec.and_assoc, BitVec.and_comm _ 0xFFF0#16, ← BitVec.and_assoc, hs.status, BitVec.zero_and]

/-! PUSH: one sample, then all. -/

theorem completeFrame_legal {s t : State} {f : List Word} (hs : Legal s) (hf : allFinite f = true)
    (hl : f.length ≤ s.cfg.fftN) (h : completeFrame s f = .ok t) : Legal t := by
  rcases completeFrame_ok.mp h with ⟨-, rfl⟩ | ⟨-, g, ch, hchain, rfl⟩
  · exact legal_emit hs _
  · exact legal_emit (legal_setChain hs (preprocess_legal (num_sound _) hs.cfg hchain hs.chain hf hl).1) _

theorem pushSample_legal {s t : State} {x : Word} (hs : Legal s) (hx : F32.isFinite x = true)
    (h : pushSample s x = .ok t) : Legal t := by
  have hacc : (s.acc.write s.cursor.toNat x).legal s.cfg.fftN = true :=
    write_legal hs.acc (Nat.lt_of_lt_of_le hs.cursor hs.frameLe) hx
  obtain ⟨-, ⟨hne, rfl⟩ | ⟨-, -, hframe⟩⟩ := pushSample_ok.mp h
  · refine { hs with acc := hacc, cursor := ?_ }
    have hlt := hs.cursor
    have hnat : (s.cursor + 1#24).toNat ≠ s.frameSize.toNat := mt BitVec.eq_of_toNat_eq hne
    change (s.cursor + 1#24).toNat < s.frameSize.toNat
    rw [BitVec.toNat_add, BitVec.toNat_ofNat] at hnat ⊢
    omega
  · have hstored : Legal { s with acc := s.acc.write s.cursor.toNat x, cursor := 0#24 } :=
      { hs with acc := hacc, cursor := hs.framePos }
    exact completeFrame_legal hstored (toList_finite hacc) (by rw [toList_length]; exact hs.frameLe) hframe

theorem pushSamples_legal {s t : State} {xs : List Word} (hs : Legal s) (hx : allFinite xs = true)
    (h : pushSamples s xs = .ok t) : Legal t := by
  induction xs generalizing s with
  | nil =>
    cases h
    exact hs
  | cons x xs ih =>
    obtain ⟨u, hhead, htail⟩ := pushSamples_cons.mp h
    simp only [allFinite, List.all_cons, Bool.and_eq_true] at hx
    exact ih (pushSample_legal hs hx.1 hhead) hx.2 htail

/-- The invariant is kept by what each command performs. -/
theorem performs_legal {s u : State} {i : Instr} {packets : List (List Word)} (hs : Legal s)
    (h : Performs s i u packets) : Legal u := by
  have hch := hs.chain
  simp only [ChainState.legal, Bool.and_eq_true] at hch
  obtain ⟨⟨hfilter, hspectral⟩, hgain⟩ := hch
  have hchain (ch : ChainState) (hf : ch.filter.finite = true) (he : ch.spectral.legal s.cfg = true)
      (hg : F32.isFinite ch.gain = true) : Legal (s.setChain ch) :=
    legal_setChain hs (by simp only [ChainState.legal, hf, he, hg, Bool.and_self])
  cases h with
  | nop => exact hs
  | init hsize => exact legal_reinit hs hsize
  | wr hreg => exact legal_writeReg hs hreg
  | rd hreg => exact hs
  | push hfin hpush hto =>
    have ht := pushSamples_legal hs hfin hpush
    rw [hto.state] at ht
    exact legal_withStreams ht s.input s.output
  | hpf hfin hcomp => exact hchain _ (hpfFrame_finite (num_sound _) hcomp hfin hfilter).2 hspectral hgain
  | vad hlen hfin hcomp => exact hchain _ hfilter hspectral hgain
  | spec hlen hfin hcomp =>
    exact hchain _ hfilter
      (specFrame_legal (num_sound _) hs.cfg hcomp hspectral hfin (hlen ▸ hs.frameLe)).1 hgain
  | agc hlen hfin hcomp => exact hchain _ hfilter hspectral (agcFrame_finite (num_sound _) hcomp).2
  | prep hlen hfin hcomp =>
    exact legal_setChain hs (preprocess_legal (num_sound _) hs.cfg hcomp hs.chain hfin (hlen ▸ hs.frameLe)).1
  | fftf hlen hfin hcomp => exact hs
  | ffti hlen hfin hcomp => exact hs

theorem exec_legal {s t : State} {i : Instr} (hs : Legal s) (h : exec i s = .next t) : Legal t := by
  rcases exec_next_cases h with ⟨e, -, rfl⟩ | ⟨-, u, packets, hp, rfl⟩
  · exact legal_raise hs e _
  · exact legal_emit (performs_legal hs hp) _

/-! No fault: an access outside ACC is PUSH's only one, and CURSOR stays below FRAME_SIZE. -/

theorem completeFrame_not_fault (s : State) (f : List Word) (r : Fault) :
    completeFrame s f ≠ .error (.fault r) := by
  simp only [completeFrame]
  split
  · cases preprocess s.cfg.num s.cfg s.subEn s.chain f <;> simp [numeric, bind, Except.bind, pure, Except.pure]
  · simp

theorem pushSamples_not_fault {s : State} {xs : List Word} (hs : Legal s) (hx : allFinite xs = true) (r : Fault) :
    pushSamples s xs ≠ .error (.fault r) := by
  induction xs generalizing s with
  | nil => simp
  | cons x xs ih =>
    simp only [allFinite, List.all_cons, Bool.and_eq_true] at hx
    intro hfault
    rw [pushSamples, List.foldlM_cons, bind_error] at hfault
    rcases hfault with hhead | ⟨u, hhead, htail⟩
    · rw [pushSample_eq, if_pos (Nat.lt_of_lt_of_le hs.cursor hs.frameLe), if_pos hs.frameLe] at hhead
      split at hhead
      · exact completeFrame_not_fault _ _ r hhead
      · cases hhead
    · exact ih (pushSample_legal hs hx.1 hhead) hx.2 htail

theorem sized_not_fault {α : Type} {n want : Nat} {o : Opcode} {s : State} {xs : List Word} {comp : Option α}
    {k : α → State} (r : Fault) : sized n want o s (computed xs comp fun a => .ok (k a)) ≠ .fault r :=
  fun h => computed_not_fault (sized_fault.mp h).2

theorem exec_not_fault {s : State} (hs : Legal s) (i : Instr) (r : Fault) : exec i s ≠ .fault r := by
  cases i with
  | nop arg => exact nofun
  | init n =>
    change execInit n s ≠ _
    rw [execInit]
    split <;> simp
  | wr reg imm =>
    change execWr reg imm s ≠ _
    rw [execWr]
    split <;> simp
  | rd reg imm =>
    change execRd reg imm s ≠ _
    rw [execRd]
    split <;> simp
  | push xs =>
    rw [exec_push, ne_eq, finish_fault, bind_error]
    rintro (hfin | ⟨_, hfin, h⟩)
    · cases (requireFinite_error hfin).2
    · rcases bind_error.mp h with hpush | ⟨t, -, hdone⟩
      · exact pushSamples_not_fault hs (requireFinite_ok.mp hfin) r hpush
      · cases hdone
  | hpf xs =>
    rw [exec_hpf, ne_eq, finish_fault]
    exact computed_not_fault
  | vad xs => exact sized_not_fault r
  | spec xs => exact sized_not_fault r
  | agc xs => exact sized_not_fault r
  | prep xs => exact sized_not_fault r
  | fftf xs => exact sized_not_fault r
  | ffti bins => exact sized_not_fault r

end Sys2Proof.Machine
end

/-! ### The obligations on the invariant -/

section
open Sys2Proof Sys2Proof.Machine

/-- Settles O47: the four kinds of step (`step_cases`): a command (`exec_legal`), a reserved opcode
(`legal_raise`), a RESET event (`resetFor_legal`), or none. -/
theorem everyStepKeepsTheInvariant : Obligations.EveryStepKeepsTheInvariant := by
  unfold Obligations.EveryStepKeepsTheInvariant
  intro s t hs h
  rcases step_cases s with ⟨i, rest, -, hstep⟩ | ⟨op, rest, -, hstep⟩ | ⟨rest, -, -, hstep⟩ | ⟨-, -, hstep⟩
  · exact exec_legal (legal_consume hs rest) (hstep ▸ h)
  · cases hstep.symm.trans h
    exact legal_raise (legal_consume hs rest) .op op
  · cases hstep.symm.trans h
    exact legal_withStreams (resetFor_legal hs.cfg) rest s.output
  · cases hstep.symm.trans h

/-- Settles O48: only a command could fault, and none does in a legal state (`exec_not_fault`). -/
theorem noStepFaults : Obligations.NoStepFaults := by
  unfold Obligations.NoStepFaults
  intro s hs r h
  rcases step_cases s with ⟨i, rest, -, hstep⟩ | ⟨op, rest, -, hstep⟩ | ⟨rest, -, -, hstep⟩ | ⟨-, -, hstep⟩
  · exact exec_not_fault (legal_consume hs rest) i r (hstep.symm.trans h)
  · cases hstep.symm.trans h
  · cases hstep.symm.trans h
  · cases hstep.symm.trans h

end

/-! ### The profile along a run (spec/43_spectral.md R148, R149) -/

section
namespace Sys2Proof.Machine

/-- What every engine step keeps of the profile, from `e` to `e'`: the count does not fall and stays at
most UPD_MAX, and from UPD_MAX on neither the count nor the profile changes. -/
def ProfileKept (updMax : Nat) (e e' : SpectralState) : Prop :=
  e.updCnt.toNat ≤ e'.updCnt.toNat ∧ e'.updCnt.toNat ≤ updMax ∧
    (e.updCnt.toNat = updMax → e'.updCnt = e.updCnt ∧ e'.prof = e.prof)

theorem profileKept_refl {updMax : Nat} {e : SpectralState} (h : e.updCnt.toNat ≤ updMax) :
    ProfileKept updMax e e := ⟨Nat.le_refl _, h, fun _ => ⟨rfl, rfl⟩⟩

theorem profileKept_trans {updMax : Nat} {e1 e2 e3 : SpectralState} (h12 : ProfileKept updMax e1 e2)
    (h23 : ProfileKept updMax e2 e3) : ProfileKept updMax e1 e3 := by
  refine ⟨h12.1.trans h23.1, h23.2.1, fun hfull => ?_⟩
  obtain ⟨hcnt, hprof⟩ := h12.2.2 hfull
  obtain ⟨hcnt', hprof'⟩ := h23.2.2 (hcnt ▸ hfull)
  exact ⟨hcnt'.trans hcnt, hprof'.trans hprof⟩

theorem specFrame_profileKept {num : Num} {c : Cfg} {sub : Bool} {run : BitVec 32} {e e' : SpectralState}
    {f g : List Word} (hmax : c.updMax < 2 ^ 32) (he : e.updCnt.toNat ≤ c.updMax)
    (h : specFrame num c sub run e f = some (g, e')) : ProfileKept c.updMax e e' := by
  rcases specFrame_updCnt h with ⟨hcnt, hprof⟩ | ⟨hlt, -, hcnt⟩
  · exact ⟨by rw [hcnt], by rw [hcnt]; exact he, fun _ => ⟨hcnt, hprof⟩⟩
  · have hnat : e'.updCnt.toNat = e.updCnt.toNat + 1 := by
      rw [hcnt, BitVec.toNat_add, BitVec.toNat_ofNat]
      omega
    exact ⟨by omega, by omega, fun hfull => absurd hlt (by omega)⟩

theorem preprocess_profileKept {num : Num} {c : Cfg} {sub : Bool} {ch ch' : ChainState} {f o : List Word}
    (hmax : c.updMax < 2 ^ 32) (he : ch.spectral.updCnt.toNat ≤ c.updMax)
    (h : preprocess num c sub ch f = some (o, ch')) : ProfileKept c.updMax ch.spectral ch'.spectral := by
  obtain ⟨y, flt, sp, run, g, d, e, gain, -, -, -, hspec, -, rfl⟩ := preprocess_some.mp h
  exact specFrame_profileKept hmax he hspec

theorem pushSample_profileKept {s t : State} {x : Word} (hmax : s.cfg.updMax < 2 ^ 32)
    (he : s.chain.spectral.updCnt.toNat ≤ s.cfg.updMax) (h : pushSample s x = .ok t) :
    ProfileKept s.cfg.updMax s.chain.spectral t.chain.spectral := by
  obtain ⟨-, ⟨-, rfl⟩ | ⟨-, -, hframe⟩⟩ := pushSample_ok.mp h
  · exact profileKept_refl he
  · rcases completeFrame_ok.mp hframe with ⟨-, rfl⟩ | ⟨-, g, ch, hchain, rfl⟩
    · exact profileKept_refl he
    · exact preprocess_profileKept hmax he hchain

theorem pushSamples_profileKept {s t : State} {xs : List Word} (hmax : s.cfg.updMax < 2 ^ 32)
    (he : s.chain.spectral.updCnt.toNat ≤ s.cfg.updMax) (h : pushSamples s xs = .ok t) :
    ProfileKept s.cfg.updMax s.chain.spectral t.chain.spectral := by
  induction xs generalizing s with
  | nil =>
    cases h
    exact profileKept_refl he
  | cons x xs ih =>
    obtain ⟨u, hhead, htail⟩ := pushSamples_cons.mp h
    have hfirst := pushSample_profileKept hmax he hhead
    obtain ⟨packets, hto⟩ := pushSample_pushedTo hhead
    have hcfg : u.cfg = s.cfg := by rw [hto.state]; rfl
    have hrest := ih (s := u) (hcfg ▸ hmax) (hcfg ▸ hfirst.2.1) htail
    exact profileKept_trans hfirst (hcfg ▸ hrest)

/-- Every command but a valid INIT keeps the profile. -/
theorem performs_profileKept {s u : State} {i : Instr} {packets : List (List Word)}
    (hmax : s.cfg.updMax < 2 ^ 32) (he : s.chain.spectral.updCnt.toNat ≤ s.cfg.updMax)
    (hinit : ∀ n, i = .init n → n.toNat = 0 ∨ s.cfg.fftN < n.toNat) (h : Performs s i u packets) :
    ProfileKept s.cfg.updMax s.chain.spectral u.chain.spectral := by
  cases h with
  | init hsize => exact absurd (hinit _ rfl) hsize
  | wr hreg => rcases writeReg_cases hreg with ⟨-, rfl⟩ | ⟨-, rfl⟩ <;> exact profileKept_refl he
  | @push xs t packets hfin hpush hto => exact pushSamples_profileKept (t := t) hmax he hpush
  | spec hlen hfin hcomp => exact specFrame_profileKept hmax he hcomp
  | prep hlen hfin hcomp => exact preprocess_profileKept hmax he hcomp
  | _ => exact profileKept_refl he

theorem exec_profileKept {s t : State} {i : Instr} (hmax : s.cfg.updMax < 2 ^ 32)
    (he : s.chain.spectral.updCnt.toNat ≤ s.cfg.updMax)
    (hinit : ∀ n, i = .init n → n.toNat = 0 ∨ s.cfg.fftN < n.toNat) (h : exec i s = .next t) :
    ProfileKept s.cfg.updMax s.chain.spectral t.chain.spectral ∧ t.cfg = s.cfg := by
  rcases exec_next_cases h with ⟨e, -, rfl⟩ | ⟨-, u, packets, hp, rfl⟩
  · exact ⟨profileKept_refl he, rfl⟩
  · exact ⟨performs_profileKept (u := u) hmax he hinit hp, performs_cfg (u := u) hp⟩

/-- A valid INIT and a RESET event are the two ways back to no profile. -/
theorem updCnt_of_reinitialises {s t : State} (hre : reinitialises s) (h : step s = .next t) :
    t.chain.spectral.updCnt = 0#32 := by
  rcases hre with ⟨n, rest, hd, hpos, hle⟩ | ⟨hd, hafter⟩
  · have hsize : ¬(n.toNat = 0 ∨ (s.consume rest).cfg.fftN < n.toNat) := by
      rw [consume_cfg]
      omega
    rw [step_command hd, exec_of_performs (.init hsize)] at h
    cases h
    rfl
  · obtain ⟨rest, hrest⟩ := Option.isSome_iff_exists.mp hafter
    rw [step_reset hd hrest] at h
    cases h
    rfl

end Sys2Proof.Machine
end

/-! ### The obligation on the profile -/

section
open Sys2Proof Sys2Proof.Machine

/-- Settles O39: a re-initialisation clears the count; every other step is a command that keeps the
profile (`exec_profileKept`) or the error of a reserved opcode. -/
theorem activeProfileIsFrozen : Obligations.ActiveProfileIsFrozen := by
  unfold Obligations.ActiveProfileIsFrozen
  intro s t hs h
  refine ⟨fun hre => updCnt_of_reinitialises hre h, fun hno => ?_⟩
  obtain ⟨-, -, -, -, hmax⟩ := valid_facts hs.cfg
  have he : s.chain.spectral.updCnt.toNat ≤ s.cfg.updMax := by
    have hch := hs.chain
    simp only [ChainState.legal, SpectralState.legal, Bool.and_eq_true, decide_eq_true_eq] at hch
    exact hch.1.2.1.1
  suffices hkept : ProfileKept s.cfg.updMax s.chain.spectral t.chain.spectral ∧ t.cfg = s.cfg by
    rw [hkept.2]
    exact hkept.1
  rcases step_cases s with ⟨i, rest, hd, hstep⟩ | ⟨op, rest, -, hstep⟩ | ⟨rest, hd, hafter, -⟩ | ⟨-, -, hstep⟩
  · refine exec_profileKept (s := s.consume rest) hmax he ?_ (hstep.symm.trans h)
    rintro n rfl
    by_contra hvalid
    rw [consume_cfg] at hvalid
    exact hno (.inl ⟨n, rest, hd, by omega, by omega⟩)
  · cases hstep.symm.trans h
    exact ⟨profileKept_refl he, rfl⟩
  · exact absurd (.inr ⟨hd, by rw [hafter]; rfl⟩) hno
  · cases hstep.symm.trans h

end

/-! ### Cutting samples into frames (spec/40_frame_assembler.md R110, R111) -/

section
namespace Sys2Proof.Machine

/-- The samples `l` in order, as whole frames of `L` samples and a shorter tail. -/
structure Framed (L : Nat) (l : List Word) (frames : List (List Word)) (tail : List Word) : Prop where
  join : frames.flatten ++ tail = l
  lengths : ∀ f ∈ frames, f.length = L
  short : tail.length < L

theorem framed_length {L : Nat} {l tail : List Word} {frames : List (List Word)} (h : Framed L l frames tail) :
    frames.length * L + tail.length = l.length := by
  have hflat : frames.flatten.length = frames.length * L := by
    rw [List.length_flatten, List.map_congr_left h.lengths, List.map_const', List.sum_replicate, smul_eq_mul]
  rw [← h.join, List.length_append, hflat]

theorem framed_count {L : Nat} {l tail : List Word} {frames : List (List Word)} (h : Framed L l frames tail) :
    frames.length = l.length / L ∧ tail.length = l.length % L := by
  have hpos : 0 < L := Nat.zero_lt_of_lt h.short
  rw [← framed_length h, Nat.mul_comm]
  constructor
  · rw [Nat.mul_add_div hpos, Nat.div_eq_of_lt h.short, Nat.add_zero]
  · rw [Nat.mul_add_mod, Nat.mod_eq_of_lt h.short]

theorem framed_of_short {L : Nat} {l tail : List Word} {frames : List (List Word)} (h : Framed L l frames tail)
    (hl : l.length < L) : frames = [] ∧ tail = l := by
  have hzero : frames.length = 0 := by rw [(framed_count h).1, Nat.div_eq_of_lt hl]
  obtain rfl := List.length_eq_zero_iff.mp hzero
  exact ⟨rfl, h.join⟩

/-- A whole frame at the front is the first of the frames. -/
theorem framed_cons {L : Nat} {f l tail : List Word} {frames : List (List Word)}
    (h : Framed L (f ++ l) frames tail) (hf : f.length = L) : ∃ fs, frames = f :: fs ∧ Framed L l fs tail := by
  cases frames with
  | nil =>
    have hlen := congrArg List.length h.join
    have hshort := h.short
    simp only [List.flatten_nil, List.nil_append, List.length_append] at hlen
    omega
  | cons g fs =>
    have hg : g.length = L := h.lengths g List.mem_cons_self
    have hjoin : g ++ (fs.flatten ++ tail) = f ++ l := by simpa using h.join
    obtain ⟨rfl, hrest⟩ := List.append_inj hjoin (hg.trans hf.symm)
    exact ⟨fs, rfl, hrest, fun k hk => h.lengths k (List.mem_cons_of_mem _ hk), h.short⟩

theorem framed_exists {L : Nat} (hpos : 0 < L) (l : List Word) : ∃ frames tail, Framed L l frames tail := by
  induction hn : l.length using Nat.strong_induction_on generalizing l with
  | _ n ih =>
    rcases Nat.lt_or_ge l.length L with hshort | hlong
    · exact ⟨[], l, rfl, by simp, hshort⟩
    · obtain ⟨frames, tail, h⟩ := ih (l.drop L).length (by rw [List.length_drop]; omega) (l.drop L) rfl
      refine ⟨l.take L :: frames, tail, ?_, ?_, h.short⟩
      · rw [List.flatten_cons, List.append_assoc, h.join, List.take_append_drop]
      · rintro f (_ | ⟨_, hf⟩)
        · exact List.length_take_of_le hlong
        · exact h.lengths f hf

/-! ACC as a ring of FRAME_SIZE elements. -/

/-- The samples `xs` stored one after the other from element `c` on, where the index returns to 0 at `L`. -/
def Memory.storeRing (L : Nat) : Memory → Nat → List Word → Memory
  | m, _, [] => m
  | m, c, x :: xs => Memory.storeRing L (m.write c x) ((c + 1) % L) xs

theorem toList_zero (m : Memory) : m.toList 0 = [] := rfl

/-- The element just written is the last of the elements up to it. -/
theorem toList_write_succ {m : Memory} (c : Nat) (x : Word) (hm : m.wf = true) :
    (m.write c x).toList (c + 1) = m.toList c ++ [x] := by
  have hbefore : (List.range c).map (m.write c x).read = (List.range c).map m.read :=
    List.map_congr_left fun i hi => read_write_other x (Nat.ne_of_lt (List.mem_range.mp hi))
  rw [Memory.toList, List.range_succ, List.map_append, hbefore, List.map_singleton, read_write_same c x hm]
  rfl

/-- An element that no sample is stored to stays. -/
theorem read_storeRing_other {L i : Nat} (xs : List Word) {m : Memory} {c : Nat} (hc : c < L)
    (hi : ∀ j, j < xs.length → (c + j) % L ≠ i) : (m.storeRing L c xs).read i = m.read i := by
  induction xs generalizing m c with
  | nil => rfl
  | cons x xs ih =>
    have hhead : i ≠ c := by
      have := hi 0 (Nat.succ_pos _)
      rw [Nat.add_zero, Nat.mod_eq_of_lt hc] at this
      exact this.symm
    rw [Memory.storeRing, ih (Nat.mod_lt _ (Nat.zero_lt_of_lt hc)), read_write_other x hhead]
    intro j hj
    rw [Nat.mod_add_mod, Nat.add_assoc, Nat.add_comm 1 j]
    exact hi (j + 1) (Nat.succ_lt_succ hj)

/-- One sample more, no frame complete: the samples to be framed are the same. -/
theorem framed_store {L c : Nat} {m : Memory} {x : Word} {xs tail : List Word} {frames : List (List Word)}
    (hm : m.wf = true) (h : Framed L (m.toList c ++ x :: xs) frames tail) :
    Framed L ((m.write c x).toList (c + 1) ++ xs) frames tail := by
  rw [toList_write_succ c x hm, List.append_assoc]
  exact h

/-- After the last sample ACC holds the tail. -/
theorem toList_storeRing {L : Nat} {xs tail : List Word} {m : Memory} {c : Nat} {frames : List (List Word)}
    (hm : m.wf = true) (hc : c < L) (h : Framed L (m.toList c ++ xs) frames tail) :
    (m.storeRing L c xs).toList tail.length = tail := by
  induction xs generalizing m c frames with
  | nil =>
    rw [List.append_nil] at h
    obtain ⟨-, rfl⟩ := framed_of_short h (by rw [toList_length]; exact hc)
    rw [toList_length]
    rfl
  | cons x xs ih =>
    have hstored := framed_store hm h
    have hm' := write_wf c x hm
    rw [Memory.storeRing]
    rcases Nat.lt_or_ge (c + 1) L with hlt | hge
    · rw [Nat.mod_eq_of_lt hlt]
      exact ih hm' hlt hstored
    · obtain rfl : L = c + 1 := by omega
      obtain ⟨fs, -, hrest⟩ := framed_cons hstored (toList_length _ _)
      rw [Nat.mod_self]
      exact ih hm' (Nat.succ_pos c) hrest

/-! PUSH as a whole: the frames are completed in order, and the stores are those of the ring. -/

/-- The state with other contents of ACC and another CURSOR. -/
def State.stored (s : State) (acc : Memory) (cursor : Nat) : State :=
  { s with acc := acc, cursor := BitVec.ofNat 24 cursor }

theorem completeFrame_stored (acc : Memory) (cursor : Nat) (s : State) (f : List Word) :
    completeFrame (s.stored acc cursor) f = (completeFrame s f).map (·.stored acc cursor) := by
  have hon : (s.stored acc cursor).chainEn = s.chainEn := rfl
  have hchain : preprocess (s.stored acc cursor).cfg.num (s.stored acc cursor).cfg
      (s.stored acc cursor).subEn (s.stored acc cursor).chain f =
      preprocess s.cfg.num s.cfg s.subEn s.chain f := rfl
  simp only [completeFrame, hon, hchain]
  split
  · cases preprocess s.cfg.num s.cfg s.subEn s.chain f <;> rfl
  · rfl

theorem completeFrames_stored (acc : Memory) (cursor : Nat) (s : State) (frames : List (List Word)) :
    frames.foldlM completeFrame (s.stored acc cursor) =
      (frames.foldlM completeFrame s).map (·.stored acc cursor) :=
  foldlM_map_comm (f := completeFrame) (g := (·.stored acc cursor)) (completeFrame_stored acc cursor) frames s

theorem except_map_map {α β γ : Type} (g : α → β) (h : β → γ) (e : Except Stop α) :
    (e.map g).map h = e.map (h ∘ g) := by
  cases e <;> rfl

theorem map_stored_stored (acc acc' : Memory) (c c' : Nat) (e : Except Stop State) :
    (e.map (·.stored acc c)).map (·.stored acc' c') = e.map (·.stored acc' c') := except_map_map _ _ e

/-- A completed frame leaves FRAME_SIZE and the configuration. -/
theorem completeFrame_keeps {s t : State} {f : List Word} (h : completeFrame s f = .ok t) :
    t.cfg = s.cfg ∧ t.frameSize = s.frameSize ∧ t.acc = s.acc ∧ t.cursor = s.cursor := by
  rcases completeFrame_ok.mp h with ⟨-, rfl⟩ | ⟨-, g, ch, -, rfl⟩ <;> exact ⟨rfl, rfl, rfl, rfl⟩

/-- PUSH, frame by frame: the samples in ACC and the payload are cut into frames, the frames are
completed in order, and ACC and CURSOR hold the tail. -/
theorem pushSamples_eq {s : State} {xs tail : List Word} {frames : List (List Word)} (hacc : s.acc.wf = true)
    (hcursor : s.cursor.toNat < s.frameSize.toNat) (hsize : s.frameSize.toNat ≤ s.cfg.fftN)
    (h : Framed s.frameSize.toNat (s.acc.toList s.cursor.toNat ++ xs) frames tail) :
    pushSamples s xs = (frames.foldlM completeFrame s).map
      (·.stored (s.acc.storeRing s.frameSize.toNat s.cursor.toNat xs) tail.length) := by
  induction xs generalizing s frames with
  | nil =>
    rw [List.append_nil] at h
    obtain ⟨rfl, rfl⟩ := framed_of_short h (by rw [toList_length]; exact hcursor)
    rw [toList_length]
    simp [State.stored, Memory.storeRing, pure, Except.pure, Except.map]
  | cons x xs ih =>
    have hframed := framed_store hacc h
    have hwf := write_wf s.cursor.toNat x hacc
    have hnext : (s.cursor + 1#24).toNat = s.cursor.toNat + 1 := by
      have := s.frameSize.isLt
      rw [BitVec.toNat_add, BitVec.toNat_ofNat]
      omega
    rw [pushSamples, List.foldlM_cons, pushSample_eq, if_pos (Nat.lt_of_lt_of_le hcursor hsize), if_pos hsize,
      Memory.storeRing]
    rcases Nat.lt_or_ge (s.cursor.toNat + 1) s.frameSize.toNat with hlt | hge
    · have hne : s.cursor + 1#24 ≠ s.frameSize := fun he => by rw [← he, hnext] at hlt; omega
      have hstored : ({ s with acc := s.acc.write s.cursor.toNat x, cursor := s.cursor + 1#24 } : State) =
          s.stored (s.acc.write s.cursor.toNat x) (s.cursor.toNat + 1) := by
        rw [State.stored, ← hnext, BitVec.ofNat_toNat, BitVec.setWidth_eq]
      have hcur : (s.stored (s.acc.write s.cursor.toNat x) (s.cursor.toNat + 1)).cursor.toNat
          = s.cursor.toNat + 1 := by rw [← hstored]; exact hnext
      have hrest := ih (s := s.stored (s.acc.write s.cursor.toNat x) (s.cursor.toNat + 1)) hwf
        (by rw [hcur]; exact hlt) hsize (by rw [hcur]; exact hframed)
      rw [if_neg hne, hstored, Nat.mod_eq_of_lt hlt]
      rw [hcur, completeFrames_stored, map_stored_stored] at hrest
      exact hrest
    · have heq : s.cursor.toNat + 1 = s.frameSize.toNat := by omega
      have hfull : s.cursor + 1#24 = s.frameSize := BitVec.eq_of_toNat_eq (hnext.trans heq)
      rw [heq] at hframed
      obtain ⟨fs, rfl, hrest⟩ := framed_cons hframed (toList_length _ _)
      rw [if_pos hfull, heq, Nat.mod_self]
      change (completeFrame (s.stored (s.acc.write s.cursor.toNat x) 0) _ >>= fun u => pushSamples u xs) = _
      rw [completeFrame_stored, List.foldlM_cons]
      cases hc : completeFrame s ((s.acc.write s.cursor.toNat x).toList s.frameSize.toNat) with
      | error e => rfl
      | ok u =>
        obtain ⟨hcfg, hsz, -, -⟩ := completeFrame_keeps hc
        have hu := ih (s := u.stored (s.acc.write s.cursor.toNat x) 0) (frames := fs) hwf
          (show 0 < u.frameSize.toNat by rw [hsz]; omega)
          (show u.frameSize.toNat ≤ u.cfg.fftN by rw [hsz, hcfg]; exact hsize)
          (show Framed u.frameSize.toNat _ fs tail by rw [hsz]; exact hrest)
        rw [completeFrames_stored, map_stored_stored] at hu
        have hring : (u.stored (s.acc.write s.cursor.toNat x) 0).frameSize = s.frameSize := hsz
        rw [hring] at hu
        exact hu

/-! The frames completed, raw or through the chain. -/

theorem completeFrames_raw {s : State} (hoff : s.chainEn = false) (frames : List (List Word)) :
    frames.foldlM completeFrame s = .ok (s.emit (frames.flatMap dataPacket)) := by
  induction frames generalizing s with
  | nil => simp [State.emit, pure, Except.pure]
  | cons f fs ih =>
    have hhead : completeFrame s f = .ok (s.emitData f) := completeFrame_ok.mpr (.inl ⟨hoff, rfl⟩)
    rw [List.foldlM_cons, hhead]
    refine (ih (s := s.emitData f) hoff).trans ?_
    rw [emitData_eq, emit_emit, List.flatMap_cons]

theorem chainFrames_cons {c : Cfg} {sub : Bool} {ch : ChainState} {f : List Word} {fs : List (List Word)} :
    chainFrames c sub ch (f :: fs) = (preprocess c.num c sub ch f).bind fun r =>
      (chainFrames c sub r.2 fs).map fun q => (r.1 :: q.1, q.2) := by
  simp only [chainFrames]
  cases preprocess c.num c sub ch f with
  | none => rfl
  | some r => cases hrest : chainFrames c sub r.2 fs <;> simp [hrest]

/-- The state after the chain has answered `outs` on completed frames. -/
def State.chained (s : State) (r : List (List Word) × ChainState) : State :=
  (s.setChain r.2).emit (r.1.flatMap dataPacket)

theorem completeFrames_chain {s : State} (hon : s.chainEn = true) (frames : List (List Word)) :
    frames.foldlM completeFrame s = (numeric (chainFrames s.cfg s.subEn s.chain frames)).map s.chained := by
  induction frames generalizing s with
  | nil => simp [State.chained, State.emit, State.setChain, chainFrames, pure, Except.pure, Except.map]
  | cons f fs ih =>
    rw [List.foldlM_cons, chainFrames_cons, completeFrame, if_pos hon]
    cases hf : preprocess s.cfg.num s.cfg s.subEn s.chain f with
    | none => rfl
    | some r =>
      have hrest := ih (s := (s.setChain r.2).emitData r.1) hon
      refine hrest.trans ?_
      change (numeric (chainFrames s.cfg s.subEn r.2 fs)).map _ =
        (numeric ((chainFrames s.cfg s.subEn r.2 fs).map _)).map _
      cases chainFrames s.cfg s.subEn r.2 fs with
      | none => rfl
      | some q => simp [Except.map, numeric, State.chained, State.emit, State.setChain]

/-! PUSH in a legal state. -/

theorem acc_wf_of_legal {s : State} (hs : Legal s) : s.acc.wf = true := by
  have hacc := hs.acc
  simp only [Memory.legal, Bool.and_eq_true] at hacc
  exact hacc.1.1

theorem exec_push_of_framed {s : State} {xs tail : List Word} {frames : List (List Word)} (hs : Legal s)
    (hx : allFinite xs = true)
    (h : Framed s.frameSize.toNat (s.acc.toList s.cursor.toNat ++ xs) frames tail) :
    exec (.push xs) s = finish ((frames.foldlM completeFrame s).map fun u =>
      (u.stored (s.acc.storeRing s.frameSize.toNat s.cursor.toNat xs) tail.length).done .push) := by
  rw [exec_push, requireFinite_pos hx, pushSamples_eq (acc_wf_of_legal hs) hs.cursor hs.frameLe h]
  cases frames.foldlM completeFrame s <;> rfl

theorem stored_cursor_toNat {s : State} (u : State) (acc : Memory) {tail : List Word}
    (h : tail.length < s.frameSize.toNat) : (u.stored acc tail.length).cursor.toNat = tail.length := by
  have := s.frameSize.isLt
  simp only [State.stored, BitVec.toNat_ofNat]
  omega

end Sys2Proof.Machine
end

/-! ### The obligations on the frame assembler -/

section
open Sys2Proof Sys2Proof.Machine

/-- Settles O16: cut into frames, PUSH completes them raw, one DATA packet each (`completeFrames_raw`);
the ring laws say what ACC holds then. -/
theorem pushRawLosesNoSample : Obligations.PushRawLosesNoSample := by
  unfold Obligations.PushRawLosesNoSample
  intro s xs hs hoff hx
  obtain ⟨frames, tail, h⟩ := framed_exists hs.framePos (s.acc.toList s.cursor.toNat ++ xs)
  have hexec := exec_push_of_framed hs hx h
  rw [completeFrames_raw hoff, Except.map, finish_ok] at hexec
  have hcur := stored_cursor_toNat (s.emit (frames.flatMap dataPacket))
    (s.acc.storeRing s.frameSize.toNat s.cursor.toNat xs) h.short
  have hring := toList_storeRing (acc_wf_of_legal hs) hs.cursor h
  obtain ⟨hframes, htail⟩ := framed_count h
  rw [List.length_append, toList_length] at hframes htail
  refine ⟨_, frames, hexec, h.lengths, hframes, hcur.trans htail, ?_,
    fun i hi => read_storeRing_other xs hs.cursor hi, rfl⟩
  rw [done_eq, emit_cursor, hcur, ← h.join]
  exact congrArg _ hring

/-- Settles O17: cut into the given frames, PUSH completes them through the chain
(`completeFrames_chain`). -/
theorem pushRunsTheChainPerFrame : Obligations.PushRunsTheChainPerFrame := by
  unfold Obligations.PushRunsTheChainPerFrame
  intro s xs tail frames outs ch hs hon hx hjoin hlengths hshort hchain
  have h : Framed s.frameSize.toNat (s.acc.toList s.cursor.toNat ++ xs) frames tail := ⟨hjoin, hlengths, hshort⟩
  have hexec := exec_push_of_framed hs hx h
  rw [completeFrames_chain hon, hchain, numeric_some, Except.map, Except.map, finish_ok] at hexec
  have hcur := stored_cursor_toNat (s.chained (outs, ch))
    (s.acc.storeRing s.frameSize.toNat s.cursor.toNat xs) hshort
  exact ⟨_, hexec, hcur, toList_storeRing (acc_wf_of_legal hs) hs.cursor h,
    fun i hi => read_storeRing_other xs hs.cursor hi, rfl⟩

end

/-! ### PUSH in two parts, PREP and PUSH of one frame -/

section
namespace Sys2Proof.Machine

theorem exec_push_next {s t : State} {xs : List Word} :
    exec (.push xs) s = .next t ↔ allFinite xs = true ∧ ∃ u, pushSamples s xs = .ok u ∧ t = u.done .push := by
  rw [exec_push, finish_next, bind_ok]
  simp only [bind_ok, requireFinite_ok, exists_const, Except.ok.injEq, eq_comm (a := t)]

/-- Words that stand in the response stream before PUSH stay there, and PUSH is the same after them. -/
theorem pushSamples_emit {s t : State} {ys ws : List Word} (h : pushSamples (s.emit ws) ys = .ok t) :
    ∃ (u : State) (q : List Word), pushSamples s ys = .ok u ∧ u.output = s.output ++ q ∧
      t = { u with output := s.output ++ ws ++ q } := by
  have hs := pushSamples_onStreams s.input s.output s.unanswered ys
  have hemit := pushSamples_onStreams s.input (s.output ++ ws) s.unanswered ys
  have hafter : s.unanswered.onStreams s.input (s.output ++ ws) = s.emit ws :=
    onStreams_of_sameMachine (s' := s.emit ws) ⟨rfl, rfl, rfl, rfl, rfl, rfl, rfl⟩
  rw [onStreams_self] at hs
  rw [hafter, h] at hemit
  cases hbare : pushSamples s.unanswered ys with
  | error e =>
    rw [hbare] at hemit
    cases hemit
  | ok v =>
    rw [hbare] at hs hemit
    cases hemit
    exact ⟨_, v.output, hs, rfl, rfl⟩

theorem pushSamples_output {s t : State} {xs : List Word} (h : pushSamples s xs = .ok t) :
    ∃ p, t.output = s.output ++ p := by
  obtain ⟨packets, hto⟩ := pushSamples_pushedTo h
  exact ⟨packets.flatMap dataPacket, by rw [hto.state]; rfl⟩

end Sys2Proof.Machine
end

/-! ### The obligations on two ways of sending the same samples -/

section
open Sys2Proof Sys2Proof.Machine

/-- Settles O18: the two folds over the payloads are one (`pushSamples_append`), and the first DONE word
only stands in the second's response stream (`pushSamples_emit`). -/
theorem pushIsIndependentOfTheChunking : Obligations.PushIsIndependentOfTheChunking := by
  unfold Obligations.PushIsIndependentOfTheChunking
  intro s t u xs ys ht hu
  obtain ⟨hx, t', hxs, rfl⟩ := exec_push_next.mp ht
  obtain ⟨hy, u', hys, rfl⟩ := exec_push_next.mp hu
  rw [done_eq] at hys
  obtain ⟨p, hp⟩ := pushSamples_output hxs
  obtain ⟨v, q, hv, hq, rfl⟩ := pushSamples_emit hys
  refine ⟨p, q, congrArg (· ++ _) hp, rfl, ?_⟩
  refine exec_push_next.mpr ⟨allFinite_append.mpr ⟨hx, hy⟩, v, pushSamples_append.mpr ⟨t', hxs, hv⟩, ?_⟩
  have hdone : v.done .push = { v with output := s.output ++ p ++ q ++ [0xE0200000#32] } := by
    rw [done_eq, State.emit, hq, hp]
    rfl
  rw [hdone]
  rfl

/-- Settles O45: with an empty ACC the payload of FRAME_SIZE samples is one frame and no tail, so PUSH
is the chain on it, as PREP is. -/
theorem prepEqualsPushOfOneFrame : Obligations.PrepEqualsPushOfOneFrame := by
  unfold Obligations.PrepEqualsPushOfOneFrame
  intro s t xs hs hon hcursor hlen ht
  rcases exec_next_cases ht with ⟨e, herr, -⟩ | ⟨-, u, packets, hp, rfl⟩
  · simp [errorOf, hlen] at herr
  · cases hp with
    | @prep _ o ch _ hx hchain =>
      have h : Framed s.frameSize.toNat (s.acc.toList s.cursor.toNat ++ xs) [xs] [] :=
        ⟨by simp [hcursor, toList_zero], by simpa using hlen, hs.framePos⟩
      have hexec := exec_push_of_framed hs hx h
      have hone : chainFrames s.cfg s.subEn s.chain [xs] = some ([o], ch) := by
        rw [chainFrames_cons, hchain]
        rfl
      rw [completeFrames_chain hon, hone, numeric_some, Except.map, Except.map, finish_ok] at hexec
      refine ⟨_, o, hexec, rfl, rfl, ?_, ?_⟩
      · rw [answered_single]
        simp only [Instr.opcode]
        rfl
      · simp only [State.stored, State.chained, List.flatMap_singleton]
        rfl

end

/-! ### Values outside the contract (spec/93_implementation_defined.md U1) -/

section
namespace Sys2Proof.Machine

theorem finish_computed_of_nonfinite {α : Type} {xs : List Word} (hx : allFinite xs = false) {comp : Option α}
    {k : α → Except Stop State} : finish (computed xs comp k) = .refused .nonFiniteSample := by
  rw [computed_of_nonfinite hx]
  rfl

theorem finish_computed_of_none {α : Type} {xs : List Word} (hx : allFinite xs = true) {comp : Option α}
    (hc : comp = none) {k : α → Except Stop State} : finish (computed xs comp k) = .refused .nonFiniteResult := by
  rw [hc, computed_of_none hx]
  rfl

theorem sized_computed_of_nonfinite {α : Type} {n want : Nat} {o : Opcode} {s : State} {xs : List Word}
    {comp : Option α} {k : α → Except Stop State} (hn : n = want) (hx : allFinite xs = false) :
    sized n want o s (computed xs comp k) = .refused .nonFiniteSample :=
  (if_pos hn).trans (finish_computed_of_nonfinite hx)

theorem sized_computed_of_none {α : Type} {n want : Nat} {o : Opcode} {s : State} {xs : List Word}
    {comp : Option α} {k : α → Except Stop State} (hn : n = want) (hx : allFinite xs = true) (hc : comp = none) :
    sized n want o s (computed xs comp k) = .refused .nonFiniteResult :=
  (if_pos hn).trans (finish_computed_of_none hx hc)

end Sys2Proof.Machine
end

/-! ### The obligation on values outside the contract -/

section
open Sys2Proof Sys2Proof.Machine

/-- Settles O56: the eight commands refuse by the shape they share (`computed`); PUSH refuses where the
chain on its frames does (`completeFrames_chain`). -/
theorem nonFiniteValuesAreRefused : Obligations.NonFiniteValuesAreRefused := by
  unfold Obligations.NonFiniteValuesAreRefused
  refine fun s xs => ⟨fun hx => ?_, fun hx => ?_⟩
  · refine ⟨?_, finish_computed_of_nonfinite hx, fun hlen => ?_, fun hlen => sized_computed_of_nonfinite hlen hx, ?_⟩
    · rw [exec_push, requireFinite, if_neg (by simp [hx])]
      rfl
    · exact ⟨sized_computed_of_nonfinite hlen hx, sized_computed_of_nonfinite hlen hx,
        sized_computed_of_nonfinite hlen hx, sized_computed_of_nonfinite hlen hx⟩
    · rintro bins rfl hlen
      exact sized_computed_of_nonfinite hlen hx
  · refine ⟨fun hc => finish_computed_of_none hx hc, fun hlen => ?_,
      fun hlen hc => sized_computed_of_none hlen hx hc, ?_, ?_⟩
    · exact ⟨fun hc => sized_computed_of_none hlen hx hc, fun hc => sized_computed_of_none hlen hx hc,
        fun hc => sized_computed_of_none hlen hx hc, fun hc => sized_computed_of_none hlen hx hc⟩
    · rintro bins rfl hlen hc
      exact sized_computed_of_none hlen hx hc
    · intro frames tail hs hon hjoin hlengths hshort hchain
      rw [exec_push_of_framed hs hx ⟨hjoin, hlengths, hshort⟩, completeFrames_chain hon, hchain]
      rfl

end

/-! ### The lengths of the transforms (spec/43_spectral.md R144) -/

section
namespace Sys2Proof.Machine

theorem butterfly_length {α : Type} {ar : Arith α} {w : α × α} {a b : Nat} {x y : List (α × α)}
    (h : butterfly ar w a b x = some y) : y.length = x.length := by
  simp only [butterfly, Option.bind_eq_bind, Option.bind_eq_some_iff, Option.some.injEq] at h
  obtain ⟨_, _, _, _, _, _, _, _, _, _, _, _, _, _, _, _, _, _, _, _, rfl⟩ := h
  rw [List.length_set, List.length_set]

theorem fftStage_length {α : Type} {ar : Arith α} {tw : Nat → α × α} {p s : Nat} {x y : List (α × α)}
    (h : fftStage ar tw p s x = some y) : y.length = x.length :=
  foldlM_some_keeps (P := fun z => z.length = x.length) h rfl fun _ _ _ hb hd =>
    foldlM_some_keeps (P := fun z => z.length = x.length) hd hb fun _ _ _ hc he => (butterfly_length he).trans hc

@[simp] theorem bitReverse_length {α : Type} (zero : α) (p : Nat) (x : List (α × α)) :
    (bitReverse zero p x).length = 2 ^ p := by
  simp [bitReverse]

theorem fftInPlace_length {α : Type} {ar : Arith α} {tw : Nat → α × α} {p : Nat} {x y : List (α × α)}
    (h : fftInPlace ar tw p x = some y) : y.length = 2 ^ p :=
  foldlM_some_keeps (P := fun z => z.length = 2 ^ p) h (bitReverse_length _ _ _)
    fun _ _ _ hb hd => (fftStage_length hd).trans hb

theorem ifftInPlace_length {α : Type} {ar : Arith α} {tw : Nat → α × α} {p : Nat} {n : α} {x y : List (α × α)}
    (h : ifftInPlace ar tw p n x = some y) : y.length = 2 ^ p := by
  simp only [ifftInPlace, Option.bind_eq_bind, Option.bind_eq_some_iff] at h
  obtain ⟨z, hz, hy⟩ := h
  rw [mapM_some_length hy, fftInPlace_length hz]

theorem forward_length {num : Num} {c : Cfg} {x y : List (Word × Word)} (hc : c.valid = true)
    (h : forward num c x = some y) : y.length = c.fftN := by
  obtain ⟨-, -, hpow, -, -⟩ := valid_facts hc
  exact (fftInPlace_length h).trans hpow

theorem inverse_length {num : Num} {c : Cfg} {x y : List (Word × Word)} (hc : c.valid = true)
    (h : inverse num c x = some y) : y.length = c.fftN := by
  obtain ⟨-, -, hpow, -, -⟩ := valid_facts hc
  simp only [inverse, Option.bind_eq_bind, Option.bind_eq_some_iff] at h
  obtain ⟨n, -, hy⟩ := h
  exact (ifftInPlace_length hy).trans hpow

end Sys2Proof.Machine
end

/-! ### The response of a command (spec/30_encoding.md R86, R87) -/

section
namespace Sys2Proof.Machine

/-- A packet that format DH can announce: not empty, and its length a 24-bit number. -/
def Announced (p : List Word) : Prop := 1 ≤ p.length ∧ p.length < 2 ^ 24

theorem announced_frame {s : State} (hs : Legal s) {p : List Word} (hp : p.length = s.frameSize.toNat) :
    Announced p := ⟨hp ▸ hs.framePos, hp ▸ s.frameSize.isLt⟩

/-- Every packet that a well-formed command answers in a legal state can be announced. -/
theorem performs_announced {s u : State} {i : Instr} {packets : List (List Word)} (hs : Legal s)
    (hw : i.wellFormed = true) (h : Performs s i u packets) : ∀ p ∈ packets, Announced p := by
  obtain ⟨h4, hmax, -, -, -⟩ := valid_facts hs.cfg
  cases h with
  | nop => simp
  | init hsize => simp
  | wr hreg => simp
  | rd hreg => simp [Announced]
  | push hfin hpush hto => exact fun p hp => announced_frame hs (hto.lengths p hp)
  | @hpf xs ys hist hfin hcomp =>
    have hlen := hpfFrame_length hcomp
    have hcount : xs.length < 2 ^ 24 := Laws.wellFormed_count hw
    cases ys with
    | nil => simp
    | cons y ys =>
      rw [← hlen] at hcount
      simpa [Announced] using hcount
  | vad hlen hfin hcomp => simp [Announced]
  | spec hlen hfin hcomp =>
    simpa using announced_frame hs ((specFrame_length hcomp (hlen ▸ hs.frameLe)).trans hlen)
  | agc hlen hfin hcomp => simpa using announced_frame hs ((agcFrame_length hcomp).trans hlen)
  | prep hlen hfin hcomp =>
    simpa using announced_frame hs ((preprocess_length hcomp (hlen ▸ hs.frameLe)).trans hlen)
  | fftf hlen hfin hcomp =>
    have hy := forward_length hs.cfg hcomp
    simp only [List.mem_singleton, forall_eq, Announced, flattenPairs_length]
    omega
  | ffti hlen hfin hcomp =>
    have hy := inverse_length hs.cfg hcomp
    simp only [List.mem_singleton, forall_eq, Announced, List.length_map]
    omega

/-! The host's parser (R86). -/

theorem dataHeader_toNat {len : Nat} (h : len < 2 ^ 24) : (dataHeader len).toNat = 0xD0000000 + len := by
  simp only [dataHeader, toNat_append_eq_add, BitVec.toNat_ofNat]
  omega

theorem dataHeader_eq_or {len : Nat} (h : len < 2 ^ 24) : dataHeader len = 0xD0000000#32 ||| BitVec.ofNat 32 len := by
  have hsum : 0xD0 <<< 24 + len = 0xD0 <<< 24 ||| len := Nat.shiftLeft_add_eq_or_of_lt h 0xD0
  have hlen : len % 2 ^ 32 = len := Nat.mod_eq_of_lt (by omega)
  apply BitVec.eq_of_toNat_eq
  rw [dataHeader_toNat h, BitVec.toNat_or, BitVec.toNat_ofNat, BitVec.toNat_ofNat, hlen]
  exact hsum

theorem dataHeader_kind {len : Nat} (h : len < 2 ^ 24) : (dataHeader len).extractLsb' 28 4 = 0xD#4 := by
  apply BitVec.eq_of_toNat_eq
  rw [BitVec.extractLsb'_toNat, dataHeader_toNat h, Nat.shiftRight_eq_div_pow, BitVec.toNat_ofNat]
  omega

theorem dataHeader_len {len : Nat} (h : len < 2 ^ 24) : ((dataHeader len).extractLsb' 0 24).toNat = len := by
  rw [BitVec.extractLsb'_toNat, dataHeader_toNat h, Nat.shiftRight_eq_div_pow]
  omega

theorem doneWord_kind (st : BitVec 4) (op : BitVec 8) : (doneWord st op).extractLsb' 28 4 = 0xE#4 := by
  apply BitVec.eq_of_toNat_eq
  simp only [doneWord, toNat_append_eq_add, BitVec.extractLsb'_toNat, Nat.shiftRight_eq_div_pow, BitVec.toNat_ofNat]
  omega

theorem length_le_flatMap_dataPacket (packets : List (List Word)) :
    packets.length ≤ (packets.flatMap dataPacket).length := by
  induction packets with
  | nil => simp
  | cons p ps ih =>
    rw [List.flatMap_cons, List.length_append, List.length_cons, dataPacket, List.length_cons]
    omega

/-- The parser finds the packets and the DONE word of a response that is made of them. -/
theorem parseResponse_answer {packets : List (List Word)} (hp : ∀ p ∈ packets, Announced p) (st : BitVec 4)
    (op : BitVec 8) {fuel : Nat} (hfuel : packets.length < fuel) (rest : List Word) :
    parseResponse fuel (packets.flatMap dataPacket ++ doneWord st op :: rest) =
      some (packets, doneWord st op, rest) := by
  induction packets generalizing fuel with
  | nil =>
    obtain ⟨fuel, rfl⟩ := Nat.exists_eq_succ_of_ne_zero (Nat.ne_of_gt hfuel)
    rw [List.flatMap_nil, List.nil_append, parseResponse, if_pos (doneWord_kind st op)]
  | cons p ps ih =>
    obtain ⟨fuel, rfl⟩ := Nat.exists_eq_succ_of_ne_zero (Nat.ne_zero_of_lt hfuel)
    have hlt : p.length < 2 ^ 24 := (hp p List.mem_cons_self).2
    have hrest := ih (fun q hq => hp q (List.mem_cons_of_mem _ hq)) (fuel := fuel) (by simpa using hfuel)
    have hne : ¬(0xD#4 = 0xE#4) := by decide
    rw [List.flatMap_cons, dataPacket, List.cons_append, List.cons_append, List.append_assoc, parseResponse,
      dataHeader_kind hlt, if_neg hne, if_pos rfl, dataHeader_len hlt, if_neg (by simp), List.drop_left,
      List.take_left, hrest]
    rfl

/-- The response of a well-formed command in a legal state: announced packets, none with an error, and the
DONE word with the status code and the echo of `op`. -/
theorem exec_response {s t : State} {i : Instr} (hs : Legal s) (hw : i.wellFormed = true)
    (h : exec i s = .next t) :
    ∃ packets, t.output = s.output ++ (packets.flatMap dataPacket ++
      [doneWord (doneCode (errorOf s i)) i.opcode.bits]) ∧ (∀ p ∈ packets, Announced p) ∧
      (errorOf s i ≠ none → packets = []) := by
  rcases exec_next_cases h with ⟨e, herr, rfl⟩ | ⟨herr, u, packets, hp, rfl⟩
  · exact ⟨[], by rw [herr]; rfl, by simp, fun _ => rfl⟩
  · refine ⟨packets, ?_, performs_announced hs hw hp, fun hne => absurd herr hne⟩
    rw [herr, answered_output, performs_output hp]
    rfl

/-- The parser's fuel in `hostCommand` is enough for every response. -/
theorem parseResponse_whole {packets : List (List Word)} (hp : ∀ p ∈ packets, Announced p) (st : BitVec 4)
    (op : BitVec 8) :
    parseResponse ((packets.flatMap dataPacket ++ [doneWord st op]).length + 1)
      (packets.flatMap dataPacket ++ [doneWord st op]) = some (packets, doneWord st op, []) := by
  refine parseResponse_answer hp st op ?_ []
  have := length_le_flatMap_dataPacket packets
  rw [List.length_append]
  omega

end Sys2Proof.Machine
end

/-! ### The obligation on responses -/

section
open Sys2Proof Sys2Proof.Machine

/-- Settles O49: the response is announced packets and DONE (`exec_response`), in which
`parseResponse_whole` finds exactly these. -/
theorem everyResponseIsWellFormed : Obligations.EveryResponseIsWellFormed := by
  unfold Obligations.EveryResponseIsWellFormed
  intro s t i hs hw h
  obtain ⟨packets, hout, hsizes, hnone⟩ := exec_response hs hw h
  refine ⟨packets, ?_⟩
  have hpackets : packets.flatMap (fun p => (0xD0000000#32 ||| BitVec.ofNat 32 p.length) :: p) =
      packets.flatMap dataPacket :=
    List.flatMap_congr fun p hp => by rw [dataPacket, dataHeader_eq_or (hsizes p hp).2]
  simp only [hpackets, ← doneWord_eq_or]
  exact ⟨hout, hsizes, hnone, parseResponse_whole hsizes _ _⟩

end

/-! ### The measures of a frame (spec/42_vad.md R131) -/

section
namespace Sys2Proof.Machine

/-- A fold that answers passes through a trace of values, one step per element. -/
theorem foldlM_some_iff_trace {α β : Type} {f : β → α → Option β} (d : α) {xs : List α} {b c : β} :
    xs.foldlM f b = some c ↔ ∃ v : Nat → β, v 0 = b ∧
      (∀ i, i < xs.length → f (v i) (xs.getD i d) = some (v (i + 1))) ∧ v xs.length = c := by
  induction xs generalizing b with
  | nil =>
    simp only [List.foldlM_nil, pure, Option.some.injEq]
    exact ⟨fun h => ⟨fun _ => b, rfl, by simp, h⟩, fun ⟨v, h0, _, hc⟩ => h0.symm.trans hc⟩
  | cons x xs ih =>
    rw [foldlM_some_cons]
    constructor
    · rintro ⟨m, hhead, htail⟩
      obtain ⟨v, h0, hstep, hc⟩ := ih.mp htail
      refine ⟨fun i => Nat.casesOn i b v, rfl, fun i hi => ?_, hc⟩
      cases i with
      | zero => exact hhead.trans (congrArg some h0.symm)
      | succ i => exact hstep i (Nat.lt_of_succ_lt_succ hi)
    · rintro ⟨v, rfl, hstep, hc⟩
      exact ⟨v 1, hstep 0 (Nat.succ_pos _),
        ih.mpr ⟨fun i => v (i + 1), rfl, fun i hi => hstep (i + 1) (Nat.succ_lt_succ hi), hc⟩⟩

theorem sumSquares_some {num : Num} {f : List Word} {total : Word} :
    sumSquares num f = some total ↔ ∃ sum : Nat → Word, sum 0 = num.zero ∧
      (∀ i, i < f.length → ∃ q, num.mul (f.getD i F32.posZero) (f.getD i F32.posZero) = some q ∧
        num.add (sum i) q = some (sum (i + 1))) ∧ sum f.length = total := by
  simp only [sumSquares, foldlM_some_iff_trace F32.posZero, Option.bind_eq_bind, Option.bind_eq_some_iff]

theorem crossingRate_some {num : Num} {f : List Word} {z : Word} :
    crossingRate num f = some z ↔ ∃ a n : Word, num.fromNat (crossings f) = some a ∧
      num.fromNat f.length = some n ∧ num.div a n = some z := by
  simp only [crossingRate, Option.bind_eq_bind, Option.bind_eq_some_iff]
  exact ⟨fun ⟨a, ha, n, hn, h⟩ => ⟨a, n, ha, hn, h⟩, fun ⟨a, n, ha, hn, h⟩ => ⟨a, ha, n, hn, h⟩⟩

/-- The crossings are the places where the sign test differs from the place before. -/
theorem crossings_eq_count (f : List Word) :
    crossings f = ((List.range (f.length - 1)).filter (fun i =>
      negative (f.getD (i + 1) F32.posZero) != negative (f.getD i F32.posZero))).length := by
  induction f using crossings.induct with
  | case1 a b rest ih =>
    have hshift : ((fun i => negative ((a :: b :: rest).getD (i + 1) F32.posZero) !=
        negative ((a :: b :: rest).getD i F32.posZero)) ∘ Nat.succ) =
        fun i => negative ((b :: rest).getD (i + 1) F32.posZero) != negative ((b :: rest).getD i F32.posZero) := by
      funext i
      simp
    have hlen : (a :: b :: rest).length - 1 = (b :: rest).length - 1 + 1 := rfl
    rw [crossings, ih, hlen, List.range_succ_eq_map, List.filter_cons, List.filter_map, hshift]
    have hzero : (negative ((a :: b :: rest).getD (0 + 1) F32.posZero) !=
        negative ((a :: b :: rest).getD 0 F32.posZero)) = (negative a != negative b) := bne_comm
    rw [hzero]
    split
    · simp only [List.length_cons, List.length_map]
      omega
    · simp only [List.length_map]
      omega
  | case2 f hshort =>
    match f, hshort with
    | [], _ => rfl
    | [_], _ => rfl
    | a :: b :: rest, hshort => exact absurd rfl (hshort a b rest)

end Sys2Proof.Machine
end

/-! ### The obligation on the measures -/

section
open Sys2Proof Sys2Proof.Machine

/-- Settles O25: the sum is the trace of its fold (`sumSquares_some`), the crossings are counted place by
place (`crossings_eq_count`), and the two quotients are binds. -/
theorem frameMeasures : Obligations.FrameMeasures := by
  unfold Obligations.FrameMeasures
  intro num f
  have hcount := crossings_eq_count f
  refine ⟨fun r => ?_, hcount, ?_, fun z => crossingRate_some⟩
  · rw [rms_some]
    constructor
    · rintro ⟨total, n, mean, hsum, hn, hmean, hr⟩
      obtain ⟨sum, h0, hstep, rfl⟩ := sumSquares_some.mp hsum
      exact ⟨sum, n, mean, h0, hstep, hn, hmean, hr⟩
    · rintro ⟨sum, n, mean, h0, hstep, hn, hmean, hr⟩
      exact ⟨_, n, mean, sumSquares_some.mpr ⟨sum, h0, hstep, rfl⟩, hn, hmean, hr⟩
  · rw [hcount]
    exact (List.length_filter_le _ _).trans_eq List.length_range

end

/-! ### The spectral engine's stages, bin by bin (spec/43_spectral.md R147, R151, R152) -/

section
namespace Sys2Proof.Machine

/-- One rebuilt bin (R151): the suppressed magnitude is computed in any case; a zero bin stays +0.0, any
other keeps its phase in the form of the configuration. -/
theorem rebuildBin_some {num : Num} {c : Cfg} {e r : Word × Word} {mag prof : Word}
    (h : rebuildBin num c e mag prof = some r) :
    ∃ m2, suppressed num c mag prof = some m2 ∧
      if F32.toInt mag = 0 then r = (F32.posZero, F32.posZero)
      else match c.spectrum with
        | .polar => ∃ ph cs sn : Word, num.atan2 e.2 e.1 = some ph ∧ num.cos ph = some cs ∧ num.sin ph = some sn ∧
            num.mul m2 cs = some r.1 ∧ num.mul m2 sn = some r.2
        | .scaling => ∃ q : Word, num.div m2 mag = some q ∧ num.mul e.1 q = some r.1 ∧ num.mul e.2 q = some r.2 := by
  have hzero : F32.eq mag F32.posZero = true ↔ F32.toInt mag = 0 := by
    rw [F32.eq, decide_eq_true_eq]
    rfl
  simp only [rebuildBin, Option.bind_eq_bind, Option.bind_eq_some_iff, hzero] at h
  obtain ⟨m2, hm2, h⟩ := h
  refine ⟨m2, hm2, ?_⟩
  split_ifs at h ⊢
  · exact (Option.some.inj h).symm
  · cases hform : c.spectrum with
    | polar =>
      simp only [hform, Option.bind_eq_some_iff, Option.some.injEq] at h
      obtain ⟨ph, hph, cs, hcs, re, hre, sn, hsn, im, him, rfl⟩ := h
      exact ⟨ph, cs, sn, hph, hcs, hsn, hre, him⟩
    | scaling =>
      simp only [hform, Option.bind_eq_some_iff, Option.some.injEq] at h
      obtain ⟨q, hq, re, hre, im, him, rfl⟩ := h
      exact ⟨q, hq, hre, him⟩

theorem getD_map_range {α : Type} {n k : Nat} (f : Nat → α) (d : α) (hk : k < n) :
    ((List.range n).map f).getD k d = f k := by
  rw [List.getD_eq_getElem _ _ (by simpa using hk), List.getElem_map, List.getElem_range]

end Sys2Proof.Machine
end

/-! ### The obligations on the spectral engine's stages -/

section
open Sys2Proof Sys2Proof.Machine

/-- Settles O33: the parts of `analyse_some`; a sample beyond the frame's end reads as +0.0. -/
theorem analysisWindowsPadsAndTransforms : Obligations.AnalysisWindowsPadsAndTransforms := by
  unfold Obligations.AnalysisWindowsPadsAndTransforms
  intro num c f x mag h
  obtain ⟨z, hz, hx, hlen, hmag⟩ := analyse_some h
  obtain ⟨hzlen, hbins⟩ := windowed_some hz
  refine ⟨⟨z, hzlen, hx, fun i hi => ?_⟩, hlen, fun k hk => ?_⟩
  · obtain ⟨hre, him⟩ := hbins i hi
    have hpad : (if i < f.length then f.getD i F32.posZero else 0x00000000#32) = f.getD i F32.posZero := by
      split
      · rfl
      · exact (List.getD_eq_default _ _ (by omega)).symm
    rw [hpad]
    exact ⟨him, hre⟩
  · exact magnitude_some.mp (hmag k (by omega))

/-- Settles O36: the bins up to the middle are rebuilt one by one (`rebuildBin_some`), the others mirror
them. -/
theorem subtractedSpectrumIsMirrored : Obligations.SubtractedSpectrumIsMirrored := by
  unfold Obligations.SubtractedSpectrumIsMirrored
  intro num c x y mag prof h
  obtain ⟨low, -, hlow, rfl⟩ := subtractSpectrum_some h
  refine ⟨by simp, fun k hk hkn => ?_, fun k hk hkn => ?_⟩
  · obtain ⟨m2, hm2, hbin⟩ := rebuildBin_some (hlow k (by omega))
    obtain ⟨os, diff, least, hos, hdiff, hleast, rfl⟩ := suppressed_some.mp hm2
    rw [getD_map_range _ _ hkn, if_pos hk]
    exact ⟨os, diff, least, hos, hdiff, hleast, hbin⟩
  · rw [getD_map_range _ _ hkn, getD_map_range _ _ (by omega), if_neg (by omega), if_pos (by omega)]

/-- Settles O37: the parts of `synthesise_some`; OVL written whole reads as the second half. -/
theorem synthesisOverlapsAndAdds : Obligations.SynthesisOverlapsAndAdds := by
  unfold Obligations.SynthesisOverlapsAndAdds
  intro num c x ovl ovl' out hc h
  have heven := valid_even hc
  obtain ⟨y, r, hy, hrlen, hlen, hwin, hout, rfl⟩ := synthesise_some h
  refine ⟨y, fun i => r.getD i F32.posZero, hy, hlen, hwin, fun i hi => ?_, fun i hi hin => ?_, fun i hi => ?_⟩
  · have := hout i (by omega)
    rwa [if_pos hi] at this
  · have := hout i hin
    rwa [if_neg (by omega)] at this
  · rw [read_ofList, List.getD_eq_getElem?_getD, List.getElem?_drop, ← List.getD_eq_getElem?_getD]
    rfl

end

/-! ### The ranges of the gain control (spec/44_agc.md R173) -/

section
namespace Sys2Proof.Machine

theorem clip_range (v : Word) : F32.le F32.negOne (clip v) = true ∧ F32.le (clip v) F32.one = true :=
  ⟨le_min (le_max_right v F32.negOne) (by decide), min_le_right _ _⟩

/-- R8: `AGC_MIN <= 1 <= AGC_MAX`. -/
theorem agc_min_le_max {p : AgcParams} (hp : p.valid = true) : F32.le p.min p.max = true := by
  simp only [AgcParams.valid, Bool.and_eq_true] at hp
  obtain ⟨⟨⟨⟨⟨⟨-, hmin⟩, -⟩, hmax⟩, -⟩, -⟩, -⟩ := hp
  simp only [F32.le, decide_eq_true_eq] at hmin hmax ⊢
  exact hmin.trans hmax

theorem clampedGain_range {num : Num} {p : AgcParams} {f : List Word} {cg : Word} (hp : p.valid = true)
    (h : clampedGain num p f = some cg) : F32.le p.min cg = true ∧ F32.le cg p.max = true := by
  obtain ⟨r, tg, -, -, rfl⟩ := clampedGain_some.mp h
  exact ⟨le_min (le_max_right tg p.min) (agc_min_le_max hp), min_le_right _ _⟩

end Sys2Proof.Machine
end

/-! ### The obligation on the ranges of the gain control -/

section
open Sys2Proof Sys2Proof.Machine

/-- Settles O41: the clamp and the clip are selections (`clampedGain_range`, `clip_range`). -/
theorem agcStaysInRange : Obligations.AgcStaysInRange := by
  unfold Obligations.AgcStaysInRange
  intro num p gain gain' f o hp h
  obtain ⟨cg, d, m, hcg, -, -, -, ho⟩ := agcFrame_some.mp h
  refine ⟨⟨cg, hcg, clampedGain_range hp hcg⟩, agcFrame_length h, mapM_some_all ho fun x v _ hv => ?_⟩
  obtain ⟨w, -, rfl⟩ := Option.map_eq_some_iff.mp hv
  exact clip_range w

end

/-! ### Playback (spec/47_environment.md R220, R221) -/

section
namespace Sys2Proof.Machine

/-- The output queue and its read cursor (R212): no frame is empty, the cursor lies inside the head frame,
and at 0 when there is none. -/
def QueueWf : List (List Word) → Nat → Prop
  | [], rcur => rcur = 0
  | f :: fs, rcur => rcur < f.length ∧ ∀ g ∈ fs, g ≠ []

theorem wellFormed_iff (e : Env) : e.wellFormed = true ↔ QueueWf e.ofq e.rcur := by
  rcases hq : e.ofq with _ | ⟨f, fs⟩
  · simp [Env.wellFormed, QueueWf, hq]
  · simp only [Env.wellFormed, QueueWf, hq, List.headD_cons, List.all_cons, Bool.and_eq_true, decide_eq_true_eq,
      Bool.not_eq_true', List.isEmpty_eq_false_iff, List.isEmpty_cons, Bool.false_or, List.all_eq_true]
    constructor
    · rintro ⟨⟨⟨-, hfs⟩, -⟩, hr⟩
      exact ⟨hr, hfs⟩
    · rintro ⟨hr, hfs⟩
      exact ⟨⟨⟨fun hf => by simp [hf] at hr, hfs⟩, Nat.le_of_lt hr⟩, hr⟩

theorem queueWf_tail {fs : List (List Word)} (h : ∀ g ∈ fs, g ≠ []) : QueueWf fs 0 := by
  cases fs with
  | nil => rfl
  | cons g gs => exact ⟨List.length_pos_of_ne_nil (h g List.mem_cons_self), fun k hk => h k (List.mem_cons_of_mem _ hk)⟩

/-- The loop of `fill` takes the samples due off the queue, in order. -/
theorem drain_eq {fs : List (List Word)} {rcur : Nat} (want : Nat) (h : QueueWf fs rcur) :
    (drain fs rcur want).1 = (fs.flatten.drop rcur).take want ∧
    (drain fs rcur want).2.1.flatten.drop (drain fs rcur want).2.2 = (fs.flatten.drop rcur).drop want ∧
    QueueWf (drain fs rcur want).2.1 (drain fs rcur want).2.2 := by
  induction fs generalizing rcur want with
  | nil =>
    refine ⟨by simp [drain], ?_, h⟩
    simp [drain]
  | cons f fs ih =>
    obtain ⟨hr, hfs⟩ := h
    have hdue : (f :: fs).flatten.drop rcur = f.drop rcur ++ fs.flatten := by
      rw [List.flatten_cons, List.drop_append_of_le_length (Nat.le_of_lt hr)]
    simp only [drain]
    by_cases h0 : want = 0
    · subst h0
      exact ⟨by simp, by simp, hr, hfs⟩
    · rw [if_neg h0]
      rcases Nat.lt_or_ge want (f.length - rcur) with hlt | hge
      · rw [Nat.min_eq_left (Nat.le_of_lt hlt), if_neg (by omega)]
        refine ⟨?_, by rw [List.drop_drop], (by omega : rcur + want < f.length), hfs⟩
        rw [hdue, List.take_append_of_le_length (by rw [List.length_drop]; omega)]
      · rw [Nat.min_eq_right hge, if_pos (by omega)]
        obtain ⟨htaken, hleft, hwf⟩ := ih (rcur := 0) (want - (f.length - rcur)) (queueWf_tail hfs)
        rw [List.drop_zero] at htaken hleft
        have hwhole : (f.drop rcur).take (f.length - rcur) = f.drop rcur :=
          List.take_of_length_le (by rw [List.length_drop])
        have hshort : (f.drop rcur).length ≤ want := by rw [List.length_drop]; exact hge
        refine ⟨?_, ?_, hwf⟩
        · rw [hdue, hwhole, List.take_append, List.length_drop, List.take_of_length_le hshort, htaken]
        · rw [hdue, hleft, List.drop_append, List.length_drop, List.drop_of_length_le hshort, List.nil_append]

end Sys2Proof.Machine
end

/-! ### The obligation on playback -/

section
open Sys2Proof Sys2Proof.Machine

/-- Settles O57: `drain_eq` on the output queue; the silence appended is what the samples due lack. -/
theorem fillDeliversAWholeBlock : Obligations.FillDeliversAWholeBlock := by
  unfold Obligations.FillDeliversAWholeBlock
  intro e m hwf
  obtain ⟨htaken, hleft, hwf'⟩ := drain_eq m ((wellFormed_iff e).mp hwf)
  have hlen : (drain e.ofq e.rcur m).1.length = min m e.pending.length := by
    rw [htaken, List.length_take]
    rfl
  refine ⟨?_, hleft, (wellFormed_iff _).mpr hwf', ?_, rfl, rfl⟩
  · have hsilence : m - min m e.pending.length = m - e.pending.length := by omega
    rw [← hsilence, ← hlen]
    exact congrArg (· ++ _) htaken
  · have hshort : min m e.pending.length < m ↔ e.pending.length < m := by omega
    simp only [Env.fill, hlen, hshort]
    split <;> rfl

end

/-! ### The exchange in order (spec/47_environment.md R212 to R218) -/

section
namespace Sys2Proof.Machine

theorem exchanged_start : Exchanged [] [] 0 0 Env.start :=
  ⟨Nat.le_refl _, Nat.le_refl _, rfl, fun i hi => absurd hi (Nat.not_lt_zero i), rfl, rfl, rfl⟩

theorem numbered_length (first : Nat) (frames : List (List Word)) :
    (numbered first frames).length = frames.length := by
  simp [numbered]

theorem numbered_concat (first : Nat) (frames : List (List Word)) (f : List Word) :
    numbered first (frames ++ [f]) = numbered first frames ++ [(first + frames.length, f)] := by
  rw [numbered, List.length_append, List.length_singleton, List.range'_concat,
    List.zip_append (by simp), Nat.one_mul]
  rfl

theorem getElem_numbered (first : Nat) (frames : List (List Word)) (i : Nat) (hi : i < (numbered first frames).length) :
    (numbered first frames)[i] = (first + i, frames.getD i []) := by
  have hi' : i < frames.length := numbered_length first frames ▸ hi
  simp [numbered, hi']

/-- A list that begins at place `n` of another: the place exists, and the rest begins one further. -/
theorem drop_eq_cons_iff {α : Type} {l rest : List α} {n : Nat} {x : α} :
    l.drop n = x :: rest ↔ ∃ h : n < l.length, l[n] = x ∧ l.drop (n + 1) = rest := by
  constructor
  · intro h
    have hn : n < l.length := by
      by_contra hge
      rw [List.drop_of_length_le (Nat.not_lt.mp hge)] at h
      cases h
    rw [List.drop_eq_getElem_cons hn] at h
    obtain ⟨hx, hrest⟩ := List.cons.inj h
    exact ⟨hn, hx, hrest⟩
  · rintro ⟨hn, rfl, rfl⟩
    exact List.drop_eq_getElem_cons hn

variable {submitted : List (List Word)} {replies : List (Except EngineError (List Word))} {first played : Nat}
  {e e' : Env}

theorem zipWith_answers_length (hle : replies.length ≤ submitted.length) :
    (List.zipWith answerTo submitted replies).length = replies.length := by
  rw [List.length_zipWith, Nat.min_eq_right hle]

/-- A frame submitted later does not change the answers to the replies so far. -/
theorem zipWith_answers_submit (hle : replies.length ≤ submitted.length) (f : List Word) :
    List.zipWith answerTo (submitted ++ [f]) replies = List.zipWith answerTo submitted replies := by
  apply List.ext_getElem
  · simp only [List.length_zipWith, List.length_append]
    omega
  · intro i h1 h2
    rw [List.length_zipWith] at h2
    rw [List.getElem_zipWith, List.getElem_zipWith, List.getElem_append_left (by omega)]

/-- A further reply answers the next frame submitted. -/
theorem zipWith_answers_reply (hlt : replies.length < submitted.length) (r : Except EngineError (List Word)) :
    List.zipWith answerTo submitted (replies ++ [r]) =
      List.zipWith answerTo submitted replies ++ [answerTo (submitted.getD replies.length []) r] := by
  have hzip := zipWith_answers_length (Nat.le_of_lt hlt)
  apply List.ext_getElem
  · simp only [List.length_zipWith, List.length_append, List.length_singleton]
    omega
  · intro i h1 h2
    rw [List.length_zipWith, List.length_append, List.length_singleton] at h1
    rw [List.getElem_zipWith]
    rcases Nat.lt_or_ge i replies.length with hi | hi
    · rw [List.getElem_append_left hi, List.getElem_append_left (by rw [hzip]; exact hi), List.getElem_zipWith]
    · obtain rfl : i = replies.length := by omega
      rw [List.getElem_append_right hi, List.getElem_append_right (by rw [hzip])]
      simp [hlt]

/-- The results and the output queue are the answers not yet played. -/
theorem exchanged_waiting (h : Exchanged submitted replies first played e) :
    e.ofq.length + e.results.length = replies.length - played := by
  have hlen := congrArg List.length h.answers
  rwa [List.length_append, List.length_drop, zipWith_answers_length h.processed] at hlen

theorem exchanged_submit {q : Option Nat} {f : List Word} {n : Nat}
    (h : Exchanged submitted replies first played e) (he : e.submit q f = some (n, e')) :
    Exchanged (submitted ++ [f]) replies first played e' := by
  obtain ⟨-, -, rfl⟩ := submit_some.mp he
  have hprocessed := h.processed
  have hqueue (k : Nat) (hk : k ≤ submitted.length) :
      (numbered first submitted).drop k ++ [(e.nextH, f)] = (numbered first (submitted ++ [f])).drop k := by
    rw [numbered_concat, List.drop_append_of_le_length (by rw [numbered_length]; exact hk), h.handles]
  exact {
    processed := by rw [List.length_append]; omega
    playedLe := h.playedLe
    answers := by rw [zipWith_answers_submit hprocessed]; exact h.answers
    lengths := fun i hi => by
      rw [zipWith_answers_submit hprocessed, List.getD_append _ _ _ _ (by omega)]
      exact h.lengths i hi
    inbox := by rw [← hqueue _ hprocessed, ← h.inbox]
    pending := by rw [← hqueue _ (by omega), ← h.pending]
    handles := by rw [List.length_append, ← Nat.add_assoc, ← h.handles]; rfl }

theorem exchanged_process {eng : Engine} {r : Except EngineError (List Word)}
    (h : Exchanged submitted replies first played e) (he : e.processOne eng r = some e') :
    Exchanged submitted (replies ++ [r]) first played e' := by
  obtain ⟨n, frame, rest, log, hinbox, hanswers, -, rfl⟩ := processOne_some.mp he
  obtain ⟨hlt, hhead, hrest⟩ := drop_eq_cons_iff.mp (h.inbox.symm.trans hinbox)
  have hlt' : replies.length < submitted.length := numbered_length first submitted ▸ hlt
  rw [getElem_numbered] at hhead
  obtain ⟨-, hframe⟩ := Prod.mk.inj hhead
  have hzip := zipWith_answers_length h.processed
  have hreply := zipWith_answers_reply hlt' r
  exact {
    processed := by rw [List.length_append]; exact hlt'
    playedLe := by rw [List.length_append]; exact Nat.le_succ_of_le h.playedLe
    answers := by
      rw [hreply, List.drop_append_of_le_length (by rw [hzip]; exact h.playedLe), ← h.answers, hframe,
        List.append_assoc]
    lengths := fun i hi => by
      rw [List.length_append, List.length_singleton] at hi
      rw [hreply]
      rcases Nat.lt_or_ge i replies.length with hlow | hhigh
      · rw [List.getD_append _ _ _ _ (by omega)]
        exact h.lengths i hlow
      · obtain rfl : i = replies.length := by omega
        rw [List.getD_append_right _ _ _ _ (by omega), hzip, Nat.sub_self, hframe]
        exact answerTo_length hanswers
    inbox := by rw [List.length_append, List.length_singleton, hrest]
    pending := by
      rw [List.length_append, List.length_append, List.length_singleton, List.length_singleton,
        Nat.add_sub_add_right]
      exact h.pending
    handles := h.handles }

theorem exchanged_deliver {q : Option Nat} (h : Exchanged submitted replies first played e)
    (he : e.deliver q = some e') : Exchanged submitted replies first played e' := by
  obtain ⟨out, results, n, frame, rest, hresults, hpfq, -, -, rfl⟩ := deliver_some.mp he
  have hwaiting := exchanged_waiting h
  rw [hresults, List.length_cons] at hwaiting
  have hpending := h.pending
  rw [hpfq, hresults, List.length_cons] at hpending
  obtain ⟨-, -, hrest⟩ := drop_eq_cons_iff.mp hpending.symm
  exact {
    processed := h.processed
    playedLe := h.playedLe
    answers := by rw [List.append_assoc, List.singleton_append, ← hresults]; exact h.answers
    lengths := h.lengths
    inbox := h.inbox
    pending := by
      have hplace : replies.length - (results.length + 1) + 1 = replies.length - results.length := by omega
      rw [← hrest, hplace]
    handles := h.handles }

/-- Playback takes frames off the head of the output queue, none when no sample is asked for. -/
theorem exchanged_fill (h : Exchanged submitted replies first played e) (m : Nat) :
    ∃ k, Exchanged submitted replies first (played + k) (e.fill m).2 ∧ (e.fill m).2.ofq = e.ofq.drop k ∧
      (m = 0 → k = 0) := by
  have hqueue : ∃ k, (e.fill m).2.ofq = e.ofq.drop k ∧ k ≤ e.ofq.length ∧ (m = 0 → k = 0) := by
    by_cases hm : m = 0
    · subst hm
      refine ⟨0, ?_, Nat.zero_le _, fun _ => rfl⟩
      rcases hq : e.ofq with _ | ⟨f, fs⟩ <;> simp [Env.fill, drain, hq]
    · obtain ⟨k, hk, hle⟩ := drain_queue e.ofq e.rcur m
      exact ⟨k, hk, hle, fun h0 => absurd h0 hm⟩
  obtain ⟨k, hk, hle, hzero⟩ := hqueue
  have hwaiting := exchanged_waiting h
  have hplayed := h.playedLe
  refine ⟨k, ?_, hk, hzero⟩
  exact {
    processed := h.processed
    playedLe := by omega
    answers := by
      have hresults : (e.fill m).2.results = e.results := rfl
      rw [hk, hresults, ← List.drop_drop, ← h.answers, List.drop_append_of_le_length hle]
    lengths := h.lengths
    inbox := h.inbox
    pending := h.pending
    handles := h.handles }

theorem exchanged_reset (e : Env) : Exchanged [] [] e.nextH 0 e.resetQueues :=
  ⟨Nat.le_refl _, Nat.le_refl _, rfl, fun i hi => absurd hi (Nat.not_lt_zero i), rfl, rfl, rfl⟩

/-! One event, by its operation. -/

theorem event_submit {q : Option Nat} {eng : Engine} {f out : List Word}
    (h : e.event q eng (.submit f) = some (out, e')) : out = [] ∧ ∃ n, e.submit q f = some (n, e') := by
  obtain ⟨⟨n, e1⟩, h1, h2⟩ := Option.map_eq_some_iff.mp h
  cases h2
  exact ⟨rfl, n, h1⟩

theorem event_append {q : Option Nat} {eng : Engine} {f out : List Word}
    (h : e.event q eng (.append f) = some (out, e')) : out = [] ∧ e.append q f = some e' := by
  obtain ⟨e1, h1, h2⟩ := Option.map_eq_some_iff.mp h
  cases h2
  exact ⟨rfl, h1⟩

theorem event_process {q : Option Nat} {eng : Engine} {r : Except EngineError (List Word)} {out : List Word}
    (h : e.event q eng (.process r) = some (out, e')) : out = [] ∧ e.processOne eng r = some e' := by
  obtain ⟨e1, h1, h2⟩ := Option.map_eq_some_iff.mp h
  cases h2
  exact ⟨rfl, h1⟩

theorem event_deliver {q : Option Nat} {eng : Engine} {out : List Word}
    (h : e.event q eng .deliver = some (out, e')) : out = [] ∧ e.deliver q = some e' := by
  obtain ⟨e1, h1, h2⟩ := Option.map_eq_some_iff.mp h
  cases h2
  exact ⟨rfl, h1⟩

theorem event_fill {q : Option Nat} {eng : Engine} {m : Nat} {out : List Word}
    (h : e.event q eng (.fill m) = some (out, e')) : out = (e.fill m).1 ∧ e' = (e.fill m).2 := by
  cases h
  exact ⟨rfl, rfl⟩

theorem run_cons {q : Option Nat} {eng : Engine} {ev : EnvEvent} {evs : List EnvEvent} {out : List Word} :
    Env.run q eng e (ev :: evs) = some (out, e') ↔ ∃ o e1 os, e.event q eng ev = some (o, e1) ∧
      Env.run q eng e1 evs = some (os, e') ∧ out = o ++ os := by
  simp only [Env.run, Option.bind_eq_bind, Option.bind_eq_some_iff, Option.some.injEq, Prod.exists, Prod.mk.injEq]
  constructor
  · rintro ⟨o, e1, h1, os, e2, h2, rfl, rfl⟩
    exact ⟨o, e1, os, h1, h2, rfl⟩
  · rintro ⟨o, e1, os, h1, h2, rfl⟩
    exact ⟨o, e1, h1, os, e', h2, rfl, rfl⟩

/-- A run without an emptying of the queues and without a direct append keeps the exchange in order. -/
theorem exchanged_run {q : Option Nat} {eng : Engine} {evs : List EnvEvent} {out : List Word}
    (hevs : ∀ ev ∈ evs, ev ≠ .reset ∧ ∀ f, ev ≠ .append f) (h : Exchanged submitted replies first played e)
    (hrun : Env.run q eng e evs = some (out, e')) :
    ∃ k, Exchanged (submitted ++ submittedFrames evs) (replies ++ engineReplies evs) first (played + k) e' ∧
      (samplesAsked evs = 0 → k = 0) := by
  induction evs generalizing e submitted replies played out with
  | nil =>
    cases hrun
    exact ⟨0, by simpa [submittedFrames, engineReplies] using h, fun _ => rfl⟩
  | cons ev evs ih =>
    obtain ⟨o, e1, os, hev, hrest, rfl⟩ := run_cons.mp hrun
    have htail : ∀ ev ∈ evs, ev ≠ .reset ∧ ∀ f, ev ≠ .append f := fun v hv => hevs v (List.mem_cons_of_mem _ hv)
    obtain ⟨hreset, happend⟩ := hevs ev List.mem_cons_self
    cases ev with
    | submit f =>
      obtain ⟨-, n, hsub⟩ := event_submit hev
      obtain ⟨k, hk, hzero⟩ := ih htail (exchanged_submit h hsub) hrest
      exact ⟨k, by simpa [submittedFrames, engineReplies] using hk, by simpa [samplesAsked] using hzero⟩
    | append f => exact absurd rfl (happend f)
    | process r =>
      obtain ⟨-, hproc⟩ := event_process hev
      obtain ⟨k, hk, hzero⟩ := ih htail (exchanged_process h hproc) hrest
      exact ⟨k, by simpa [submittedFrames, engineReplies] using hk, by simpa [samplesAsked] using hzero⟩
    | deliver =>
      obtain ⟨-, hdel⟩ := event_deliver hev
      obtain ⟨k, hk, hzero⟩ := ih htail (exchanged_deliver h hdel) hrest
      exact ⟨k, hk, by simpa [samplesAsked] using hzero⟩
    | fill m =>
      obtain ⟨-, rfl⟩ := event_fill hev
      obtain ⟨j, hj, -, hj0⟩ := exchanged_fill h m
      obtain ⟨k, hk, hzero⟩ := ih htail hj hrest
      refine ⟨j + k, Nat.add_assoc played j k ▸ hk, fun hasked => ?_⟩
      simp only [samplesAsked, List.map_cons, List.sum_cons, Nat.add_eq_zero_iff] at hasked
      rw [hj0 hasked.1, hzero hasked.2]
    | reset => exact absurd rfl hreset

/-- With an unbounded output queue a result that waits has its frame at the head of the pending ones, and
that frame's length. -/
theorem deliver_of_waiting (h : Exchanged submitted replies first played e) (hne : e.results ≠ []) :
    ∃ e', e.deliver none = some e' := by
  obtain ⟨out, results, hresults⟩ := List.exists_cons_of_ne_nil hne
  have hwaiting := exchanged_waiting h
  have hprocessed := h.processed
  rw [hresults, List.length_cons] at hwaiting
  have hplace : played + e.ofq.length = replies.length - e.results.length := by
    rw [hresults, List.length_cons]
    omega
  have hlt : replies.length - e.results.length < replies.length := by rw [hresults, List.length_cons]; omega
  have hpfq := h.pending
  rw [List.drop_eq_getElem_cons (by rw [numbered_length]; omega), getElem_numbered] at hpfq
  have hout : out = (List.zipWith answerTo submitted replies).getD (replies.length - e.results.length) [] := by
    have hdrop := congrArg (List.drop e.ofq.length) h.answers
    rw [List.drop_left, List.drop_drop, hplace] at hdrop
    obtain ⟨hi, hget, -⟩ := drop_eq_cons_iff.mp (hdrop.symm.trans hresults)
    rw [List.getD_eq_getElem _ _ hi, hget]
  have hlen := h.lengths _ hlt
  rw [← hout] at hlen
  exact ⟨_, deliver_some.mpr ⟨out, results, _, _, _, hresults, hpfq, rfl, hlen, rfl⟩⟩

end Sys2Proof.Machine
end

/-! ### The obligation on the exchange -/

section
open Sys2Proof Sys2Proof.Machine

/-- Settles O58: each event keeps the relation by its lemma `exchanged_…`, a run by induction
(`exchanged_run`), and a waiting result finds its frame (`deliver_of_waiting`). -/
theorem resultsComeBackInOrder : Obligations.ResultsComeBackInOrder := by
  unfold Obligations.ResultsComeBackInOrder
  refine ⟨exchanged_start, ?_, ?_, ?_⟩
  · intro qdepth eng e e' ev out submitted replies first played h hev
    cases ev with
    | submit f =>
      obtain ⟨-, n, hsub⟩ := event_submit hev
      exact exchanged_submit h hsub
    | append f => exact (append_some.mp (event_append hev).2).2
    | process r => exact exchanged_process h (event_process hev).2
    | deliver => exact exchanged_deliver h (event_deliver hev).2
    | fill m =>
      obtain ⟨-, rfl⟩ := event_fill hev
      obtain ⟨k, hk, hqueue, -⟩ := exchanged_fill h m
      exact ⟨k, hk, hqueue⟩
    | reset =>
      cases hev
      exact exchanged_reset e
  · intro qdepth eng evs out e hevs hrun
    obtain ⟨k, hk, hzero⟩ := exchanged_run hevs exchanged_start hrun
    exact ⟨0 + k, hk, fun h0 => by rw [hzero h0]⟩
  · intro eng e submitted replies first played h hne
    obtain ⟨e', he'⟩ := deliver_of_waiting h hne
    exact ⟨e', by rw [Env.event, he']; rfl⟩

end

/-! ### What a run plays (spec/47_environment.md R220 to R223) -/

section
namespace Sys2Proof.Machine

/-- Every sample is +0.0. -/
def Silent (f : List Word) : Prop := ∀ x ∈ f, x = F32.posZero

/-- Whatever waits to be played is silent. -/
def Env.silent (e : Env) : Prop := (∀ f ∈ e.ofq, Silent f) ∧ ∀ f ∈ e.results, Silent f

theorem silent_silentFrame (n : Nat) : Silent (silentFrame n) := fun _ hx => List.eq_of_mem_replicate hx

theorem start_silent : Env.start.silent := ⟨by simp [Env.start], by simp [Env.start]⟩

theorem resetQueues_silent (e : Env) : e.resetQueues.silent := ⟨by simp [Env.resetQueues], by simp [Env.resetQueues]⟩

/-- What the loop of `fill` copies, it copies from the queue. -/
theorem drain_mem {fs : List (List Word)} {rcur want : Nat} {x : Word} (h : x ∈ (drain fs rcur want).1) :
    ∃ f ∈ fs, x ∈ f := by
  induction fs generalizing rcur want with
  | nil => simp [drain] at h
  | cons f fs ih =>
    simp only [drain] at h
    split_ifs at h
    · simp at h
    · rcases List.mem_append.mp h with hpart | hrest
      · exact ⟨f, List.mem_cons_self, List.mem_of_mem_drop (List.mem_of_mem_take hpart)⟩
      · obtain ⟨g, hg, hx⟩ := ih hrest
        exact ⟨g, List.mem_cons_of_mem _ hg, hx⟩
    · exact ⟨f, List.mem_cons_self, List.mem_of_mem_drop (List.mem_of_mem_take h)⟩

theorem fill_silent {e : Env} (h : e.silent) (m : Nat) :
    (e.fill m).1 = List.replicate m F32.posZero ∧ (e.fill m).2.silent := by
  refine ⟨List.eq_replicate_iff.mpr ⟨fill_length e m, fun x hx => ?_⟩, fun f hf => ?_, h.2⟩
  · rcases List.mem_append.mp hx with hcopied | hsilence
    · obtain ⟨f, hf, hxf⟩ := drain_mem hcopied
      exact h.1 f hf x hxf
    · exact List.eq_of_mem_replicate hsilence
  · obtain ⟨k, hk, -⟩ := drain_queue e.ofq e.rcur m
    have hqueue : (e.fill m).2.ofq = e.ofq.drop k := hk
    rw [hqueue] at hf
    exact h.1 f (List.mem_of_mem_drop hf)

/-- An event of a dead engine: the engine's reply, if it is one, is a failure, and no frame is appended
directly. -/
def DeadEvent (ev : EnvEvent) : Prop := (∀ r, ev = .process r → ∃ err, r = .error err) ∧ ∀ f, ev ≠ .append f

theorem deadEvent_deliver : DeadEvent .deliver := ⟨fun _ h => EnvEvent.noConfusion h, fun _ h => EnvEvent.noConfusion h⟩

theorem deadEvent_failure (err : EngineError) : DeadEvent (.process (.error err)) :=
  ⟨fun _ h => ⟨err, (EnvEvent.process.inj h).symm⟩, fun _ h => EnvEvent.noConfusion h⟩

theorem samplesAsked_cons (ev : EnvEvent) (evs : List EnvEvent) :
    samplesAsked (ev :: evs) = samplesAsked [ev] + samplesAsked evs := by
  simp [samplesAsked]

/-- One event of a dead engine plays silence and leaves only silence to be played. -/
theorem event_silent {q : Option Nat} {eng : Engine} {e e' : Env} {ev : EnvEvent} {out : List Word}
    (h : e.silent) (hdead : DeadEvent ev) (hev : e.event q eng ev = some (out, e')) :
    out = List.replicate (samplesAsked [ev]) F32.posZero ∧ e'.silent := by
  cases ev with
  | submit f =>
    obtain ⟨rfl, n, hsub⟩ := event_submit hev
    obtain ⟨-, -, rfl⟩ := submit_some.mp hsub
    exact ⟨rfl, h⟩
  | append f => exact absurd rfl (hdead.2 f)
  | process r =>
    obtain ⟨err, rfl⟩ := hdead.1 r rfl
    obtain ⟨rfl, hproc⟩ := event_process hev
    obtain ⟨n, frame, rest, log, -, -, -, rfl⟩ := processOne_some.mp hproc
    refine ⟨rfl, h.1, fun f hf => ?_⟩
    rcases List.mem_append.mp hf with hold | hnew
    · exact h.2 f hold
    · rw [List.mem_singleton.mp hnew]
      exact silent_silentFrame _
  | deliver =>
    obtain ⟨rfl, hdel⟩ := event_deliver hev
    obtain ⟨o, results, n, frame, rest, hresults, -, -, -, rfl⟩ := deliver_some.mp hdel
    have hwaiting := h.2
    rw [hresults] at hwaiting
    refine ⟨rfl, fun f hf => ?_, fun f hf => hwaiting f (List.mem_cons_of_mem _ hf)⟩
    rcases List.mem_append.mp hf with hold | hnew
    · exact h.1 f hold
    · exact hwaiting f (List.mem_singleton.mp hnew ▸ List.mem_cons_self)
  | fill m =>
    obtain ⟨rfl, rfl⟩ := event_fill hev
    exact fill_silent h m
  | reset =>
    cases hev
    exact ⟨rfl, resetQueues_silent e⟩

theorem run_silent {q : Option Nat} {eng : Engine} {evs : List EnvEvent} {e e' : Env} {out : List Word}
    (h : e.silent) (hdead : ∀ ev ∈ evs, DeadEvent ev) (hrun : Env.run q eng e evs = some (out, e')) :
    out = List.replicate (samplesAsked evs) F32.posZero ∧ e'.silent := by
  induction evs generalizing e out with
  | nil =>
    cases hrun
    exact ⟨rfl, h⟩
  | cons ev evs ih =>
    obtain ⟨o, e1, os, hev, hrest, rfl⟩ := run_cons.mp hrun
    obtain ⟨ho, h1⟩ := event_silent h (hdead ev List.mem_cons_self) hev
    obtain ⟨hos, h2⟩ := ih h1 (fun v hv => hdead v (List.mem_cons_of_mem _ hv)) hrest
    rw [ho, hos, List.replicate_append_replicate, ← samplesAsked_cons]
    exact ⟨rfl, h2⟩

/-- Whatever the engine does, a run plays exactly as many samples as its playback asks for. -/
theorem run_length {q : Option Nat} {eng : Engine} {evs : List EnvEvent} {e e' : Env} {out : List Word}
    (hrun : Env.run q eng e evs = some (out, e')) : out.length = samplesAsked evs := by
  induction evs generalizing e out with
  | nil =>
    cases hrun
    rfl
  | cons ev evs ih =>
    obtain ⟨o, e1, os, hev, hrest, rfl⟩ := run_cons.mp hrun
    have ho : o.length = samplesAsked [ev] := by
      cases ev with
      | submit f => rw [(event_submit hev).1]; rfl
      | append f => rw [(event_append hev).1]; rfl
      | process r => rw [(event_process hev).1]; rfl
      | deliver => rw [(event_deliver hev).1]; rfl
      | fill m => rw [(event_fill hev).1, fill_length]; rfl
      | reset => cases hev; rfl
    rw [List.length_append, ho, ih hrest, ← samplesAsked_cons]

/-- The events of one callback ask for one block. -/
theorem samplesAsked_callback (w : Wiring) (frames : List (List Word)) (n : Nat) :
    samplesAsked (frames.map w.accept ++ [.fill n]) = n := by
  induction frames with
  | nil => simp [samplesAsked]
  | cons f fs ih =>
    rw [List.map_cons, List.cons_append, samplesAsked_cons, ih]
    cases w <;> simp [samplesAsked, Wiring.accept]

/-! BHF and its environment. -/

theorem callback_some {w : Wiring} {eng : Engine} {x x' : World} {block out : List Word}
    (h : x.callback w eng block = some (out, x')) :
    ∃ frames, pushAll x.machine (pieces block.length block) = some (frames, x'.machine) ∧
      Env.run x.machine.cfg.qdepth eng x.env (frames.map w.accept ++ [.fill block.length]) = some (out, x'.env) := by
  simp only [World.callback] at h
  split at h
  · cases h
  · simp only [Option.bind_eq_bind, Option.bind_eq_some_iff, Option.some.injEq, Prod.exists, Prod.mk.injEq] at h
    obtain ⟨frames, s, hpush, o, e, hrun, rfl, rfl⟩ := h
    exact ⟨frames, hpush, hrun⟩

/-- A command sent keeps the queues or empties them. -/
theorem send_env {x y : World} {i : Instr} (h : x.send i = some y) : y.env = x.env ∨ y.env = x.env.resetQueues := by
  simp only [World.send, Option.bind_eq_bind, Option.bind_eq_some_iff, Option.some.injEq, Prod.exists] at h
  obtain ⟨packets, done, s, -, rfl⟩ := h
  dsimp only
  split
  · exact .inr rfl
  · exact .inl rfl

theorem send_silent {x y : World} {i : Instr} (hx : x.env.silent) (h : x.send i = some y) : y.env.silent := by
  rcases send_env h with he | he
  · rw [he]
    exact hx
  · rw [he]
    exact resetQueues_silent _

theorem callbackSamples_cons (ev : WorldEvent) (evs : List WorldEvent) :
    callbackSamples (ev :: evs) = callbackSamples [ev] + callbackSamples evs := by
  simp [callbackSamples]

/-- One event of BHF and a dead engine, in configuration E. -/
theorem worldEvent_silent {eng : Engine} {x x' : World} {ev : WorldEvent} {out : List Word} (h : x.env.silent)
    (hdead : ∀ r, ev = .process r → ∃ err, r = .error err) (hev : x.event .engine eng ev = some (out, x')) :
    out = List.replicate (callbackSamples [ev]) F32.posZero ∧ x'.env.silent := by
  cases ev with
  | command i =>
    simp only [World.event] at hev
    split at hev
    · cases hev
    · obtain ⟨y, hy, hout⟩ := Option.map_eq_some_iff.mp hev
      cases hout
      exact ⟨rfl, send_silent h hy⟩
  | openEngine =>
    obtain ⟨y, hy, hout⟩ := Option.map_eq_some_iff.mp hev
    cases hout
    simp only [World.openEngine] at hy
    split at hy
    · exact ⟨rfl, send_silent h hy⟩
    · cases hy
  | callback block =>
    obtain ⟨frames, -, hrun⟩ := callback_some hev
    have hevs : ∀ v ∈ frames.map Wiring.engine.accept ++ [.fill block.length], DeadEvent v := by
      simp [DeadEvent, Wiring.accept, or_imp, forall_and]
    obtain ⟨hout, henv⟩ := run_silent h hevs hrun
    rw [samplesAsked_callback] at hout
    exact ⟨hout, henv⟩
  | deliver =>
    obtain ⟨⟨o, e⟩, he, hout⟩ := Option.map_eq_some_iff.mp hev
    cases hout
    exact event_silent h deadEvent_deliver he
  | process r =>
    obtain ⟨⟨o, e⟩, he, hout⟩ := Option.map_eq_some_iff.mp hev
    cases hout
    obtain ⟨err, rfl⟩ := hdead r rfl
    exact event_silent h (deadEvent_failure err) he

theorem worldRun_silent {eng : Engine} {x x' : World} {evs : List WorldEvent} {out : List Word} (h : x.env.silent)
    (hdead : ∀ ev ∈ evs, ∀ r, ev = .process r → ∃ err, r = .error err)
    (hrun : World.run .engine eng x evs = some (out, x')) :
    out = List.replicate (callbackSamples evs) F32.posZero := by
  induction evs generalizing x out with
  | nil =>
    cases hrun
    rfl
  | cons ev evs ih =>
    simp only [World.run, Option.bind_eq_bind, Option.bind_eq_some_iff, Option.some.injEq, Prod.exists,
      Prod.mk.injEq] at hrun
    obtain ⟨o, x1, hev, os, x2, hrest, rfl, rfl⟩ := hrun
    obtain ⟨ho, h1⟩ := worldEvent_silent h (hdead ev List.mem_cons_self) hev
    rw [ho, ih h1 (fun v hv => hdead v (List.mem_cons_of_mem _ hv)) hrest, List.replicate_append_replicate,
      ← callbackSamples_cons]

end Sys2Proof.Machine
end

/-! ### The obligation on a dead engine -/

section
open Sys2Proof Sys2Proof.Machine

/-- Settles O59: all that ever waits is silent (`run_silent`, `worldRun_silent`), and `fill` pads with
silence. -/
theorem deadEnginePlaysSilence : Obligations.DeadEnginePlaysSilence := by
  unfold Obligations.DeadEnginePlaysSilence
  exact ⟨fun qdepth eng evs out e hdead hrun => (run_silent start_silent hdead hrun).1,
    fun eng s evs out x hdead hrun => worldRun_silent start_silent hdead hrun⟩

end

/-! ### The host's commands (spec/47_environment.md R216, R217, R222, R224) -/

section
namespace Sys2Proof.Machine

/-- A command whose response is announced packets and DONE is read back by the host. -/
theorem hostCommand_of_exec {s t : State} {i : Instr} {packets : List (List Word)} {st : BitVec 4} {op : BitVec 8}
    (hw : i.wellFormed = true) (h : exec i s = .next t)
    (hout : t.output = s.output ++ (packets.flatMap dataPacket ++ [doneWord st op]))
    (hp : ∀ p ∈ packets, Announced p) : hostCommand s i = some (packets, doneWord st op, t) := by
  refine hostCommand_some.mpr ⟨hw, (step_feedFirst_encode hw s).trans h, [], ?_⟩
  rw [hout, List.drop_left]
  exact parseResponse_whole hp st op

theorem exec_of_hostCommand {s t : State} {i : Instr} {packets : List (List Word)} {done : Word}
    (h : hostCommand s i = some (packets, done, t)) : exec i s = .next t := by
  obtain ⟨hw, hstep, -⟩ := hostCommand_some.mp h
  exact (step_feedFirst_encode hw s).symm.trans hstep

/-- PUSH keeps the configuration, FRAME_SIZE and CTRL. -/
theorem exec_push_keeps {s t : State} {xs : List Word} (h : exec (.push xs) s = .next t) :
    t.cfg = s.cfg ∧ t.frameSize = s.frameSize ∧ t.ctrl = s.ctrl := by
  obtain ⟨-, u, hpush, rfl⟩ := exec_push_next.mp h
  obtain ⟨packets, hto⟩ := pushSamples_pushedTo hpush
  rw [hto.state]
  exact ⟨rfl, rfl, rfl⟩

theorem pushAll_cons {s t : State} {p : List Word} {ps frames : List (List Word)} :
    pushAll s (p :: ps) = some (frames, t) ↔ ∃ f done s1 more, hostCommand s (.push p) = some (f, done, s1) ∧
      pushAll s1 ps = some (more, t) ∧ frames = f ++ more := by
  simp only [pushAll, Option.bind_eq_bind, Option.bind_eq_some_iff, Option.some.injEq, Prod.exists, Prod.mk.injEq]
  constructor
  · rintro ⟨f, done, s1, hhead, more, s2, hrest, rfl, rfl⟩
    exact ⟨f, done, s1, more, hhead, hrest, rfl⟩
  · rintro ⟨f, done, s1, more, hhead, hrest, rfl⟩
    exact ⟨f, done, s1, hhead, more, t, hrest, rfl, rfl⟩

theorem pushAll_keeps {s t : State} {ps frames : List (List Word)} (h : pushAll s ps = some (frames, t)) :
    t.cfg = s.cfg ∧ t.frameSize = s.frameSize ∧ t.ctrl = s.ctrl := by
  induction ps generalizing s frames with
  | nil =>
    cases h
    exact ⟨rfl, rfl, rfl⟩
  | cons p ps ih =>
    obtain ⟨f, done, s1, more, hhead, hrest, -⟩ := pushAll_cons.mp h
    obtain ⟨hcfg, hsize, hctrl⟩ := exec_push_keeps (exec_of_hostCommand hhead)
    obtain ⟨hcfg', hsize', hctrl'⟩ := ih hrest
    exact ⟨hcfg'.trans hcfg, hsize'.trans hsize, hctrl'.trans hctrl⟩

/-- With CHAIN_EN = 0 every PUSH of finite samples that one header can count is answered. -/
theorem hostCommand_push_raw {s : State} {p : List Word} (hs : Legal s) (hoff : s.chainEn = false)
    (hp : allFinite p = true) (hw : (Instr.push p).wellFormed = true) :
    ∃ frames done t, hostCommand s (.push p) = some (frames, done, t) ∧ Legal t ∧ t.chainEn = false := by
  obtain ⟨cut, tail, hcut⟩ := framed_exists hs.framePos (s.acc.toList s.cursor.toNat ++ p)
  have hexec := exec_push_of_framed hs hp hcut
  rw [completeFrames_raw hoff, Except.map, finish_ok] at hexec
  obtain ⟨frames, hout, hsizes, -⟩ := exec_response hs hw hexec
  exact ⟨frames, _, _, hostCommand_of_exec hw hexec hout hsizes, exec_legal hs hexec, hoff⟩

theorem pushAll_raw {s : State} {ps : List (List Word)} (hs : Legal s) (hoff : s.chainEn = false)
    (hps : ∀ p ∈ ps, allFinite p = true ∧ (Instr.push p).wellFormed = true) :
    ∃ frames t, pushAll s ps = some (frames, t) := by
  induction ps generalizing s with
  | nil => exact ⟨[], s, rfl⟩
  | cons p ps ih =>
    obtain ⟨hfin, hw⟩ := hps p List.mem_cons_self
    obtain ⟨f, done, s1, hhead, hs1, hoff1⟩ := hostCommand_push_raw hs hoff hfin hw
    obtain ⟨more, t, hrest⟩ := ih hs1 hoff1 fun r hr => hps r (List.mem_cons_of_mem _ hr)
    exact ⟨_, t, pushAll_cons.mpr ⟨f, done, s1, more, hhead, hrest, rfl⟩⟩

theorem pieces_finite {xs p : List Word} (hx : allFinite xs = true) (hp : p ∈ pieces xs.length xs) :
    allFinite p = true := by
  simp only [allFinite, List.all_eq_true] at hx ⊢
  intro x hxp
  refine hx x ?_
  rw [← pieces_flatten (Nat.le_refl xs.length)]
  exact List.mem_flatten.mpr ⟨p, hp, hxp⟩

/-- With unbounded queues the submits and the playback of a callback are never refused. -/
theorem run_submits_fill (eng : Engine) (e : Env) (frames : List (List Word)) (n : Nat) :
    ∃ out e', Env.run none eng e (frames.map Wiring.engine.accept ++ [.fill n]) = some (out, e') := by
  induction frames generalizing e with
  | nil => exact ⟨_, _, run_cons.mpr ⟨_, _, [], rfl, rfl, rfl⟩⟩
  | cons f fs ih =>
    obtain ⟨e1, hev⟩ : ∃ e1, e.event none eng (.submit f) = some ([], e1) := ⟨_, rfl⟩
    obtain ⟨out, e', hrest⟩ := ih e1
    exact ⟨_, e', run_cons.mpr ⟨[], e1, out, hev, hrest, rfl⟩⟩

theorem callback_raw {eng : Engine} {x : World} {block : List Word} (hs : Legal x.machine)
    (hoff : x.machine.chainEn = false) (hq : x.machine.cfg.qdepth = none) (hne : block ≠ [])
    (hx : allFinite block = true) : ∃ out x', x.callback .engine eng block = some (out, x') := by
  obtain ⟨frames, t, hpush⟩ := pushAll_raw hs hoff
    fun p (hp : p ∈ pieces block.length block) => ⟨pieces_finite hx hp, pieces_wellFormed hp⟩
  obtain ⟨out, e, hrun⟩ := run_submits_fill eng x.env frames block.length
  refine ⟨out, ⟨t, e⟩, ?_⟩
  have hopen : ¬((block.isEmpty || (Wiring.engine == .standalone && !x.machine.chainEn)) = true) := by
    simp [hne]
  rw [World.callback, if_neg hopen, hpush, hq]
  exact Option.bind_eq_some_iff.mpr ⟨_, rfl, Option.bind_eq_some_iff.mpr ⟨_, hrun, rfl⟩⟩

/-! INIT as the host sends it. -/

theorem init_wellFormed (n : BitVec 24) : (Instr.init n).wellFormed = true := rfl

theorem send_init_of_bad_size {x : World} {n : BitVec 24} (h : n.toNat = 0 ∨ x.machine.cfg.fftN < n.toNat) :
    x.send (.init n) = some ⟨x.machine.raise .cfg Opcode.init.bits, x.env⟩ := by
  have hexec : exec (.init n) x.machine = .next (x.machine.raise .cfg Opcode.init.bits) := exec_of_error (if_pos h)
  have hhost := hostCommand_of_exec (packets := []) (init_wellFormed n) hexec rfl (by simp)
  have hstatus : ¬(doneStatus (doneWord ErrCode.cfg.code Opcode.init.bits) = 0#4) := by decide
  rw [World.send, hhost]
  exact congrArg (fun e => some (World.mk _ e)) (if_neg fun hc => hstatus hc.2)

theorem send_init_of_good_size {x : World} {n : BitVec 24} (h : ¬(n.toNat = 0 ∨ x.machine.cfg.fftN < n.toNat)) :
    x.send (.init n) = some ⟨(x.machine.reinit n).answered [] .init, x.env.resetQueues⟩ := by
  have hexec : exec (.init n) x.machine = .next ((x.machine.reinit n).answered [] .init) :=
    exec_of_performs (.init h)
  have hhost := hostCommand_of_exec (packets := []) (init_wellFormed n) hexec rfl (by simp)
  have hstatus : doneStatus (doneWord 0#4 Opcode.init.bits) = 0#4 := by decide
  rw [World.send, hhost]
  exact congrArg (fun e => some (World.mk _ e)) (if_pos ⟨rfl, hstatus⟩)

end Sys2Proof.Machine
end

/-! ### The obligation on the callback and INIT -/

section
open Sys2Proof Sys2Proof.Machine

/-- Settles O60: a callback is PUSHes, which keep the registers (`pushAll_keeps`), and a run, which plays
what it is asked for (`run_length`); in raw mode nothing refuses (`callback_raw`); INIT is `send_init_…`. -/
theorem callbackPlaysAFullBlockAndInitEmptiesTheQueues :
    Obligations.CallbackPlaysAFullBlockAndInitEmptiesTheQueues := by
  unfold Obligations.CallbackPlaysAFullBlockAndInitEmptiesTheQueues
  refine ⟨?_, ?_, ?_, ?_⟩
  · intro w eng x x' block out h
    obtain ⟨frames, hpush, hrun⟩ := callback_some h
    exact ⟨(run_length hrun).trans (samplesAsked_callback w frames block.length), pushAll_keeps hpush⟩
  · exact fun eng x block hs hoff hq hne hx => callback_raw hs hoff hq hne hx
  · intro x n
    by_cases h : n.toNat = 0 ∨ x.machine.cfg.fftN < n.toNat
    · refine ⟨x.machine.raise .cfg Opcode.init.bits, ?_⟩
      rw [if_pos h]
      exact ⟨send_init_of_bad_size h, rfl, rfl⟩
    · refine ⟨(x.machine.reinit n).answered [] .init, ?_⟩
      rw [if_neg h]
      exact ⟨send_init_of_good_size h, rfl, rfl⟩
  · exact fun eng x hlt => if_pos hlt

end

/-! ### The values of the words (spec/00_scope.md R12, R65) -/

section
namespace Sys2Proof.Machine

/-- The magnitude, in units of 2^-149, that the 31 low bits `b` of a word stand for; also beyond the
finite words. -/
def magOfBits (b : Nat) : Nat :=
  if b / 2 ^ 23 = 0 then b % 2 ^ 23 else (2 ^ 23 + b % 2 ^ 23) * 2 ^ (b / 2 ^ 23 - 1)

theorem mag_eq_magOfBits (w : Word) : F32.mag w = magOfBits (w.toNat % 2 ^ 31) := by
  have he : w.toNat / 2 ^ 23 % 2 ^ 8 = w.toNat % 2 ^ 31 / 2 ^ 23 := by omega
  have hf : w.toNat % 2 ^ 23 = w.toNat % 2 ^ 31 % 2 ^ 23 := by omega
  simp only [F32.mag, magOfBits, BitVec.extractLsb'_toNat, Nat.shiftRight_eq_div_pow, he, pow_zero, Nat.div_one, hf]

theorem isFinite_iff_bits (w : Word) : F32.isFinite w = true ↔ w.toNat % 2 ^ 31 < 0x7F800000 := by
  rw [F32.isFinite, bne_iff_ne, ne_eq, ← BitVec.toNat_inj, BitVec.extractLsb'_toNat, Nat.shiftRight_eq_div_pow,
    BitVec.toNat_ofNat]
  omega

theorem sign_eq_decide (w : Word) : F32.sign w = decide (2 ^ 31 ≤ w.toNat) := BitVec.msb_eq_decide w

theorem pack_toNat (neg : Bool) {b : Nat} (h : b < 2 ^ 31) :
    (F32.pack neg b).toNat = (if neg then 2 ^ 31 else 0) + b := by
  have hb : (BitVec.ofNat 32 b).toNat = b := by rw [BitVec.toNat_ofNat]; omega
  cases neg with
  | false =>
    rw [F32.pack, BitVec.toNat_or, hb]
    exact (Nat.zero_or b).trans (Nat.zero_add b).symm
  | true =>
    have hsum : 1 <<< 31 + b = 1 <<< 31 ||| b := Nat.shiftLeft_add_eq_or_of_lt h 1
    rw [F32.pack, BitVec.toNat_or, hb]
    exact hsum.symm

theorem mag_pack (neg : Bool) {b : Nat} (h : b < 2 ^ 31) : F32.mag (F32.pack neg b) = magOfBits b := by
  have hbits : (F32.pack neg b).toNat % 2 ^ 31 = b := by
    rw [pack_toNat neg h]
    split <;> omega
  rw [mag_eq_magOfBits, hbits]

theorem sign_pack (neg : Bool) {b : Nat} (h : b < 2 ^ 31) : F32.sign (F32.pack neg b) = neg := by
  rw [sign_eq_decide, pack_toNat neg h]
  cases neg
  · exact decide_eq_false (by simpa using h)
  · exact decide_eq_true (Nat.le_add_right _ _)

theorem pack_getLsbD_zero (neg : Bool) {b : Nat} (h : b < 2 ^ 31) (heven : b % 2 = 0) :
    (F32.pack neg b).getLsbD 0 = false := by
  rw [BitVec.getLsbD, pack_toNat neg h, Nat.testBit_zero, decide_eq_false_iff_not]
  split <;> omega

/-- The integer `m` with the minus sign or without it. -/
def signed (neg : Bool) (m : Int) : Int := if neg then -m else m

theorem toInt_eq_signed (w : Word) : F32.toInt w = signed (F32.sign w) (F32.mag w) := rfl

theorem toInt_pack (neg : Bool) {b : Nat} (h : b < 2 ^ 31) : F32.toInt (F32.pack neg b) = signed neg (magOfBits b) := by
  rw [toInt_eq_signed, sign_pack neg h, mag_pack neg h]

theorem natAbs_toInt (w : Word) : (F32.toInt w).natAbs = F32.mag w := by
  rw [F32.toInt]
  split <;> simp

/-! The magnitudes as multiples of a power of two. -/

/-- The magnitude of `k * 2^23 + m`, for a significand `m` of at most 24 bits, or one more. -/
theorem magOfBits_scaled {k m : Nat} (hm : m ≤ 2 ^ 24) (hk : k = 0 ∨ 2 ^ 23 ≤ m) :
    magOfBits (k * 2 ^ 23 + m) = m * 2 ^ k := by
  rcases Nat.lt_or_ge m (2 ^ 23) with hsub | hnormal
  · obtain rfl := hk.resolve_right (by omega)
    rw [magOfBits, if_pos (by omega)]
    omega
  · rcases Nat.lt_or_eq_of_le hm with hlt | rfl
    · have hexp : (k * 2 ^ 23 + m) / 2 ^ 23 = k + 1 := by omega
      have hfrac : 2 ^ 23 + (k * 2 ^ 23 + m) % 2 ^ 23 = m := by omega
      rw [magOfBits, hexp, hfrac, if_neg (Nat.succ_ne_zero k), Nat.add_sub_cancel]
    · have hexp : (k * 2 ^ 23 + 2 ^ 24) / 2 ^ 23 = k + 2 := by omega
      have hfrac : 2 ^ 23 + (k * 2 ^ 23 + 2 ^ 24) % 2 ^ 23 = 2 ^ 23 := by omega
      rw [magOfBits, hexp, hfrac, if_neg (by omega)]
      change 2 ^ 23 * 2 ^ (k + 1) = 2 ^ 24 * 2 ^ k
      ring

theorem exists_scaled (b : Nat) : ∃ k m, b = k * 2 ^ 23 + m ∧ m < 2 ^ 24 ∧ (k = 0 ∨ 2 ^ 23 ≤ m) := by
  refine ⟨b / 2 ^ 23 - 1, b - (b / 2 ^ 23 - 1) * 2 ^ 23, ?_, ?_, ?_⟩ <;> omega

theorem magOfBits_strictMono : StrictMono magOfBits := by
  refine strictMono_nat_of_lt_succ fun b => ?_
  obtain ⟨k, m, rfl, hm, hk⟩ := exists_scaled b
  rw [magOfBits_scaled (Nat.le_of_lt hm) hk, Nat.add_assoc,
    magOfBits_scaled hm (hk.imp_right fun h => Nat.le_succ_of_le h)]
  exact Nat.mul_lt_mul_of_pos_right (Nat.lt_succ_self m) (Nat.two_pow_pos k)

theorem magOfBits_zero : magOfBits 0 = 0 := rfl

/-- From `2^(k + 23)` on every magnitude is a multiple of `2^k`. -/
theorem dvd_magOfBits {k b : Nat} (h : 2 ^ (k + 23) ≤ magOfBits b) : 2 ^ k ∣ magOfBits b := by
  obtain ⟨k', m, rfl, hm, hk⟩ := exists_scaled b
  rw [magOfBits_scaled (Nat.le_of_lt hm) hk] at h ⊢
  have hlt : 2 ^ (k + 23) < 2 ^ (24 + k') := by
    calc 2 ^ (k + 23) ≤ m * 2 ^ k' := h
      _ < 2 ^ 24 * 2 ^ k' := Nat.mul_lt_mul_of_pos_right hm (Nat.two_pow_pos k')
      _ = 2 ^ (24 + k') := (pow_add 2 24 k').symm
  have hle : k ≤ k' := by
    have := (Nat.pow_lt_pow_iff_right (by omega : 1 < 2)).mp hlt
    omega
  exact Dvd.dvd.mul_left (pow_dvd_pow 2 hle) m

/-! ### One rounding (spec/48_arithmetic_and_classes.md R304) -/

/-- `nearestEven` is off by at most half a unit, and by half only where it is even. -/
theorem nearestEven_half (N : Nat) {D : Nat} (hD : 0 < D) :
    2 * ((F32.nearestEven N D : Int) * D - N).natAbs ≤ D ∧
    (2 * ((F32.nearestEven N D : Int) * D - N).natAbs = D → F32.nearestEven N D % 2 = 0) := by
  have hN : (N : Int) = (N / D : Nat) * D + (N % D : Nat) := by
    exact_mod_cast (Nat.div_add_mod' N D).symm
  have hr : N % D < D := Nat.mod_lt N hD
  have hnear : F32.nearestEven N D =
      if 2 * (N % D) < D then N / D else if D < 2 * (N % D) then N / D + 1 else N / D + N / D % 2 := rfl
  rw [hN, hnear]
  generalize N / D = q at *
  generalize N % D = r at *
  have hdown : ((q : Nat) : Int) * D - (q * D + r) = -r := by ring
  have hup : ((q + 1 : Nat) : Int) * D - (q * D + r) = D - r := by push_cast; ring
  split_ifs with hlow hhigh
  · rw [hdown]
    omega
  · rw [hup]
    omega
  · rcases Nat.mod_two_eq_zero_or_one q with heven | hodd
    · rw [heven, Nat.add_zero, hdown]
      omega
    · rw [hodd, hup]
      omega

/-- The nearest multiple of `D`, and of two the even one. -/
theorem nearestEven_nearest {N D : Nat} (hD : 0 < D) (j : Int) :
    ((F32.nearestEven N D : Int) * D - N).natAbs ≤ (j * D - N).natAbs ∧
    (((F32.nearestEven N D : Int) * D - N).natAbs = (j * D - N).natAbs → j ≠ F32.nearestEven N D →
      F32.nearestEven N D % 2 = 0) := by
  obtain ⟨hhalf, heven⟩ := nearestEven_half N hD
  generalize F32.nearestEven N D = m at *
  by_cases hj : j = m
  · rw [hj]
    exact ⟨Nat.le_refl _, fun _ hne => absurd rfl hne⟩
  · have hfar : D ≤ ((j - m) * D).natAbs := by
      rw [Int.natAbs_mul, Int.natAbs_natCast]
      exact Nat.le_mul_of_pos_left D (Int.natAbs_pos.mpr (sub_ne_zero.mpr hj))
    have hsum : j * D - N = (m * D - N) + (j - m) * D := by ring
    rw [hsum]
    generalize (m * D - N : Int) = x at *
    generalize (j - m) * D = y at *
    exact ⟨by omega, fun htie _ => heven (by omega)⟩

/-- The exponent that `roundMag` gives the rounded value `N / D`. -/
def roundScale (N D : Nat) : Nat := Nat.log2 (N / D) - 23

/-- The 31 low bits that `roundMag` computes, in range or not. -/
def roundBits (N D : Nat) : Nat := roundScale N D * 2 ^ 23 + F32.nearestEven N (D * 2 ^ roundScale N D)

theorem roundMag_eq (N D : Nat) :
    F32.roundMag N D = if roundBits N D < 0x7F800000 then some (roundBits N D) else none := rfl

theorem nearestEven_bounds (N D : Nat) : N / D ≤ F32.nearestEven N D ∧ F32.nearestEven N D ≤ N / D + 1 := by
  have hnear : F32.nearestEven N D =
      if 2 * (N % D) < D then N / D else if D < 2 * (N % D) then N / D + 1 else N / D + N / D % 2 := rfl
  rw [hnear]
  split_ifs <;> omega

/-- With its exponent the rounded value is a significand of 24 bits (or one more). -/
theorem roundScale_significand (N D : Nat) :
    F32.nearestEven N (D * 2 ^ roundScale N D) ≤ 2 ^ 24 ∧
    (roundScale N D = 0 ∨ (2 ^ 23 ≤ F32.nearestEven N (D * 2 ^ roundScale N D) ∧
      2 ^ (roundScale N D + 23) ≤ N / D)) := by
  obtain ⟨hlow, hhigh⟩ := nearestEven_bounds N (D * 2 ^ roundScale N D)
  rw [← Nat.div_div_eq_div_mul] at hlow hhigh
  have hlt : N / D < 2 ^ (Nat.log2 (N / D) + 1) := Nat.lt_log2_self
  have hq : N / D / 2 ^ roundScale N D < 2 ^ 24 := by
    rw [Nat.div_lt_iff_lt_mul (Nat.two_pow_pos _), ← pow_add]
    exact hlt.trans_le (Nat.pow_le_pow_right (by omega) (by rw [roundScale]; omega))
  refine ⟨by omega, ?_⟩
  rcases Nat.eq_zero_or_pos (roundScale N D) with h0 | hpos
  · exact .inl h0
  · have hlog : roundScale N D + 23 = Nat.log2 (N / D) := by rw [roundScale] at hpos ⊢; omega
    have hne : N / D ≠ 0 := by
      intro h0
      rw [roundScale, h0] at hpos
      simp at hpos
    have hge : 2 ^ (roundScale N D + 23) ≤ N / D := hlog ▸ Nat.log2_self_le hne
    refine .inr ⟨le_trans ?_ hlow, hge⟩
    rw [Nat.le_div_iff_mul_le (Nat.two_pow_pos _), ← pow_add, Nat.add_comm 23]
    exact hge

theorem magOfBits_roundBits (N D : Nat) :
    magOfBits (roundBits N D) = F32.nearestEven N (D * 2 ^ roundScale N D) * 2 ^ roundScale N D := by
  obtain ⟨hle, hk⟩ := roundScale_significand N D
  exact magOfBits_scaled hle (hk.imp_right And.left)

/-- A value that a word can have, or one below zero. -/
def OnGrid (u : Int) : Prop := u < 0 ∨ ∃ b, u = (magOfBits b : Nat)

/-- No value of a word is nearer `N / D` than the rounded one, and of two equally near ones it is the one
whose last bit is 0. -/
theorem roundBits_nearest {N D : Nat} (hD : 0 < D) {u : Int} (hu : OnGrid u) :
    ((magOfBits (roundBits N D) : Int) * D - N).natAbs ≤ (u * D - N).natAbs ∧
    (((magOfBits (roundBits N D) : Int) * D - N).natAbs = (u * D - N).natAbs → u ≠ magOfBits (roundBits N D) →
      roundBits N D % 2 = 0) := by
  obtain ⟨-, hscale⟩ := roundScale_significand N D
  have hbits : roundBits N D % 2 = F32.nearestEven N (D * 2 ^ roundScale N D) % 2 := by
    rw [roundBits]
    omega
  have hgrid (j : Int) := nearestEven_nearest (N := N) (Nat.mul_pos hD (Nat.two_pow_pos (roundScale N D))) j
  rw [magOfBits_roundBits, hbits]
  generalize F32.nearestEven N (D * 2 ^ roundScale N D) = m at *
  generalize roundScale N D = k at *
  have hunit (j : Int) : j * ((D * 2 ^ k : Nat) : Int) = j * 2 ^ k * D := by push_cast; ring
  simp only [hunit] at hgrid
  push_cast
  by_cases hdvd : (2 ^ k : Int) ∣ u
  · obtain ⟨j, rfl⟩ := hdvd
    rw [mul_comm (2 ^ k : Int) j]
    obtain ⟨hle, htie⟩ := hgrid j
    exact ⟨hle, fun heq hne => htie heq fun hj => hne (by rw [hj])⟩
  · have hpos : k ≠ 0 := by
      rintro rfl
      exact hdvd (by rw [pow_zero]; exact one_dvd u)
    obtain ⟨hm, hquot⟩ := hscale.resolve_left hpos
    have hbelow : u < 2 ^ (k + 23) := by
      rcases hu with hneg | ⟨b, rfl⟩
      · exact hneg.trans (by positivity)
      · by_contra hge
        rw [not_lt] at hge
        exact hdvd (by exact_mod_cast dvd_magOfBits (k := k) (by exact_mod_cast hge))
    have hexp : (2 : Int) ^ 23 * 2 ^ k = 2 ^ (k + 23) := by ring
    have hN : (2 : Int) ^ (k + 23) * D ≤ N := by
      exact_mod_cast (Nat.le_div_iff_mul_le hD).mp hquot
    have hlt : u * D < (2 : Int) ^ (k + 23) * D := mul_lt_mul_of_pos_right hbelow (by exact_mod_cast hD)
    have hcorner := (hgrid (2 ^ 23)).1
    rw [hexp] at hcorner
    omega

end Sys2Proof.Machine
end

/-! ### The rounded word (spec/48_arithmetic_and_classes.md R302, R304) -/

section
namespace Sys2Proof.Machine

theorem signed_signed (neg : Bool) (x : Int) : signed neg (signed neg x) = x := by
  cases neg
  · rfl
  · exact neg_neg x

theorem signed_mul (neg neg' : Bool) (x y : Int) : signed neg x * signed neg' y = signed (neg != neg') (x * y) := by
  cases neg <;> cases neg' <;> simp [signed]

/-- A distance does not see a sign that both places carry. -/
theorem natAbs_signed_sub (neg : Bool) (x y : Int) (D : Nat) :
    (x * D - signed neg y).natAbs = (signed neg x * D - y).natAbs := by
  cases neg
  · rfl
  · have hneg : -x * D - y = -(x * D - -y) := by ring
    exact (Int.natAbs_neg (x * D - -y)).symm.trans (congrArg Int.natAbs hneg.symm)

/-- Read with the sign or without it, the value of a word stands in the grid of magnitudes. -/
theorem onGrid_signed_toInt (neg : Bool) (v : Word) : OnGrid (signed neg (F32.toInt v)) := by
  have hmag : F32.toInt v = F32.mag v ∨ F32.toInt v = -(F32.mag v : Int) := by
    rw [F32.toInt]
    split
    · exact .inr rfl
    · exact .inl rfl
  have hcases : signed neg (F32.toInt v) = F32.mag v ∨ signed neg (F32.toInt v) = -(F32.mag v : Int) := by
    cases neg
    · exact hmag
    · refine hmag.symm.imp (fun h => ?_) (fun h => congrArg Neg.neg h)
      rw [h]
      exact neg_neg _
  rw [mag_eq_magOfBits] at hcases
  rcases hcases with h | h
  · exact .inr ⟨_, h⟩
  · rcases Nat.eq_zero_or_pos (magOfBits (v.toNat % 2 ^ 31)) with h0 | hpos
    · exact .inr ⟨0, by rw [h, h0, magOfBits_zero]; rfl⟩
    · exact .inl (by omega)

theorem round_eq_some_iff {neg : Bool} {N D : Nat} {w : Word} :
    F32.round neg N D = some w ↔ roundBits N D < 0x7F800000 ∧ F32.pack neg (roundBits N D) = w := by
  rw [F32.round, roundMag_eq]
  split <;> simp [*]

/-- `w` is the finite word nearest the ratio `num / den`, of two equally near ones the one whose last bit
is 0. -/
def RoundedTo (w : Word) (num den : Int) : Prop :=
  F32.isFinite w = true ∧ ∀ v : Word, F32.isFinite v = true →
    (F32.toInt w * den - num).natAbs ≤ (F32.toInt v * den - num).natAbs ∧
    ((F32.toInt w * den - num).natAbs = (F32.toInt v * den - num).natAbs → F32.toInt v ≠ F32.toInt w →
      w.getLsbD 0 = false)

theorem round_roundedTo {neg : Bool} {N D : Nat} {w : Word} (hD : 0 < D) (h : F32.round neg N D = some w) :
    RoundedTo w (signed neg N) D := by
  obtain ⟨hrange, rfl⟩ := round_eq_some_iff.mp h
  have hbits : roundBits N D < 2 ^ 31 := by omega
  refine ⟨pack_isFinite neg hrange, fun v _ => ?_⟩
  obtain ⟨hle, heven⟩ := roundBits_nearest (N := N) hD (onGrid_signed_toInt neg v)
  rw [toInt_pack neg hbits, natAbs_signed_sub, natAbs_signed_sub, signed_signed]
  refine ⟨hle, fun htie hne => pack_getLsbD_zero neg hbits (heven htie fun hsame => hne ?_)⟩
  rw [← hsame, signed_signed]

theorem mag_greatest : F32.mag 0x7F7FFFFF#32 = magOfBits 0x7F7FFFFF := mag_eq_magOfBits _

/-- A value up to the largest finite one has a rounded word. -/
theorem round_isSome {neg : Bool} {N D : Nat} (hD : 0 < D) (h : N ≤ F32.mag 0x7F7FFFFF#32 * D) :
    (F32.round neg N D).isSome = true := by
  rw [Option.isSome_iff_exists]
  refine ⟨_, round_eq_some_iff.mpr ⟨?_, rfl⟩⟩
  by_contra hover
  have hgreater : magOfBits 0x7F7FFFFF < magOfBits (roundBits N D) := magOfBits_strictMono (by omega)
  have hnear := (roundBits_nearest (N := N) hD (.inr ⟨0x7F7FFFFF, rfl⟩)).1
  rw [mag_greatest] at h
  have hmul : magOfBits 0x7F7FFFFF * D < magOfBits (roundBits N D) * D := Nat.mul_lt_mul_of_pos_right hgreater hD
  have hmul' : (magOfBits 0x7F7FFFFF : Int) * D < magOfBits (roundBits N D) * D := by exact_mod_cast hmul
  have h' : (N : Int) ≤ magOfBits 0x7F7FFFFF * D := by exact_mod_cast h
  omega

/-- The magnitude of a word is not rounded. -/
theorem round_magOfBits {neg : Bool} {b D : Nat} (hD : 0 < D) (hb : b < 0x7F800000) :
    F32.round neg (magOfBits b * D) D = some (F32.pack neg b) := by
  have hnear := (roundBits_nearest (N := magOfBits b * D) hD (.inr ⟨b, rfl⟩)).1
  have hdist : (magOfBits (roundBits (magOfBits b * D) D) : Int) * D = magOfBits b * D := by
    push_cast at hnear
    omega
  have hsame : roundBits (magOfBits b * D) D = b :=
    magOfBits_strictMono.injective (Nat.eq_of_mul_eq_mul_right hD (by exact_mod_cast hdist))
  exact round_eq_some_iff.mpr ⟨by rw [hsame]; exact hb, by rw [hsame]⟩

/-! The sign change. -/

theorem neg_toNat_mod (w : Word) : (F32.neg w).toNat % 2 ^ 31 = w.toNat % 2 ^ 31 := by
  rw [F32.neg, BitVec.toNat_xor, Nat.xor_mod_two_pow]
  exact Nat.xor_zero _

theorem mag_neg (w : Word) : F32.mag (F32.neg w) = F32.mag w := by
  rw [mag_eq_magOfBits, mag_eq_magOfBits, neg_toNat_mod]

theorem sign_neg (w : Word) : F32.sign (F32.neg w) = !F32.sign w := by
  rw [F32.sign, F32.neg, BitVec.msb_xor]
  exact Bool.xor_true _

theorem toInt_neg (w : Word) : F32.toInt (F32.neg w) = -F32.toInt w := by
  rw [F32.toInt, F32.toInt, sign_neg, mag_neg]
  cases F32.sign w <;> simp

/-! What the operations round. -/

theorem add_eq {a b : Word} (ha : F32.isFinite a = true) (hb : F32.isFinite b = true) :
    F32.add a b = if F32.toInt a + F32.toInt b = 0 then
        some (if F32.sign a && F32.sign b then F32.negZero else F32.posZero)
      else F32.round (decide (F32.toInt a + F32.toInt b < 0)) (F32.toInt a + F32.toInt b).natAbs 1 := by
  rw [F32.add, ha, hb]
  exact if_pos rfl

theorem mul_eq {a b : Word} (ha : F32.isFinite a = true) (hb : F32.isFinite b = true) :
    F32.mul a b = F32.round (F32.sign a != F32.sign b) (F32.mag a * F32.mag b) (2 ^ 149) := by
  rw [F32.mul, ha, hb]
  exact if_pos rfl

theorem div_eq {a b : Word} (ha : F32.isFinite a = true) (hb : F32.isFinite b = true) (h0 : F32.mag b ≠ 0) :
    F32.div a b = F32.round (F32.sign a != F32.sign b) (F32.mag a * 2 ^ 149) (F32.mag b) := by
  rw [F32.div, ha, hb, bne_iff_ne.mpr h0]
  exact if_pos rfl

theorem finite_of_mul {a b w : Word} (h : F32.mul a b = some w) : F32.isFinite a = true ∧ F32.isFinite b = true := by
  rw [F32.mul] at h
  split at h
  case isTrue hfin => rwa [Bool.and_eq_true] at hfin
  case isFalse => cases h

theorem finite_of_div {a b w : Word} (h : F32.div a b = some w) :
    (F32.isFinite a = true ∧ F32.isFinite b = true) ∧ F32.mag b ≠ 0 := by
  rw [F32.div] at h
  split at h
  case isTrue hfin => rwa [Bool.and_eq_true, Bool.and_eq_true, bne_iff_ne] at hfin
  case isFalse => cases h

theorem signed_decide_natAbs (z : Int) : signed (decide (z < 0)) z.natAbs = z := by
  by_cases h : z < 0
  · rw [decide_eq_true h]
    exact (congrArg Neg.neg (Int.ofNat_natAbs_of_nonpos h.le)).trans (neg_neg z)
  · rw [decide_eq_false h]
    exact Int.natAbs_of_nonneg (not_lt.mp h)

/-- The zero that an exact zero sum gives. -/
theorem zero_word_facts (neg : Bool) :
    let w := if neg then F32.negZero else F32.posZero
    F32.isFinite w = true ∧ F32.toInt w = 0 ∧ w.getLsbD 0 = false := by
  cases neg <;> decide

theorem add_isSome {a b : Word} (ha : F32.isFinite a = true) (hb : F32.isFinite b = true)
    (h : (F32.toInt a + F32.toInt b).natAbs ≤ F32.mag 0x7F7FFFFF#32) : (F32.add a b).isSome = true := by
  rw [add_eq ha hb]
  split
  · rfl
  · exact round_isSome Nat.one_pos (h.trans_eq (Nat.mul_one _).symm)

theorem add_roundedTo {a b w : Word} (ha : F32.isFinite a = true) (hb : F32.isFinite b = true)
    (h : F32.add a b = some w) : RoundedTo w (F32.toInt a + F32.toInt b) 1 := by
  rw [add_eq ha hb] at h
  split at h
  case isTrue hz =>
    obtain ⟨hfin, hzero, heven⟩ := zero_word_facts (F32.sign a && F32.sign b)
    rw [Option.some.inj h] at hfin hzero heven
    refine ⟨hfin, fun v _ => ⟨?_, fun _ _ => heven⟩⟩
    rw [hz, hzero]
    exact Nat.zero_le _
  case isFalse =>
    have hround := round_roundedTo Nat.one_pos h
    rwa [signed_decide_natAbs] at hround

theorem toInt_mul_toInt (a b : Word) :
    F32.toInt a * F32.toInt b = signed (F32.sign a != F32.sign b) (F32.mag a * F32.mag b : Nat) := by
  rw [toInt_eq_signed, toInt_eq_signed, signed_mul, Nat.cast_mul]

theorem mul_roundedTo {a b w : Word} (h : F32.mul a b = some w) :
    RoundedTo w (F32.toInt a * F32.toInt b) (2 ^ 149) := by
  obtain ⟨ha, hb⟩ := finite_of_mul h
  rw [mul_eq ha hb] at h
  rw [toInt_mul_toInt]
  exact_mod_cast round_roundedTo (Nat.two_pow_pos 149) h

/-- A ratio does not change when numerator and denominator change sign. -/
theorem RoundedTo.signed {w : Word} {num den : Int} (neg : Bool) (h : RoundedTo w num den) :
    RoundedTo w (Machine.signed neg num) (Machine.signed neg den) := by
  cases neg
  · exact h
  · have hdist (x : Int) : (x * Machine.signed true den - Machine.signed true num).natAbs = (x * den - num).natAbs := by
      have hneg : x * -den - -num = -(x * den - num) := by ring
      exact (congrArg Int.natAbs hneg).trans (Int.natAbs_neg _)
    simpa only [RoundedTo, hdist] using h

theorem div_roundedTo {a b w : Word} (h : F32.div a b = some w) :
    RoundedTo w (F32.toInt a * 2 ^ 149) (F32.toInt b) := by
  obtain ⟨⟨ha, hb⟩, h0⟩ := finite_of_div h
  rw [div_eq ha hb h0] at h
  have hround := (round_roundedTo (Nat.pos_of_ne_zero h0) h).signed (F32.sign b)
  have hnum : signed (F32.sign b) (signed (F32.sign a != F32.sign b) (F32.mag a * 2 ^ 149 : Nat)) =
      F32.toInt a * 2 ^ 149 := by
    rw [toInt_eq_signed a]
    cases F32.sign a <;> cases F32.sign b <;> simp [Machine.signed]
  rwa [hnum, ← toInt_eq_signed] at hround

/-! Small naturals. -/

/-- Up to `2^24` the naturals are values of words, in units of 2^-149. -/
theorem exists_magOfBits_natural {n : Nat} (h : n ≤ 2 ^ 24) : ∃ b, b < 0x7F800000 ∧ magOfBits b = n * 2 ^ 149 := by
  rcases Nat.eq_zero_or_pos n with rfl | hpos
  · exact ⟨0, by decide, by rw [magOfBits_zero, Nat.zero_mul]⟩
  rcases Nat.lt_or_eq_of_le h with hlt | rfl
  · have hlog : Nat.log2 n ≤ 23 := Nat.lt_succ_iff.mp ((Nat.log2_lt hpos.ne').mpr hlt)
    have hup : n * 2 ^ (23 - Nat.log2 n) < 2 ^ 24 := by
      calc n * 2 ^ (23 - Nat.log2 n) < 2 ^ (Nat.log2 n + 1) * 2 ^ (23 - Nat.log2 n) :=
            Nat.mul_lt_mul_of_pos_right Nat.lt_log2_self (Nat.two_pow_pos _)
        _ = 2 ^ 24 := by rw [← pow_add]; congr 1; omega
    have hdown : 2 ^ 23 ≤ n * 2 ^ (23 - Nat.log2 n) := by
      calc 2 ^ 23 = 2 ^ Nat.log2 n * 2 ^ (23 - Nat.log2 n) := by rw [← pow_add]; congr 1; omega
        _ ≤ n * 2 ^ (23 - Nat.log2 n) := Nat.mul_le_mul_right _ (Nat.log2_self_le hpos.ne')
    refine ⟨(126 + Nat.log2 n) * 2 ^ 23 + n * 2 ^ (23 - Nat.log2 n), by omega, ?_⟩
    rw [magOfBits_scaled hup.le (.inr hdown), Nat.mul_assoc, ← pow_add]
    congr 2
    omega
  · exact ⟨149 * 2 ^ 23 + 2 ^ 24, by decide, magOfBits_scaled le_rfl (.inr (by decide))⟩

theorem fromNat_small {n : Nat} (h : n ≤ 2 ^ 24) :
    ∃ w, F32.fromNat n = some w ∧ F32.isFinite w = true ∧ F32.toInt w = n * 2 ^ 149 := by
  obtain ⟨b, hb, hval⟩ := exists_magOfBits_natural h
  have hround := round_magOfBits (neg := false) Nat.one_pos hb
  rw [hval, Nat.mul_one] at hround
  refine ⟨F32.pack false b, hround, pack_isFinite false hb, ?_⟩
  rw [toInt_pack false (by omega), hval, signed]
  exact_mod_cast rfl

end Sys2Proof.Machine
end

/-! ### Settling the statements about sums, products and naturals -/

section
open Sys2Proof Sys2Proof.Machine

/-- Settles O52: the exact sum is an integer, rounded once. -/
theorem sumsRoundToNearestEven : Obligations.SumsRoundToNearestEven := by
  unfold Obligations.SumsRoundToNearestEven
  intro a b ha hb op exact hop
  obtain ⟨b', hb', hopEq, hexact⟩ : ∃ b', F32.isFinite b' = true ∧ op a b = F32.add a b' ∧
      exact = F32.toInt a + F32.toInt b' := by
    rcases hop with ⟨rfl, rfl⟩ | ⟨rfl, rfl⟩
    · exact ⟨b, hb, rfl, rfl⟩
    · exact ⟨F32.neg b, (isFinite_neg b).trans hb, rfl, by rw [toInt_neg]; rfl⟩
  rw [hopEq, hexact]
  refine ⟨add_isSome ha hb', fun w hw => ?_⟩
  simpa only [RoundedTo, mul_one] using add_roundedTo ha hb' hw

/-- Settles O53: product and quotient are one ratio of integers each, rounded once. -/
theorem productsRoundToNearestEven : Obligations.ProductsRoundToNearestEven := by
  unfold Obligations.ProductsRoundToNearestEven
  rintro a b op num den (⟨rfl, rfl, rfl⟩ | ⟨rfl, rfl, rfl⟩)
  · refine ⟨fun ha hb _ hrange => ?_, fun w hw => mul_roundedTo hw⟩
    rw [mul_eq ha hb]
    rw [Int.natAbs_mul, natAbs_toInt, natAbs_toInt] at hrange
    exact round_isSome (Nat.two_pow_pos 149) hrange
  · refine ⟨fun ha hb hne hrange => ?_, fun w hw => div_roundedTo hw⟩
    have hmag : F32.mag b ≠ 0 := natAbs_toInt b ▸ Int.natAbs_ne_zero.mpr hne
    rw [div_eq ha hb hmag]
    rw [Int.natAbs_mul, natAbs_toInt, natAbs_toInt] at hrange
    exact round_isSome (Nat.pos_of_ne_zero hmag) hrange

/-- Settles O55: a natural of at most 24 bits is a significand. -/
theorem smallNaturalsAreExact : Obligations.SmallNaturalsAreExact := by
  unfold Obligations.SmallNaturalsAreExact
  exact fun _ h => fromNat_small h

end

/-! ### Zeros under the default numerics (spec/00_scope.md R12, spec/48_arithmetic_and_classes.md R304) -/

section
namespace Sys2Proof.Machine

theorem isZero_iff_mag (w : Word) : isZero w = true ↔ F32.mag w = 0 := beq_iff_eq

theorem isZero_iff_toInt (w : Word) : isZero w = true ↔ F32.toInt w = 0 := by
  rw [isZero_iff_mag, ← natAbs_toInt, Int.natAbs_eq_zero]

theorem isFinite_of_isZero {w : Word} (h : isZero w = true) : F32.isFinite w = true := by
  rw [isZero_iff_mag, mag_eq_magOfBits, ← magOfBits_zero] at h
  rw [isFinite_iff_bits, magOfBits_strictMono.injective h]
  decide

theorem allFinite_of_all_isZero {xs : List Word} (h : xs.all isZero = true) : allFinite xs = true := by
  rw [List.all_eq_true] at h
  exact List.all_eq_true.mpr fun x hx => isFinite_of_isZero (h x hx)

theorem negative_of_isZero {w : Word} (h : isZero w = true) : negative w = false := by
  rw [negative, F32.lt, (isZero_iff_toInt w).mp h]
  decide

theorem isZero_neg {w : Word} (h : isZero w = true) : isZero (F32.neg w) = true := by
  rw [isZero_iff_mag] at h ⊢
  rw [mag_neg, h]

/-- Zero rounds to a zero. -/
theorem round_zero (neg : Bool) {D : Nat} (hD : 0 < D) : ∃ w, F32.round neg 0 D = some w ∧ isZero w = true := by
  have hround := round_magOfBits (neg := neg) (b := 0) hD (by decide)
  rw [magOfBits_zero, Nat.zero_mul] at hround
  refine ⟨_, hround, ?_⟩
  rw [isZero_iff_mag, mag_pack neg (by decide), magOfBits_zero]

theorem add_zeros {a b : Word} (ha : isZero a = true) (hb : isZero b = true) :
    ∃ w, F32.add a b = some w ∧ isZero w = true := by
  rw [add_eq (isFinite_of_isZero ha) (isFinite_of_isZero hb), (isZero_iff_toInt a).mp ha, (isZero_iff_toInt b).mp hb,
    if_pos (Int.add_zero 0)]
  exact ⟨_, rfl, (isZero_iff_toInt _).mpr (zero_word_facts _).2.1⟩

theorem sub_zeros {a b : Word} (ha : isZero a = true) (hb : isZero b = true) :
    ∃ w, F32.sub a b = some w ∧ isZero w = true :=
  add_zeros ha (isZero_neg hb)

theorem mul_zero_right {a x : Word} (ha : F32.isFinite a = true) (hx : isZero x = true) :
    ∃ w, F32.mul a x = some w ∧ isZero w = true := by
  rw [mul_eq ha (isFinite_of_isZero hx), (isZero_iff_mag x).mp hx, Nat.mul_zero]
  exact round_zero _ (Nat.two_pow_pos 149)

theorem div_of_zero {a b : Word} (ha : isZero a = true) (hb : F32.isFinite b = true) (h0 : isZero b = false) :
    ∃ w, F32.div a b = some w ∧ isZero w = true := by
  have hmag : F32.mag b ≠ 0 := fun h => by rw [(isZero_iff_mag b).mpr h] at h0; cases h0
  rw [div_eq (isFinite_of_isZero ha) hb hmag, (isZero_iff_mag a).mp ha, Nat.zero_mul]
  exact round_zero _ (Nat.pos_of_ne_zero hmag)

theorem sqrt_zero {a : Word} (ha : isZero a = true) : F32.sqrt a = some a := by
  rw [F32.sqrt, if_pos (isFinite_of_isZero ha), if_pos ((isZero_iff_mag a).mp ha)]

theorem clip_zero {v : Word} (h : isZero v = true) : isZero (clip v) = true := by
  rw [isZero_iff_toInt] at h ⊢
  rw [clip, toInt_min, toInt_max, h]
  decide

/-! The filter on zeros (R121). -/

/-- The four history registers are zeros, of either sign. -/
def FilterState.silent (h : FilterState Word) : Prop :=
  isZero h.x1 = true ∧ isZero h.x2 = true ∧ isZero h.y1 = true ∧ isZero h.y2 = true

theorem hpfStep_zero {c : Coeffs Word} (hc : c.valid = true) {h : FilterState Word} (hh : h.silent) {x : Word}
    (hx : isZero x = true) :
    ∃ y h', hpfStep Num.binary32.toArith c h x = some (y, h') ∧ isZero y = true ∧ h'.silent := by
  simp only [Coeffs.valid, Bool.and_eq_true] at hc
  obtain ⟨⟨⟨⟨hb0, hb1⟩, hb2⟩, ha1⟩, ha2⟩ := hc
  obtain ⟨hx1, hx2, hy1, hy2⟩ := hh
  obtain ⟨p0, hp0, zp0⟩ := mul_zero_right hb0 hx
  obtain ⟨p1, hp1, zp1⟩ := mul_zero_right hb1 hx1
  obtain ⟨p2, hp2, zp2⟩ := mul_zero_right hb2 hx2
  obtain ⟨q1, hq1, zq1⟩ := mul_zero_right ha1 hy1
  obtain ⟨q2, hq2, zq2⟩ := mul_zero_right ha2 hy2
  obtain ⟨t1, ht1, zt1⟩ := add_zeros zp0 zp1
  obtain ⟨t2, ht2, zt2⟩ := add_zeros zt1 zp2
  obtain ⟨t3, ht3, zt3⟩ := sub_zeros zt2 zq1
  obtain ⟨y, hy, zy⟩ := sub_zeros zt3 zq2
  exact ⟨y, _, hpfStep_some.mpr ⟨p0, p1, p2, q1, q2, t1, t2, t3, hp0, hp1, hp2, hq1, hq2, ht1, ht2, ht3, hy, rfl⟩,
    zy, hx, hx1, zy, hy1⟩

theorem hpfFrame_zeros {c : Coeffs Word} (hc : c.valid = true) {xs : List Word} (hxs : xs.all isZero = true)
    {h : FilterState Word} (hh : h.silent) :
    ∃ ys h', hpfFrame Num.binary32.toArith c h xs = some (ys, h') ∧ ys.length = xs.length ∧
      ys.all isZero = true ∧ h'.silent := by
  induction xs generalizing h with
  | nil => exact ⟨[], h, rfl, rfl, rfl, hh⟩
  | cons x xs ih =>
    rw [List.all_cons, Bool.and_eq_true] at hxs
    obtain ⟨y, h1, hstep, hy, hh1⟩ := hpfStep_zero hc hh hxs.1
    obtain ⟨ys, h2, hrest, hlen, hys, hh2⟩ := ih hxs.2 hh1
    refine ⟨y :: ys, h2, hpfFrame_cons.mpr ⟨y, h1, ys, hstep, hrest, rfl⟩, ?_, ?_, hh2⟩
    · rw [List.length_cons, List.length_cons, hlen]
    · rw [List.all_cons, hy, hys]
      rfl

theorem valid_biquad {c : Cfg} (h : c.valid = true) : c.biquad.valid = true := by
  simp only [Cfg.valid, Bool.and_eq_true] at h
  obtain ⟨⟨⟨⟨⟨⟨⟨⟨⟨⟨⟨-, -⟩, hbiquad⟩, -⟩, -⟩, -⟩, -⟩, -⟩, -⟩, -⟩, -⟩, -⟩ := h
  exact hbiquad

/-! The detector on zeros (R131, R132). -/

theorem sumSquares_zeros {f : List Word} (hf : f.all isZero = true) :
    ∃ w, sumSquares Num.binary32 f = some w ∧ isZero w = true := by
  suffices h : ∀ acc : Word, isZero acc = true → ∃ w,
      f.foldlM (fun acc x => do Num.binary32.add acc (← Num.binary32.mul x x)) acc = some w ∧ isZero w = true from
    h F32.posZero (by decide)
  induction f with
  | nil => exact fun acc hacc => ⟨acc, rfl, hacc⟩
  | cons x xs ih =>
    intro acc hacc
    rw [List.all_cons, Bool.and_eq_true] at hf
    obtain ⟨q, hq, zq⟩ := mul_zero_right (isFinite_of_isZero hf.1) hf.1
    obtain ⟨next, hnext, znext⟩ := add_zeros hacc zq
    obtain ⟨w, hw, zw⟩ := ih hf.2 next znext
    refine ⟨w, foldlM_some_cons.mpr ⟨next, ?_, hw⟩, zw⟩
    rw [Option.bind_eq_bind, binary32_mul, hq]
    exact hnext

theorem crossings_zeros {f : List Word} (hf : f.all isZero = true) : crossings f = 0 := by
  induction f using crossings.induct with
  | case1 a b rest ih =>
    rw [List.all_cons, Bool.and_eq_true] at hf
    have hb : isZero b = true := (List.all_eq_true.mp hf.2) b List.mem_cons_self
    rw [crossings, ih hf.2, negative_of_isZero hf.1, negative_of_isZero hb]
    rfl
  | case2 f hshort =>
    rw [crossings]
    exact hshort

/-- The length of a frame is a word that one can divide by. -/
theorem fromNat_divisor {n : Nat} (hpos : 0 < n) (h : n ≤ 2 ^ 24) :
    ∃ w, F32.fromNat n = some w ∧ F32.isFinite w = true ∧ isZero w = false := by
  obtain ⟨w, hw, hfin, hval⟩ := fromNat_small h
  refine ⟨w, hw, hfin, ?_⟩
  have hne : (n : Int) * 2 ^ 149 ≠ 0 := mul_ne_zero (Int.natCast_ne_zero.mpr hpos.ne') (pow_ne_zero 149 two_ne_zero)
  rwa [← hval, ne_eq, ← isZero_iff_toInt, Bool.not_eq_true] at hne

theorem rms_zeros {f : List Word} (hf : f.all isZero = true) (hpos : 0 < f.length) (hlen : f.length ≤ 2 ^ 24) :
    ∃ r, rms Num.binary32 f = some r ∧ isZero r = true := by
  obtain ⟨sum, hsum, zsum⟩ := sumSquares_zeros hf
  obtain ⟨n, hn, hfin, hne⟩ := fromNat_divisor hpos hlen
  obtain ⟨mean, hmean, zmean⟩ := div_of_zero zsum hfin hne
  exact ⟨mean, rms_some.mpr ⟨sum, n, mean, hsum, by rwa [binary32_fromNat], hmean, sqrt_zero zmean⟩, zmean⟩

theorem crossingRate_zeros {f : List Word} (hf : f.all isZero = true) (hpos : 0 < f.length)
    (hlen : f.length ≤ 2 ^ 24) : ∃ z, crossingRate Num.binary32 f = some z := by
  obtain ⟨a, ha, -, hval⟩ := fromNat_small (Nat.zero_le (2 ^ 24))
  obtain ⟨n, hn, hfin, hne⟩ := fromNat_divisor hpos hlen
  have za : isZero a = true := (isZero_iff_toInt a).mpr (by rw [hval]; rfl)
  obtain ⟨z, hz, -⟩ := div_of_zero za hfin hne
  have hcount : Num.binary32.fromNat (crossings f) = some a := by
    simp only [binary32_fromNat, crossings_zeros hf, ha]
  exact ⟨z, crossingRate_some.mpr ⟨a, n, hcount, (binary32_fromNat _).trans hn, hz⟩⟩

/-- R8: the thresholds are not negative, so a zero is not above them. -/
theorem not_eth_lt_zero {c : Cfg} (h : c.valid = true) {r : Word} (hr : isZero r = true) :
    F32.lt c.vad.eth r = false := by
  simp only [Cfg.valid, VadParams.valid, Bool.and_eq_true] at h
  obtain ⟨⟨⟨⟨⟨⟨⟨⟨⟨⟨⟨-, -⟩, -⟩, hvad⟩, -⟩, -⟩, -⟩, -⟩, -⟩, -⟩, -⟩, -⟩ := h
  obtain ⟨⟨⟨-, heth⟩, -⟩, -⟩ := hvad
  have hge : (0 : Int) ≤ F32.toInt c.vad.eth := of_decide_eq_true heth
  rw [F32.lt, (isZero_iff_toInt r).mp hr, decide_eq_false_iff_not]
  omega

/-! The suppressed magnitude (R151). -/

theorem le_posZero_iff (w : Word) : F32.le F32.posZero w = true ↔ 0 ≤ F32.toInt w := decide_eq_true_iff

theorem valid_beta {c : Cfg} (h : c.valid = true) : F32.le F32.posZero c.beta = true := by
  simp only [Cfg.valid, Bool.and_eq_true] at h
  obtain ⟨⟨⟨⟨⟨⟨⟨⟨⟨⟨⟨-, -⟩, -⟩, -⟩, -⟩, -⟩, -⟩, -⟩, hbeta⟩, -⟩, -⟩, -⟩ := h
  exact hbeta.1.2

/-- The product of two values that are not negative is not negative: nothing below zero is nearer to it
than a zero is. -/
theorem mul_nonneg_word {a b w : Word} (ha : F32.le F32.posZero a = true) (hb : F32.le F32.posZero b = true)
    (h : F32.mul a b = some w) : F32.le F32.posZero w = true := by
  rw [le_posZero_iff] at ha hb ⊢
  have hnear := ((mul_roundedTo h).2 F32.posZero isFinite_posZero).1
  have hprod : 0 ≤ F32.toInt a * F32.toInt b := mul_nonneg ha hb
  have hzero : F32.toInt F32.posZero = 0 := rfl
  rw [hzero] at hnear
  omega

end Sys2Proof.Machine
end

/-! ### Settling the statements about silence and the floor -/

section
open Sys2Proof Sys2Proof.Machine

/-- Settles O22: every product and every sum of the steps is a zero (`hpfFrame_zeros`). -/
theorem hpfKeepsSilence : Obligations.HpfKeepsSilence := by
  unfold Obligations.HpfKeepsSilence
  intro s xs hvalid hdefault hx1 hx2 hy1 hy2 hxs
  obtain ⟨ys, h, hframe, hlen, hys, hh⟩ := hpfFrame_zeros (valid_biquad hvalid) hxs ⟨hx1, hx2, hy1, hy2⟩
  rw [← num_of_default hdefault] at hframe
  exact ⟨h, ys, exec_hpf_next.mpr ⟨allFinite_of_all_isZero hxs, ys, h, hframe, rfl⟩, hlen, hys, hh⟩

/-- Settles O26: the measures exist and the root is a zero, which is above no threshold. -/
theorem vadCallsZeroFramesSilence : Obligations.VadCallsZeroFramesSilence := by
  unfold Obligations.VadCallsZeroFramesSilence
  intro s xs hlegal hdefault hlen hxs
  have hpos : 0 < xs.length := by rw [hlen]; exact hlegal.framePos
  have hsmall : xs.length ≤ 2 ^ 24 := by
    obtain ⟨-, hmax, -⟩ := valid_facts hlegal.cfg
    rw [hlen]
    exact (hlegal.frameLe.trans hmax).trans (by decide)
  obtain ⟨r, hr, zr⟩ := rms_zeros hxs hpos hsmall
  obtain ⟨z, hz⟩ := crossingRate_zeros hxs hpos hsmall
  rw [← num_of_default hdefault] at hr hz
  have hexec := (vadClassifiesTheFrame s xs).2 hlen (allFinite_of_all_isZero hxs) r z hr hz
  simpa only [not_eth_lt_zero hlegal.cfg zr, Bool.false_and, Bool.false_eq_true, if_false] using hexec

/-- Settles O38: the maximum is at least its second operand, a product of values that are not negative. -/
theorem suppressionKeepsTheFloor : Obligations.SuppressionKeepsTheFloor := by
  unfold Obligations.SuppressionKeepsTheFloor
  intro c mag prof m hvalid hmag h
  obtain ⟨-, diff, least, -, -, hleast, rfl⟩ := suppressed_some.mp h
  have hfloor : F32.le least (F32.max diff least) = true := le_max_right diff least
  have hnonneg := (le_posZero_iff least).mp (mul_nonneg_word (valid_beta hvalid) hmag hleast)
  refine ⟨least, hleast, hfloor, (le_posZero_iff _).mpr (hnonneg.trans ?_)⟩
  exact of_decide_eq_true hfloor

/-- Settles O42: every output is the clip of a gain times a zero. -/
theorem agcKeepsSilence : Obligations.AgcKeepsSilence := by
  unfold Obligations.AgcKeepsSilence
  intro s t xs hdefault hlen hxs h
  rcases exec_agc_next.mp h with ⟨hne, -⟩ | ⟨-, -, o, g, hframe, rfl⟩
  · exact absurd hlen hne
  rw [num_of_default hdefault] at hframe
  obtain ⟨cg, d, m, -, -, -, hgain, hout⟩ := agcFrame_some.mp hframe
  have hzeros : ∀ y ∈ o, isZero y = true := mapM_some_all hout fun x y hx hy => by
    obtain ⟨v, hv, rfl⟩ := Option.map_eq_some_iff.mp hy
    obtain ⟨w, hw, zw⟩ := mul_zero_right (add_isFinite hgain) (List.all_eq_true.mp hxs x hx)
    rw [Option.some.inj (hv.symm.trans hw)]
    exact clip_zero zw
  refine ⟨o, mapM_some_length hout, List.all_eq_true.mpr hzeros, ?_⟩
  exact setGain_emit_agc s g o

end

/-! ### Square roots (spec/48_arithmetic_and_classes.md R304) -/

section
namespace Sys2Proof.Machine

/-- `r` is the integer part of the root of `n`. -/
def IsFloorRoot (n r : Nat) : Prop := r * r ≤ n ∧ n < (r + 1) * (r + 1)

theorem isqrtFrom_isFloorRoot {n fuel r : Nat} (hlow : r * r ≤ n) (hhigh : n < (r + 2 ^ fuel) * (r + 2 ^ fuel)) :
    IsFloorRoot n (F32.isqrtFrom n fuel r) := by
  induction fuel generalizing r with
  | zero => exact ⟨hlow, hhigh⟩
  | succ fuel ih =>
    rw [F32.isqrtFrom]
    split
    case isTrue hbit =>
      refine ih hbit ?_
      rwa [Nat.add_assoc, ← Nat.two_mul, ← pow_succ']
    case isFalse hbit => exact ih hlow (not_le.mp hbit)

theorem isqrt_isFloorRoot (n : Nat) : IsFloorRoot n (F32.isqrt n) := by
  refine isqrtFrom_isFloorRoot (Nat.zero_le n) ?_
  rw [Nat.zero_add, ← pow_add]
  exact Nat.lt_log2_self.trans_le (Nat.pow_le_pow_right (by omega) (by omega))

theorem IsFloorRoot.le_sqrt {n r : Nat} (h : IsFloorRoot n r) : (r : ℝ) ≤ √n := by
  refine Real.le_sqrt_of_sq_le ?_
  rw [sq]
  exact_mod_cast h.1

theorem IsFloorRoot.sqrt_le {n r : Nat} (h : IsFloorRoot n r) : √(n : ℝ) ≤ r + 1 := by
  refine (Real.sqrt_le_left (by positivity)).mpr ?_
  rw [sq]
  exact_mod_cast h.2.le

/-- A value of a word as near `r + 1/2` as `2^24` is, is even: from `2^24` on the last place is above 1. -/
theorem even_of_near {r u : Int} (hr : 2 ^ 24 ≤ r) (hu : OnGrid u)
    (hnear : (u * 2 - (2 * r + 1)).natAbs ≤ (2 ^ 24 * 2 - (2 * r + 1)).natAbs) : u % 2 = 0 := by
  have hlarge : 2 ^ 24 ≤ u := by omega
  obtain ⟨b, rfl⟩ := hu.resolve_left (by omega)
  have hdvd : 2 ^ 1 ∣ magOfBits b := dvd_magOfBits (by exact_mod_cast hlarge)
  omega

/-- The integer nearest `r + 1/2` is nearest every point between `r` and `r + 1`, except against the
integer on the other side of `r + 1/2`. -/
theorem nearest_between {r w u : Int} {s : ℝ} (hlow : r ≤ s) (hhigh : s ≤ r + 1)
    (hnear : (w * 2 - (2 * r + 1)).natAbs ≤ (u * 2 - (2 * r + 1)).natAbs) (hmirror : w + u ≠ 2 * r + 1) :
    |(w : ℝ) - s| ≤ |(u : ℝ) - s| := by
  have below {x : Int} (h : x ≤ r) : (x : ℝ) ≤ s := (Int.cast_le.mpr h).trans hlow
  have above {x : Int} (h : r + 1 ≤ x) : s ≤ (x : ℝ) := hhigh.trans (by exact_mod_cast h)
  rcases le_or_gt w r with hw | hw <;> rcases le_or_gt u r with hu | hu
  · have huw : (u : ℝ) ≤ w := by exact_mod_cast (by omega : u ≤ w)
    rw [abs_of_nonpos (sub_nonpos.mpr (below hw)), abs_of_nonpos (sub_nonpos.mpr (below hu))]
    linarith
  · have hsum : 2 * ((r : ℝ) + 1) ≤ w + u := by exact_mod_cast (by omega : 2 * (r + 1) ≤ w + u)
    rw [abs_of_nonpos (sub_nonpos.mpr (below hw)), abs_of_nonneg (sub_nonneg.mpr (above hu))]
    linarith
  · have hsum : (w : ℝ) + u ≤ 2 * r := by exact_mod_cast (by omega : w + u ≤ 2 * r)
    rw [abs_of_nonneg (sub_nonneg.mpr (above hw)), abs_of_nonpos (sub_nonpos.mpr (below hu))]
    linarith
  · have hwu : (w : ℝ) ≤ u := by exact_mod_cast (by omega : w ≤ u)
    rw [abs_of_nonneg (sub_nonneg.mpr (above hw)), abs_of_nonneg (sub_nonneg.mpr (above hu))]
    linarith

/-- What `F32.sqrt` rounds, in half units: the integer root, and a half where the root is no integer. -/
def halfRoot (n : Nat) : Nat := 2 * F32.isqrt n + if F32.isqrt n * F32.isqrt n = n then 0 else 1

/-- Rounding `halfRoot` rounds the root itself. -/
theorem roundBits_halfRoot_nearest {n : Nat} (hn : 2 ^ 24 ≤ F32.isqrt n) {u : Int} (hu : OnGrid u) :
    |((magOfBits (roundBits (halfRoot n) 2) : Int) : ℝ) - √n| ≤ |(u : ℝ) - √n| := by
  have hnear {u : Int} (hu : OnGrid u) := (roundBits_nearest (N := halfRoot n) Nat.two_pos hu).1
  have hgrid : OnGrid (magOfBits (roundBits (halfRoot n) 2) : Nat) := .inr ⟨_, rfl⟩
  generalize magOfBits (roundBits (halfRoot n) 2) = w at *
  have hroot := isqrt_isFloorRoot n
  by_cases hsquare : F32.isqrt n * F32.isqrt n = n
  · have hsqrt : √(n : ℝ) = (F32.isqrt n : Int) := by
      conv_lhs => rw [← hsquare, Nat.cast_mul, Real.sqrt_mul_self (Nat.cast_nonneg _)]
      rw [Int.cast_natCast]
    have hle := hnear hu
    rw [halfRoot, if_pos hsquare] at hle
    rw [hsqrt, ← Int.cast_sub, ← Int.cast_sub, ← Int.cast_abs, ← Int.cast_abs, Int.cast_le,
      Int.abs_eq_natAbs, Int.abs_eq_natAbs]
    omega
  · have hhalf : (halfRoot n : Int) = 2 * (F32.isqrt n : Nat) + 1 := by
      rw [halfRoot, if_neg hsquare]
      push_cast
      rfl
    simp only [hhalf] at hnear
    have hcorner := hnear (u := 2 ^ 24) (.inr ⟨2 ^ 24, by decide⟩)
    refine nearest_between (r := (F32.isqrt n : Nat)) hroot.le_sqrt hroot.sqrt_le (hnear hu) fun hmirror => ?_
    have htie : (u * 2 - (2 * (F32.isqrt n : Nat) + 1)).natAbs = ((w : Int) * 2 - (2 * (F32.isqrt n : Nat) + 1)).natAbs := by
      omega
    have heven := even_of_near (by exact_mod_cast hn) hgrid hcorner
    have heven' := even_of_near (by exact_mod_cast hn) hu (htie.trans_le hcorner)
    omega

theorem sqrt_eq {a : Word} (ha : F32.isFinite a = true) (hsign : F32.sign a = false) (h0 : F32.mag a ≠ 0) :
    F32.sqrt a = F32.round false (halfRoot (F32.mag a * 2 ^ 149)) 2 := by
  rw [F32.sqrt, if_pos ha, if_neg h0, hsign, if_neg Bool.false_ne_true]
  rfl

theorem mag_le_greatest {a : Word} (ha : F32.isFinite a = true) : F32.mag a ≤ magOfBits 0x7F7FFFFF := by
  rw [mag_eq_magOfBits]
  exact magOfBits_strictMono.monotone (Nat.le_of_lt_succ ((isFinite_iff_bits a).mp ha))

/-- The root of a finite value lies in the range. -/
theorem halfRoot_le {a : Word} (ha : F32.isFinite a = true) :
    halfRoot (F32.mag a * 2 ^ 149) ≤ F32.mag 0x7F7FFFFF#32 * 2 := by
  obtain ⟨hroot, -⟩ := isqrt_isFloorRoot (F32.mag a * 2 ^ 149)
  have hunit : 2 ^ 149 < magOfBits 0x7F7FFFFF := by decide +kernel
  have hmag := mag_le_greatest ha
  rw [mag_greatest, halfRoot]
  generalize F32.isqrt (F32.mag a * 2 ^ 149) = r at *
  generalize magOfBits 0x7F7FFFFF = top at *
  have hlt : r < top := by
    rw [← Nat.mul_self_lt_mul_self_iff]
    calc r * r ≤ F32.mag a * 2 ^ 149 := hroot
      _ ≤ top * 2 ^ 149 := Nat.mul_le_mul_right _ hmag
      _ < top * top := Nat.mul_lt_mul_of_pos_left hunit (by omega)
  split <;> omega

theorem isqrt_large {m : Nat} (hm : m ≠ 0) : 2 ^ 24 ≤ F32.isqrt (m * 2 ^ 149) := by
  obtain ⟨-, hroot⟩ := isqrt_isFloorRoot (m * 2 ^ 149)
  rw [← Nat.lt_succ_iff, ← Nat.mul_self_lt_mul_self_iff]
  refine lt_of_le_of_lt ?_ hroot
  calc 2 ^ 24 * 2 ^ 24 ≤ 1 * 2 ^ 149 := by decide +kernel
    _ ≤ m * 2 ^ 149 := Nat.mul_le_mul_right _ (Nat.pos_of_ne_zero hm)

theorem sign_of_nonneg {a : Word} (h : F32.le F32.posZero a = true) (h0 : F32.mag a ≠ 0) : F32.sign a = false := by
  rw [le_posZero_iff, F32.toInt] at h
  by_contra hneg
  rw [if_pos (Bool.not_eq_false _ ▸ hneg)] at h
  omega

/-- The root of a word that is not negative is the word nearest the real root. -/
theorem sqrt_nearest {a : Word} (ha : F32.isFinite a = true) (hle : F32.le F32.posZero a = true) :
    ∃ w, F32.sqrt a = some w ∧ ∀ v : Word,
      |(F32.toInt w : ℝ) - √(F32.toInt a * 2 ^ 149)| ≤ |(F32.toInt v : ℝ) - √(F32.toInt a * 2 ^ 149)| := by
  by_cases h0 : F32.mag a = 0
  · have hzero : isZero a = true := (isZero_iff_mag a).mpr h0
    refine ⟨a, sqrt_zero hzero, fun v => ?_⟩
    rw [(isZero_iff_toInt a).mp hzero, Int.cast_zero, zero_mul, Real.sqrt_zero, sub_zero, abs_zero]
    exact abs_nonneg _
  · have hsign := sign_of_nonneg hle h0
    have hint : F32.toInt a = F32.mag a := by
      rw [toInt_eq_signed, hsign]
      rfl
    have hval : ((F32.toInt a : ℝ) * 2 ^ 149) = ((F32.mag a * 2 ^ 149 : Nat) : ℝ) := by
      rw [hint, Int.cast_natCast, Nat.cast_mul, Nat.cast_pow, Nat.cast_ofNat]
    rw [sqrt_eq ha hsign h0, hval]
    obtain ⟨w, hw⟩ := Option.isSome_iff_exists.mp (round_isSome (neg := false) Nat.two_pos (halfRoot_le ha))
    refine ⟨w, hw, fun v => ?_⟩
    obtain ⟨hrange, rfl⟩ := round_eq_some_iff.mp hw
    rw [toInt_pack false (by omega)]
    exact roundBits_halfRoot_nearest (isqrt_large h0) (onGrid_signed_toInt false v)

end Sys2Proof.Machine
end

/-! ### Settling the statement about square roots -/

section
open Sys2Proof Sys2Proof.Machine

/-- Settles O54: the midpoints between words are integers, so a half stands for what is between two of
them (`roundBits_halfRoot_nearest`). -/
theorem rootsRoundToNearest : Obligations.RootsRoundToNearest := by
  unfold Obligations.RootsRoundToNearest
  intro a ha hle
  obtain ⟨w, hw, hnearest⟩ := sqrt_nearest ha hle
  exact ⟨w, hw, fun v _ => hnearest v⟩

end

/-! ### The tables in ROM (spec/43_spectral.md R141, R142) -/

section
namespace Sys2Proof.Machine

/-- The cosine is the same on both sides of the half turn. -/
theorem cosTurn_mirror {a b : Nat} (h : a ≤ 8 * b) : Rom.cosTurn (8 * b - a) b = Rom.cosTurn a b := by
  have hfold : min (8 * b - a) (8 * b - (8 * b - a)) = min a (8 * b - a) := by omega
  simp only [Rom.cosTurn, hfold]

theorem cosSeries_zero : Rom.cosSeries 0 = Rom.unit := by decide +kernel

theorem sinSeries_zero : Rom.sinSeries 0 = 0 := by
  rw [Rom.sinSeries, Nat.zero_mul, Nat.zero_div]

/-- The cosine of the angle 0. -/
theorem cosTurn_zero (b : Nat) : Rom.cosTurn 0 b = (false, Rom.unit) := by
  have hneg : decide (2 * b < 0) = false := rfl
  simp only [Rom.cosTurn, Nat.zero_min, hneg, Bool.false_eq_true, if_false, Nat.zero_le, if_true, Nat.mul_zero,
    Nat.zero_div, cosSeries_zero]

/-- The cosine of a quarter turn. -/
theorem cosTurn_quarter {b : Nat} (hb : 0 < b) : Rom.cosTurn (2 * b) b = (false, 0) := by
  have hfold : min (2 * b) (8 * b - 2 * b) = 2 * b := by omega
  have hneg : decide (2 * b < 2 * b) = false := decide_eq_false (Nat.lt_irrefl _)
  have hoctant : ¬ 2 * b ≤ b := by omega
  simp only [Rom.cosTurn, hfold, hneg, Bool.false_eq_true, if_false, hoctant, Nat.sub_self, Nat.mul_zero,
    Nat.zero_div, sinSeries_zero]

/-- The cosine of three quarters of a turn. -/
theorem cosTurn_three_quarters {b : Nat} (hb : 0 < b) : Rom.cosTurn (6 * b) b = (false, 0) := by
  have hangle : 6 * b = 8 * b - 2 * b := by omega
  rw [hangle, cosTurn_mirror (by omega), cosTurn_quarter hb]

theorem win_mirror {n i : Nat} (h : i < n) : Rom.win n i = Rom.win n (n - 1 - i) := by
  have hangle : 8 * (n - 1 - i) = 8 * (n - 1) - 8 * i := by omega
  rw [Rom.win, Rom.win, hangle, cosTurn_mirror (by omega)]

theorem win_zero (n : Nat) : Rom.win n 0 = 0x00000000#32 := by
  have hword : Rom.nearest false (Rom.unit - Rom.unit) (2 * Rom.unit) = 0x00000000#32 := by decide +kernel
  simp only [Rom.win, Nat.mul_zero, cosTurn_zero, Bool.false_eq_true, if_false, hword]

theorem tw_zero {n : Nat} (hn : 0 < n) : Rom.tw n 0 = (0x3F800000#32, 0x00000000#32) := by
  have hangle : (8 * 0 + 6 * n) % (8 * n) = 6 * n := by
    rw [Nat.mul_zero, Nat.zero_add]
    exact Nat.mod_eq_of_lt (by omega)
  have hre : Rom.nearest false Rom.unit Rom.unit = 0x3F800000#32 := by decide +kernel
  have him : Rom.nearest (!false && (0 : Nat) != 0) 0 Rom.unit = 0x00000000#32 := by decide +kernel
  rw [Rom.tw, Rom.twRe, Rom.twIm, hangle, Nat.mul_zero, cosTurn_zero, cosTurn_three_quarters hn]
  exact Prod.ext hre him

theorem tw_quarter {n : Nat} (hn : 0 < n) (h4 : n % 4 = 0) :
    Rom.tw n (n / 4) = (0x00000000#32, 0xBF800000#32) := by
  have hquarter : 8 * (n / 4) = 2 * n := by omega
  have hangle : (2 * n + 6 * n) % (8 * n) = 0 := by
    rw [← Nat.add_mul]
    exact Nat.mod_self _
  have hre : Rom.nearest false 0 Rom.unit = 0x00000000#32 := by decide +kernel
  have him : Rom.nearest (!false && Rom.unit != 0) Rom.unit Rom.unit = 0xBF800000#32 := by decide +kernel
  rw [Rom.tw, Rom.twRe, Rom.twIm, hquarter, hangle, cosTurn_quarter hn, cosTurn_zero]
  exact Prod.ext hre him

end Sys2Proof.Machine
end

/-! ### Settling the statement about the tables -/

section
open Sys2Proof Sys2Proof.Machine

/-- Settles O31: the folded angles are 0 and a quarter turn, and `i` and `n - 1 - i` fold to the same one. -/
theorem romTablesAreExactWhereTheRuleIs : Obligations.RomTablesAreExactWhereTheRuleIs := by
  unfold Obligations.RomTablesAreExactWhereTheRuleIs
  exact ⟨fun _ _ h => win_mirror h, win_zero, fun _ hn => tw_zero hn, fun _ hn h4 => tw_quarter hn h4,
    by decide +kernel⟩

end

/-! ### The schedule of butterflies in exact arithmetic (spec/43_spectral.md R143, R144) -/

section
namespace Sys2Proof.Machine

/-- A fold over `0 .. n-1` whose every step answers and carries `P` one place on. -/
theorem foldlM_range_of_invariant {β : Type} {f : β → Nat → Option β} {b : β} {n : Nat} (P : Nat → β → Prop) (h0 : P 0 b)
    (hstep : ∀ j y, j < n → P j y → ∃ z, f y j = some z ∧ P (j + 1) z) :
    ∃ y, (List.range n).foldlM f b = some y ∧ P n y := by
  induction n with
  | zero => exact ⟨b, rfl, h0⟩
  | succ n ih =>
    obtain ⟨y, hy, hPy⟩ := ih fun j y hj => hstep j y (Nat.lt_succ_of_lt hj)
    obtain ⟨z, hz, hPz⟩ := hstep n y (Nat.lt_succ_self n) hPy
    refine ⟨z, ?_, hPz⟩
    rw [List.range_succ, List.foldlM_append, hy]
    exact foldlM_some_cons.mpr ⟨z, hz, rfl⟩

/-- The complex number that a pair of real and imaginary part stands for. -/
def toComplex (e : ℝ × ℝ) : ℂ := ⟨e.1, e.2⟩

/-- The complex value of element `i`. -/
def bin (x : List (ℝ × ℝ)) (i : Nat) : ℂ := toComplex (x.getD i (0, 0))

/-- A butterfly in exact arithmetic: one product, one sum, one difference of complex numbers. -/
theorem butterfly_exact {w : ℝ × ℝ} {a b : Nat} {x : List (ℝ × ℝ)} (ha : a < x.length) (hb : b < x.length)
    (hab : a ≠ b) :
    ∃ y, butterfly (Arith.exact ℝ) w a b x = some y ∧ bin y a = bin x a + toComplex w * bin x b ∧
      bin y b = bin x a - toComplex w * bin x b ∧ ∀ i, i ≠ a → i ≠ b → bin y i = bin x i := by
  refine ⟨_, rfl, ?_, ?_, fun i hia hib => ?_⟩
  · simp only [bin, List.getD_eq_getElem?_getD, List.getElem?_set_self, List.length_set, ha, Option.getD_some]
    apply Complex.ext <;> simp [toComplex, Arith.exact]
  · simp only [bin, List.getD_eq_getElem?_getD, List.getElem?_set_ne hab, List.getElem?_set_self, hb, Option.getD_some]
    apply Complex.ext <;> simp [toComplex, Arith.exact]
  · simp only [bin, List.getD_eq_getElem?_getD, List.getElem?_set_ne (Ne.symm hia), List.getElem?_set_ne (Ne.symm hib)]

/-! The pairs of one stage. -/

/-- The pairs for which `done` holds have been through their butterfly, the others stand as in `x`: pair
`j` of block `q` is elements `q*m + j` and `q*m + j + half`, for blocks of size `m = 2*half`. -/
def PairsDone (w : Nat → ℝ × ℝ) (step half : Nat) (x y : List (ℝ × ℝ)) (done : Nat → Nat → Prop) : Prop :=
  y.length = x.length ∧ ∀ q j, q < step → j < half →
    let a := q * (2 * half) + j
    let b := q * (2 * half) + j + half
    (done q j → bin y a = bin x a + toComplex (w j) * bin x b ∧ bin y b = bin x a - toComplex (w j) * bin x b) ∧
    (¬ done q j → bin y a = bin x a ∧ bin y b = bin x b)

theorem PairsDone.start (w : Nat → ℝ × ℝ) (step half : Nat) (x : List (ℝ × ℝ)) :
    PairsDone w step half x x fun _ _ => False :=
  ⟨rfl, fun _ _ _ _ => ⟨False.elim, fun _ => ⟨rfl, rfl⟩⟩⟩

theorem PairsDone.congr {w : Nat → ℝ × ℝ} {step half : Nat} {x y : List (ℝ × ℝ)} {done done' : Nat → Nat → Prop}
    (h : PairsDone w step half x y done) (hiff : ∀ q j, j < half → (done' q j ↔ done q j)) :
    PairsDone w step half x y done' :=
  ⟨h.1, fun q j hq hj =>
    ⟨fun hd => (h.2 q j hq hj).1 ((hiff q j hj).mp hd), fun hd => (h.2 q j hq hj).2 fun hd' => hd ((hiff q j hj).mpr hd')⟩⟩

/-- Blocks do not overlap. -/
theorem block_index_inj {m q q' r r' : Nat} (hr : r < m) (hr' : r' < m) (h : q * m + r = q' * m + r') :
    q = q' ∧ r = r' := by
  have hq : q = q' := by
    have hdiv := congrArg (· / m) h
    simpa only [Nat.mul_comm _ m, Nat.mul_add_div (by omega : 0 < m), Nat.div_eq_of_lt hr, Nat.div_eq_of_lt hr',
      Nat.add_zero] using hdiv
  exact ⟨hq, by rw [hq] at h; omega⟩

theorem block_index_lt {m step q r : Nat} (hq : q < step) (hr : r < m) : q * m + r < step * m := by
  calc q * m + r < (q + 1) * m := by rw [Nat.succ_mul]; omega
    _ ≤ step * m := Nat.mul_le_mul_right m hq

/-- The butterfly of one more pair. -/
theorem PairsDone.step {w : Nat → ℝ × ℝ} {step half q j : Nat} {x y : List (ℝ × ℝ)} {done : Nat → Nat → Prop}
    (h : PairsDone w step half x y done) (hx : x.length = step * (2 * half)) (hq : q < step) (hj : j < half)
    (hnew : ¬ done q j) :
    ∃ z, butterfly (Arith.exact ℝ) (w j) (q * (2 * half) + j) (q * (2 * half) + j + half) y = some z ∧
      PairsDone w step half x z fun q' j' => done q' j' ∨ (q' = q ∧ j' = j) := by
  obtain ⟨hlen, hpairs⟩ := h
  have hlow : q * (2 * half) + j < y.length := by
    rw [hlen, hx]
    exact block_index_lt hq (by omega)
  have hhigh : q * (2 * half) + j + half < y.length := by
    rw [hlen, hx, Nat.add_assoc]
    exact block_index_lt hq (by omega)
  obtain ⟨z, hz, hza, hzb, hrest⟩ := butterfly_exact (w := w j) hlow hhigh (by omega)
  refine ⟨z, hz, (butterfly_length hz).trans hlen, fun q' j' hq' hj' => ?_⟩
  by_cases hsame : q' = q ∧ j' = j
  · obtain ⟨rfl, rfl⟩ := hsame
    obtain ⟨ha, hb⟩ := (hpairs q' j' hq' hj').2 hnew
    rw [ha, hb] at hza hzb
    exact ⟨fun _ => ⟨hza, hzb⟩, fun hnot => absurd (.inr ⟨rfl, rfl⟩) hnot⟩
  · have hkeep {r : Nat} (hr : r = j' ∨ r = j' + half) : bin z (q' * (2 * half) + r) = bin y (q' * (2 * half) + r) := by
      refine hrest _ (fun heq => hsame ?_) (fun heq => hsame ?_)
      · obtain ⟨h1, h2⟩ := block_index_inj (by omega) (by omega) heq
        exact ⟨h1, by omega⟩
      · rw [Nat.add_assoc] at heq
        obtain ⟨h1, h2⟩ := block_index_inj (by omega) (by omega) heq
        exact ⟨h1, by omega⟩
    have ha := hkeep (.inl rfl)
    have hb := hkeep (.inr rfl)
    rw [← Nat.add_assoc] at hb
    obtain ⟨hdone, hnot⟩ := hpairs q' j' hq' hj'
    dsimp only
    rw [ha, hb]
    exact ⟨fun hd => hdone (hd.resolve_right hsame), fun hd => hnot fun hd' => hd (.inl hd')⟩

/-- The butterflies of block `q`, one after the other. -/
def fftBlock {α : Type} (ar : Arith α) (w : Nat → α × α) (half : Nat) (x : List (α × α)) (q : Nat) :
    Option (List (α × α)) :=
  (List.range half).foldlM (fun x j =>
    butterfly ar (w j) (q * (2 * half) + j) (q * (2 * half) + j + half) x) x

/-- A stage of a transform of size `2^(s + r + 1)`: `2^r` blocks of size `2^(s + 1)`. -/
theorem fftStage_eq {α : Type} (ar : Arith α) (tw : Nat → α × α) (s r : Nat) (x : List (α × α)) :
    fftStage ar tw (s + r + 1) (s + 1) x =
      (List.range (2 ^ r)).foldlM (fftBlock ar (fun j => tw (j * 2 ^ r)) (2 ^ s)) x := by
  have hm : 2 ^ (s + 1) = 2 * 2 ^ s := pow_succ' 2 s
  have hhalf : 2 * 2 ^ s / 2 = 2 ^ s := Nat.mul_div_cancel_left _ Nat.two_pos
  have hstep : 2 ^ (s + r + 1) / (2 * 2 ^ s) = 2 ^ r := by
    have hsize : 2 ^ (s + r + 1) = 2 ^ r * (2 * 2 ^ s) := by ring
    rw [hsize, Nat.mul_div_cancel _ (Nat.mul_pos Nat.two_pos (Nat.two_pow_pos s))]
  simp only [fftStage, hm, hhalf, hstep]
  rfl

/-- A block puts its own pairs through their butterflies. -/
theorem fftBlock_exact {w : Nat → ℝ × ℝ} {step half q : Nat} {x y : List (ℝ × ℝ)}
    (h : PairsDone w step half x y fun q' _ => q' < q) (hx : x.length = step * (2 * half)) (hq : q < step) :
    ∃ z, fftBlock (Arith.exact ℝ) w half y q = some z ∧ PairsDone w step half x z fun q' _ => q' < q + 1 := by
  obtain ⟨z, hz, hdone⟩ := foldlM_range_of_invariant
    (f := fun z j => butterfly (Arith.exact ℝ) (w j) (q * (2 * half) + j) (q * (2 * half) + j + half) z)
    (fun j z => PairsDone w step half x z fun q' j' => q' < q ∨ (q' = q ∧ j' < j))
    (h.congr fun q' j' _ => by omega) fun j z hj hz => by
      obtain ⟨u, hu, hdone⟩ := hz.step hx hq hj (by omega)
      exact ⟨u, hu, hdone.congr fun q' j' _ => by omega⟩
  exact ⟨z, hz, hdone.congr fun q' j' hj' => by omega⟩

/-- A stage puts every pair through its butterfly. -/
theorem fftStage_exact {tw : Nat → ℝ × ℝ} {s r : Nat} {x : List (ℝ × ℝ)} (hx : x.length = 2 ^ (s + r + 1)) :
    ∃ y, fftStage (Arith.exact ℝ) tw (s + r + 1) (s + 1) x = some y ∧
      PairsDone (fun j => tw (j * 2 ^ r)) (2 ^ r) (2 ^ s) x y fun _ _ => True := by
  have hsize : x.length = 2 ^ r * (2 * 2 ^ s) := by
    rw [hx]
    ring
  obtain ⟨y, hy, hdone⟩ := foldlM_range_of_invariant
    (fun q y => PairsDone (fun j => tw (j * 2 ^ r)) (2 ^ r) (2 ^ s) x y fun q' _ => q' < q)
    ((PairsDone.start _ _ _ x).congr fun _ _ _ => iff_of_false (Nat.not_lt_zero _) id)
    fun q y hq hy => fftBlock_exact hy hsize hq
  refine ⟨y, (fftStage_eq _ tw s r x).trans hy, hdone.1, fun q j hq hj => ⟨fun _ => ?_, fun hnot => absurd trivial hnot⟩⟩
  exact (hdone.2 q j hq hj).1 hq

end Sys2Proof.Machine
end

/-! ### The DFT sums (spec/43_spectral.md R143) -/

section
namespace Sys2Proof.Machine

/-- The root of unity of a transform of size `2^s`. -/
noncomputable def unityRoot (s : Nat) : ℂ := Complex.exp (-(2 * Real.pi / 2 ^ s : ℝ) * Complex.I)

theorem unityRoot_pow (s k : Nat) : unityRoot s ^ k = Complex.exp (-(2 * Real.pi * k / 2 ^ s : ℝ) * Complex.I) := by
  rw [unityRoot, ← Complex.exp_nat_mul]
  congr 1
  push_cast
  ring

theorem unityRoot_sq (s : Nat) : unityRoot (s + 1) ^ 2 = unityRoot s := by
  rw [unityRoot_pow, unityRoot, pow_succ (2 : ℝ) s, Nat.cast_ofNat, mul_div_mul_right _ _ two_ne_zero]

theorem unityRoot_half (s : Nat) : unityRoot (s + 1) ^ 2 ^ s = -1 := by
  have hangle : 2 * Real.pi * (2 ^ s : Nat) / 2 ^ (s + 1) = Real.pi := by
    push_cast
    field_simp
    ring
  rw [unityRoot_pow, hangle, neg_mul, Complex.exp_neg, Complex.exp_pi_mul_I]
  norm_num

theorem unityRoot_size (s : Nat) : unityRoot s ^ 2 ^ s = 1 := by
  have hsq : unityRoot (s + 1) ^ (2 ^ s * 2) = 1 := by rw [pow_mul, unityRoot_half, neg_one_sq]
  rwa [mul_comm, pow_mul, unityRoot_sq] at hsq

/-- The exact twiddle factors of a transform of size `2^p`. -/
noncomputable def exactTwiddle (p t : Nat) : ℝ × ℝ :=
  (Real.cos (2 * Real.pi * t / 2 ^ p), -Real.sin (2 * Real.pi * t / 2 ^ p))

theorem toComplex_exactTwiddle (p t : Nat) : toComplex (exactTwiddle p t) = unityRoot p ^ t := by
  rw [unityRoot_pow, exactTwiddle, ← Complex.ofReal_neg, Complex.exp_mul_I]
  generalize 2 * Real.pi * t / 2 ^ p = angle
  apply Complex.ext <;> simp [toComplex, Complex.cos_ofReal_re, Complex.sin_ofReal_re]

/-- Every `2^r`-th factor of the large table is a factor of the small one. -/
theorem unityRoot_add_pow (s r j : Nat) : unityRoot (s + r) ^ (j * 2 ^ r) = unityRoot s ^ j := by
  induction r with
  | zero => rw [Nat.add_zero, pow_zero, Nat.mul_one]
  | succ r ih => rw [pow_succ', ← mul_assoc, mul_comm j 2, mul_assoc, pow_mul, ← add_assoc, unityRoot_sq, ih]

/-- The DFT sum of size `2^s` over the elements `start`, `start + stride`, ... of `x`. -/
noncomputable def stridedDft (x : Nat → ℂ) (s start stride k : Nat) : ℂ :=
  ∑ n ∈ Finset.range (2 ^ s), x (start + n * stride) * unityRoot s ^ (k * n)

theorem stridedDft_zero (x : Nat → ℂ) (start stride k : Nat) : stridedDft x 0 start stride k = x start := by
  have hroot : unityRoot 0 = 1 := (pow_one _).symm.trans (unityRoot_size 0)
  rw [stridedDft, pow_zero, Finset.sum_range_one, Nat.zero_mul, Nat.add_zero, hroot, one_pow, mul_one]

theorem stridedDft_add_size (x : Nat → ℂ) (s start stride k : Nat) :
    stridedDft x s start stride (k + 2 ^ s) = stridedDft x s start stride k := by
  refine Finset.sum_congr rfl fun n _ => ?_
  rw [add_mul, pow_add, pow_mul _ (2 ^ s), unityRoot_size, one_pow, mul_one]

theorem sum_range_two_mul (f : Nat → ℂ) (m : Nat) :
    ∑ n ∈ Finset.range (2 * m), f n = ∑ n ∈ Finset.range m, f (2 * n) + ∑ n ∈ Finset.range m, f (2 * n + 1) := by
  induction m with
  | zero => simp
  | succ m ih =>
    rw [Nat.mul_succ, Finset.sum_range_succ, Finset.sum_range_succ, ih, Finset.sum_range_succ, Finset.sum_range_succ]
    ring

/-- A sum splits into that of the even and that of the odd elements. -/
theorem stridedDft_succ (x : Nat → ℂ) (s start stride k : Nat) :
    stridedDft x (s + 1) start stride k =
      stridedDft x s start (stride * 2) k + unityRoot (s + 1) ^ k * stridedDft x s (start + stride) (stride * 2) k := by
  rw [stridedDft, pow_succ' 2 s, sum_range_two_mul, stridedDft, stridedDft, Finset.mul_sum]
  congr 1 <;> refine Finset.sum_congr rfl fun n _ => ?_
  · have hindex : start + 2 * n * stride = start + n * (stride * 2) := by ring
    rw [hindex, mul_left_comm k, pow_mul, unityRoot_sq]
  · have hindex : start + (2 * n + 1) * stride = start + stride + n * (stride * 2) := by ring
    rw [hindex, mul_add, mul_one, pow_add, mul_left_comm k, pow_mul, unityRoot_sq]
    ring

theorem stridedDft_succ_upper (x : Nat → ℂ) (s start stride k : Nat) :
    stridedDft x (s + 1) start stride (k + 2 ^ s) =
      stridedDft x s start (stride * 2) k - unityRoot (s + 1) ^ k * stridedDft x s (start + stride) (stride * 2) k := by
  rw [stridedDft_succ, stridedDft_add_size, stridedDft_add_size, pow_add, unityRoot_half]
  ring

/-! The schedule computes them. -/

/-- After stage `s` of a transform of size `2^(s + r)`, block `q` of size `2^s` holds the DFT of the elements
`bitrev q`, `bitrev q + 2^r`, ... of the input. -/
def StageInvariant (x : List (ℝ × ℝ)) (s r : Nat) (y : List (ℝ × ℝ)) : Prop :=
  y.length = 2 ^ (s + r) ∧ ∀ q j, q < 2 ^ r → j < 2 ^ s →
    bin y (q * 2 ^ s + j) = stridedDft (bin x) s (bitrev r q) (2 ^ r) j

theorem bitReverse_stageInvariant (x : List (ℝ × ℝ)) (p : Nat) :
    StageInvariant x 0 p (bitReverse 0 p x) := by
  refine ⟨by rw [bitReverse_length, Nat.zero_add], fun q j hq hj => ?_⟩
  obtain rfl : j = 0 := by omega
  rw [stridedDft_zero, pow_zero, Nat.mul_one, Nat.add_zero, bin, bitReverse, getD_map_range _ _ hq]
  rfl

theorem bitrev_even (r q : Nat) : bitrev (r + 1) (2 * q) = bitrev r q := by
  rw [bitrev, Nat.mul_mod_right, Nat.zero_mul, Nat.zero_add, Nat.mul_div_cancel_left q Nat.two_pos]

theorem bitrev_odd (r q : Nat) : bitrev (r + 1) (2 * q + 1) = bitrev r q + 2 ^ r := by
  have hdiv : (2 * q + 1) / 2 = q := by omega
  have hmod : (2 * q + 1) % 2 = 1 := by omega
  rw [bitrev, hmod, hdiv, Nat.one_mul, Nat.add_comm]

/-- A stage joins two transforms of one size to one of the double size. -/
theorem fftStage_stageInvariant {x y : List (ℝ × ℝ)} {s r : Nat} (h : StageInvariant x s (r + 1) y) :
    ∃ z, fftStage (Arith.exact ℝ) (exactTwiddle (s + r + 1)) (s + r + 1) (s + 1) y = some z ∧
      StageInvariant x (s + 1) r z := by
  obtain ⟨hlen, hblocks⟩ := h
  obtain ⟨z, hz, hzlen, hpairs⟩ := fftStage_exact (tw := exactTwiddle (s + r + 1)) hlen
  refine ⟨z, hz, ?_, fun q k hq hk => ?_⟩
  · rw [hzlen, hlen]
    congr 1
    omega
  have hjoin {j : Nat} (hj : j < 2 ^ s) :
      bin z (q * 2 ^ (s + 1) + j) = stridedDft (bin x) (s + 1) (bitrev r q) (2 ^ r) j ∧
      bin z (q * 2 ^ (s + 1) + (j + 2 ^ s)) = stridedDft (bin x) (s + 1) (bitrev r q) (2 ^ r) (j + 2 ^ s) := by
    have heven := hblocks (2 * q) j (by rw [pow_succ']; omega) hj
    have hodd := hblocks (2 * q + 1) j (by rw [pow_succ']; omega) hj
    have hlow : 2 * q * 2 ^ s + j = q * (2 * 2 ^ s) + j := by ring
    have hhigh : (2 * q + 1) * 2 ^ s + j = q * (2 * 2 ^ s) + j + 2 ^ s := by ring
    have htw : toComplex (exactTwiddle (s + r + 1) (j * 2 ^ r)) = unityRoot (s + 1) ^ j := by
      rw [toComplex_exactTwiddle, Nat.add_right_comm, unityRoot_add_pow]
    obtain ⟨hsum, hdiff⟩ := (hpairs q j hq hj).1 trivial
    rw [hlow, bitrev_even, pow_succ 2 r] at heven
    rw [hhigh, bitrev_odd, pow_succ 2 r] at hodd
    rw [heven, hodd, htw] at hsum hdiff
    rw [pow_succ' 2 s, ← Nat.add_assoc, stridedDft_succ, stridedDft_succ_upper]
    exact ⟨hsum, hdiff⟩
  rcases Nat.lt_or_ge k (2 ^ s) with hlow | hhigh
  · exact (hjoin hlow).1
  · obtain ⟨j, rfl⟩ := Nat.exists_eq_add_of_le' hhigh
    exact (hjoin (by rw [pow_succ'] at hk; omega)).2

/-- The DFT sum of size `2^p`. -/
noncomputable def dft (p : Nat) (x : Nat → ℂ) (k : Nat) : ℂ :=
  ∑ n ∈ Finset.range (2 ^ p), x n * unityRoot p ^ (k * n)

theorem fftInPlace_dft (p : Nat) (x : List (ℝ × ℝ)) :
    ∃ y, fftInPlace (Arith.exact ℝ) (exactTwiddle p) p x = some y ∧ y.length = 2 ^ p ∧
      ∀ k, k < 2 ^ p → bin y k = dft p (bin x) k := by
  obtain ⟨y, hy, hlen, hblocks⟩ := foldlM_range_of_invariant (n := p) (b := bitReverse (Arith.exact ℝ).zero p x)
    (f := fun y s => fftStage (Arith.exact ℝ) (exactTwiddle p) p (s + 1) y)
    (fun s y => StageInvariant x s (p - s) y) (bitReverse_stageInvariant x p) fun s y hs hy => by
      obtain ⟨r, rfl⟩ := Nat.exists_eq_add_of_lt hs
      have hbefore : s + r + 1 - s = r + 1 := by omega
      have hafter : s + r + 1 - (s + 1) = r := by omega
      rw [hbefore] at hy
      rw [hafter]
      exact fftStage_stageInvariant hy
  rw [Nat.sub_self] at hlen hblocks
  refine ⟨y, hy, hlen, fun k hk => ?_⟩
  have hblock := hblocks 0 k (Nat.two_pow_pos 0) hk
  rw [Nat.zero_mul, Nat.zero_add] at hblock
  rw [hblock, stridedDft, dft]
  refine Finset.sum_congr rfl fun n _ => ?_
  rw [pow_zero, Nat.mul_one, bitrev, Nat.zero_add]

/-! The inverse transform. -/

theorem unityRoot_isPrimitiveRoot (p : Nat) : IsPrimitiveRoot (unityRoot p) (2 ^ p) := by
  have hroot := (Complex.isPrimitiveRoot_exp (2 ^ p) (Nat.two_pow_pos p).ne').inv
  rw [← Complex.exp_neg] at hroot
  have hexp : -(2 * Real.pi * Complex.I / (2 ^ p : Nat)) = -(2 * Real.pi / 2 ^ p : ℝ) * Complex.I := by
    push_cast
    ring
  rwa [hexp] at hroot

theorem conj_unityRoot (p : Nat) : (starRingEnd ℂ) (unityRoot p) = (unityRoot p)⁻¹ := by
  rw [unityRoot, ← Complex.exp_conj, ← Complex.exp_neg, map_mul, map_neg, Complex.conj_ofReal, Complex.conj_I]
  congr 1
  ring

/-- The powers of a quotient of two powers of the root sum to the size or to 0. -/
theorem sum_unityRoot_quotient (p : Nat) {k m : Nat} (hk : k < 2 ^ p) (hm : m < 2 ^ p) :
    ∑ n ∈ Finset.range (2 ^ p), (unityRoot p ^ m * (unityRoot p)⁻¹ ^ k) ^ n = if m = k then (2 ^ p : ℂ) else 0 := by
  have hprim := unityRoot_isPrimitiveRoot p
  have hne : unityRoot p ≠ 0 := hprim.ne_zero (Nat.two_pow_pos p).ne'
  rw [inv_pow, ← div_eq_mul_inv]
  split
  case isTrue heq =>
    rw [heq, div_self (pow_ne_zero k hne)]
    simp
  case isFalse hneq =>
    have hone : unityRoot p ^ m / unityRoot p ^ k ≠ 1 := by
      rw [ne_eq, div_eq_one_iff_eq (pow_ne_zero k hne)]
      exact fun h => hneq (hprim.pow_inj hm hk h)
    rw [geom_sum_eq hone, div_pow, ← pow_mul, ← pow_mul, mul_comm m, mul_comm k, pow_mul, pow_mul, hprim.pow_eq_one,
      one_pow, one_pow, div_one, sub_self, zero_div]

/-- The conjugate of the DFT of the conjugate of the DFT is the sequence, `2^p` times. -/
theorem dft_conj_dft (p : Nat) (x : Nat → ℂ) {k : Nat} (hk : k < 2 ^ p) :
    (starRingEnd ℂ) (dft p (fun n => (starRingEnd ℂ) (dft p x n)) k) = 2 ^ p * x k := by
  have hterm (n : Nat) : (starRingEnd ℂ) ((starRingEnd ℂ) (dft p x n) * unityRoot p ^ (k * n)) =
      ∑ m ∈ Finset.range (2 ^ p), x m * (unityRoot p ^ m * (unityRoot p)⁻¹ ^ k) ^ n := by
    rw [map_mul, Complex.conj_conj, map_pow, conj_unityRoot, dft, Finset.sum_mul]
    refine Finset.sum_congr rfl fun m _ => ?_
    rw [mul_pow, ← pow_mul, ← pow_mul, mul_comm n m, mul_assoc]
  rw [dft, map_sum, Finset.sum_congr rfl fun n _ => hterm n, Finset.sum_comm]
  simp only [← Finset.mul_sum]
  rw [Finset.sum_congr rfl fun m hm => by rw [sum_unityRoot_quotient p hk (Finset.mem_range.mp hm)],
    Finset.sum_eq_single k]
  · rw [if_pos rfl, mul_comm]
  · intro m _ hne
    rw [if_neg hne, mul_zero]
  · intro hnot
    exact absurd (Finset.mem_range.mpr hk) hnot

theorem toComplex_injective : Function.Injective toComplex := fun _ _ h =>
  Prod.ext (congrArg Complex.re h) (congrArg Complex.im h)

/-- Two sequences of one length are the same where their complex values are. -/
theorem eq_of_bin_eq {x y : List (ℝ × ℝ)} (hlen : x.length = y.length)
    (h : ∀ k, k < y.length → bin x k = bin y k) : x = y := by
  refine List.ext_getElem hlen fun k hx hy => ?_
  have hk := toComplex_injective (h k hy)
  rwa [List.getD_eq_getElem _ _ hx, List.getD_eq_getElem _ _ hy] at hk

/-- The step before the inner transform of `ifftInPlace` in exact arithmetic. -/
def conjugated (x : List (ℝ × ℝ)) : List (ℝ × ℝ) := x.map fun e => (e.1, -e.2)

/-- The step after it. -/
noncomputable def dividedConjugated (n : ℝ) (x : List (ℝ × ℝ)) : List (ℝ × ℝ) := x.map fun e => (e.1 / n, -(e.2 / n))

theorem bin_conjugated (x : List (ℝ × ℝ)) (k : Nat) : bin (conjugated x) k = (starRingEnd ℂ) (bin x k) := by
  rcases Nat.lt_or_ge k x.length with hk | hk
  · rw [bin, bin, conjugated, List.getD_eq_getElem _ _ (by rwa [List.length_map]), List.getElem_map,
      List.getD_eq_getElem _ _ hk]
    rfl
  · rw [bin, bin, conjugated, List.getD_eq_default _ _ (by rwa [List.length_map]), List.getD_eq_default _ _ hk]
    exact (map_zero (starRingEnd ℂ)).symm

theorem bin_dividedConjugated (n : ℝ) (x : List (ℝ × ℝ)) {k : Nat} (hk : k < x.length) :
    bin (dividedConjugated n x) k = (starRingEnd ℂ) (bin x k) / n := by
  rw [bin, bin, dividedConjugated, List.getD_eq_getElem _ _ (by rwa [List.length_map]), List.getElem_map,
    List.getD_eq_getElem _ _ hk]
  apply Complex.ext <;> simp [toComplex, neg_div]

theorem ifftInPlace_exact {tw : Nat → ℝ × ℝ} {p : Nat} {n : ℝ} {x y : List (ℝ × ℝ)}
    (h : fftInPlace (Arith.exact ℝ) tw p (conjugated x) = some y) :
    ifftInPlace (Arith.exact ℝ) tw p n x = some (dividedConjugated n y) := by
  have hmap : y.mapM (fun e => (some (e.1 / n, -(e.2 / n)) : Option (ℝ × ℝ))) = some (dividedConjugated n y) :=
    List.mapM_pure
  change (fftInPlace (Arith.exact ℝ) tw p (conjugated x)).bind _ = _
  rw [h]
  exact hmap

theorem ifftInPlace_fftInPlace {p : Nat} {x y : List (ℝ × ℝ)} (hx : x.length = 2 ^ p)
    (hdft : ∀ k, k < 2 ^ p → bin y k = dft p (bin x) k) :
    ifftInPlace (Arith.exact ℝ) (exactTwiddle p) p (2 ^ p : ℝ) y = some x := by
  obtain ⟨z, hz, hlen, hzdft⟩ := fftInPlace_dft p (conjugated y)
  rw [ifftInPlace_exact hz, Option.some.injEq]
  refine eq_of_bin_eq (by rw [dividedConjugated, List.length_map, hlen, hx]) fun k hk => ?_
  rw [hx] at hk
  have hinner : dft p (bin (conjugated y)) k = dft p (fun n => (starRingEnd ℂ) (dft p (bin x) n)) k :=
    Finset.sum_congr rfl fun n hn => by rw [bin_conjugated, hdft n (Finset.mem_range.mp hn)]
  rw [bin_dividedConjugated _ _ (hlen ▸ hk), hzdft k hk, hinner, dft_conj_dft p _ hk]
  push_cast
  exact mul_div_cancel_left₀ _ (pow_ne_zero p two_ne_zero)

end Sys2Proof.Machine
end

/-! ### Settling the statements about the transform -/

section
open Sys2Proof Sys2Proof.Machine

/-- Settles O29: stage `s` joins transforms of size `2^(s-1)` to transforms of size `2^s`
(`fftStage_stageInvariant`). -/
theorem fftComputesTheDft : Obligations.FftComputesTheDft := by
  unfold Obligations.FftComputesTheDft
  intro p x _
  obtain ⟨y, hy, hlen, hdft⟩ := fftInPlace_dft p x
  refine ⟨y, hy, hlen, fun k hk => (hdft k hk).trans (Finset.sum_congr rfl fun n _ => ?_)⟩
  rw [unityRoot_pow, Nat.cast_mul, ← mul_assoc]
  rfl

/-- Settles O30: both transforms are the sums, and the powers of a root of unity are orthogonal
(`sum_unityRoot_quotient`). -/
theorem inverseUndoesTheFft : Obligations.InverseUndoesTheFft := by
  unfold Obligations.InverseUndoesTheFft
  intro p x hx
  obtain ⟨y, hy, -, hdft⟩ := fftInPlace_dft p x
  exact ⟨y, hy, ifftInPlace_fftInPlace hx hdft⟩

end
